-- ==== Sys2Proof/Word.lean ====
section
/-! DEFINITION. The widths of the values the engine holds (spec/10_state.md section 2, spec/20_memory.md R60). -/

namespace Sys2Proof

/-- A word of the host port: 32 bits, bit `i` of the number is port data bit `i` (R68). -/
abbrev Word := BitVec 32

/-- An 8-bit character code or byte: a TXT, HRP or BYT cell (R36). -/
abbrev Byte := BitVec 8

/-- A 5-bit symbol: a SYM cell, 0..31 (R37). -/
abbrev Sym := BitVec 5

/-- The 30-bit polymod accumulator CHK (R25). -/
abbrev Chk := BitVec 30

/-- A bit cursor, WCUR or RCUR: 11 bits (R30, R31). -/
abbrev Cursor := BitVec 11

/-- A byte address of the host port: 13 bits, 0x0000 to 0x1FFF (R60). -/
abbrev PortAddr := BitVec 13

end Sys2Proof
end

