-- ==== Sys2Proof/Syntax.lean ====
section
/-! DEFINITION. The 23 commands (spec/30_encoding.md R100) as data, with their operands (R92 to R99).
Counts and cell numbers are natural numbers; WellFormed.lean bounds them by their fields' widths. -/

namespace Sys2Proof

/-- The checksum variant V (R10, R93): V = 0 is classic Bech32, V = 1 is Bech32bis. -/
inductive Variant where
  | classic
  | bis
deriving DecidableEq, Repr

/-- The direction D of CV_CONVERT (R98). -/
inductive Direction where
  /-- D = 0: BYT (8-bit) to SYM (5-bit). -/
  | to5
  /-- D = 1: SYM (5-bit) to BYT (8-bit). -/
  | to8
deriving DecidableEq, Repr

/-- One constructor per row of spec/opcode_table.json, in R100's order. -/
inductive Instr where
  | nop
  | softReset
  | pmInit
  /-- PM_STEP IMM5. -/
  | pmStep (imm5 : Sym)
  | pmHrp
  /-- PM_SYMS START, LEN. -/
  | pmSyms (start len : Nat)
  /-- PM_ZEROS CNT. -/
  | pmZeros (cnt : Nat)
  | pmXorm (v : Variant)
  | pmCmpm (v : Variant)
  | pmEmit
  | ckCreate (v : Variant)
  | ckVerify (v : Variant)
  | alEnc
  | alDec
  | bcEncode (v : Variant)
  | bcDecode (v : Variant)
  | agClear
  /-- AG_APPEND_L N. -/
  | agAppendL (n : Nat)
  /-- AG_APPEND_M N. -/
  | agAppendM (n : Nat)
  | enStart
  /-- EN_NEXT_L N. -/
  | enNextL (n : Nat)
  /-- EN_NEXT_M N. -/
  | enNextM (n : Nat)
  /-- CV_CONVERT D, P, S, T: direction, pad flag, first source cell, first destination cell. -/
  | cvConvert (d : Direction) (pad : Bool) (src dst : Nat)
deriving DecidableEq, Repr

end Sys2Proof
end

