-- ==== Sys2Proof/WellFormed.lean ====
section
/-! DEFINITION. Which operand values an instruction's fields can hold (spec/30_encoding.md R94 to R98).
IMM5, V, D and P are well formed by their types. -/

namespace Sys2Proof

/-- Every operand fits its field: CNT, START, LEN, S and T are 8-bit numbers (R95, R96, R98), N is a 5-bit
number (R97). -/
def Instr.wf : Instr → Bool
  | .nop | .softReset | .pmInit | .pmStep _ | .pmHrp => true
  | .pmSyms start len => decide (start < 256) && decide (len < 256)
  | .pmZeros cnt => decide (cnt < 256)
  | .pmXorm _ | .pmCmpm _ | .pmEmit | .ckCreate _ | .ckVerify _ => true
  | .alEnc | .alDec | .bcEncode _ | .bcDecode _ | .agClear => true
  | .agAppendL n => decide (n < 32)
  | .agAppendM n => decide (n < 32)
  | .enStart => true
  | .enNextL n => decide (n < 32)
  | .enNextM n => decide (n < 32)
  | .cvConvert _ _ src dst => decide (src < 256) && decide (dst < 256)

end Sys2Proof
end

