-- ==== Sys2Proof/Decode.lean ====
section
/-! DEFINITION. The command decoder and encoder (spec/30_encoding.md R90 to R101). A command is one 32-bit word;
decoding is total on all 2^32 words and looks only at the word (R91, R102). The word crosses the port as a number
(spec/20_memory.md R68), so no byte order enters here. -/

namespace Sys2Proof

/-- The seven command formats (R92 to R98). -/
inductive Format where
  | n | v | i5 | i8 | r | b | c
deriving DecidableEq, Repr

/-- FIELD_MASK: the operand bits of a format; every other bit of W[23:0] is reserved (R90, R92 to R98). -/
def Format.fieldMask : Format → Word
  | .n  => 0x000000#32
  | .v  => 0x000001#32
  | .i5 => 0x00001F#32
  | .i8 => 0x0000FF#32
  | .r  => 0x00FFFF#32
  | .b  => 0x00001F#32
  | .c  => 0xFFFF03#32

/-- The 23 assigned opcodes by name (R100). -/
inductive Opcode where
  | nop | softReset
  | pmInit | pmStep | pmHrp | pmSyms | pmZeros | pmXorm | pmCmpm | pmEmit
  | ckCreate | ckVerify
  | alEnc | alDec | bcEncode | bcDecode
  | agClear | agAppendL | agAppendM | enStart | enNextL | enNextM | cvConvert
deriving DecidableEq, Repr

/-- The OP byte of an opcode (R100). -/
def Opcode.code : Opcode → Byte
  | .nop       => 0x00#8
  | .softReset => 0x01#8
  | .pmInit    => 0x10#8
  | .pmStep    => 0x11#8
  | .pmHrp     => 0x12#8
  | .pmSyms    => 0x13#8
  | .pmZeros   => 0x14#8
  | .pmXorm    => 0x15#8
  | .pmCmpm    => 0x16#8
  | .pmEmit    => 0x17#8
  | .ckCreate  => 0x20#8
  | .ckVerify  => 0x21#8
  | .alEnc     => 0x30#8
  | .alDec     => 0x31#8
  | .bcEncode  => 0x32#8
  | .bcDecode  => 0x33#8
  | .agClear   => 0x40#8
  | .agAppendL => 0x42#8
  | .agAppendM => 0x43#8
  | .enStart   => 0x44#8
  | .enNextL   => 0x46#8
  | .enNextM   => 0x47#8
  | .cvConvert => 0x48#8

/-- The format of an opcode (R100). -/
def Opcode.format : Opcode → Format
  | .nop | .softReset | .pmInit | .pmHrp | .pmEmit | .alEnc | .alDec | .agClear | .enStart => .n
  | .pmXorm | .pmCmpm | .ckCreate | .ckVerify | .bcEncode | .bcDecode => .v
  | .pmStep => .i5
  | .pmZeros => .i8
  | .pmSyms => .r
  | .agAppendL | .agAppendM | .enNextL | .enNextM => .b
  | .cvConvert => .c

/-- Which opcode an OP byte names; `none` for the unassigned bytes of R101. -/
def Opcode.ofNat? : Nat → Option Opcode
  | 0x00 => some .nop
  | 0x01 => some .softReset
  | 0x10 => some .pmInit
  | 0x11 => some .pmStep
  | 0x12 => some .pmHrp
  | 0x13 => some .pmSyms
  | 0x14 => some .pmZeros
  | 0x15 => some .pmXorm
  | 0x16 => some .pmCmpm
  | 0x17 => some .pmEmit
  | 0x20 => some .ckCreate
  | 0x21 => some .ckVerify
  | 0x30 => some .alEnc
  | 0x31 => some .alDec
  | 0x32 => some .bcEncode
  | 0x33 => some .bcDecode
  | 0x40 => some .agClear
  | 0x42 => some .agAppendL
  | 0x43 => some .agAppendM
  | 0x44 => some .enStart
  | 0x46 => some .enNextL
  | 0x47 => some .enNextM
  | 0x48 => some .cvConvert
  | _    => none

/-- V = W[0] (R93): 0 is classic, 1 is bis. -/
def variantOfBit (b : Bool) : Variant := if b then .bis else .classic

/-- D = W[0] of the C format (R98): 0 is 8 to 5, 1 is 5 to 8. -/
def directionOfBit (b : Bool) : Direction := if b then .to8 else .to5

/-- The bit of a variant in its field (R93). -/
def Variant.bit : Variant → Bool
  | .classic => false
  | .bis => true

/-- The bit of a direction in its field (R98). -/
def Direction.bit : Direction → Bool
  | .to5 => false
  | .to8 => true

/-- An 8-bit field of a word as a number, its lowest bit at `lo` (R95, R96, R98). -/
def field8 (w : Word) (lo : Nat) : Nat := (w.extractLsb' lo 8).toNat

/-- N = W[4:0] as a number (R97). -/
def fieldN (w : Word) : Nat := (w.extractLsb' 0 5).toNat

/-- The command an assigned opcode and a word's fields stand for (R92 to R98). -/
def Opcode.instr (op : Opcode) (w : Word) : Instr :=
  match op with
  | .nop       => .nop
  | .softReset => .softReset
  | .pmInit    => .pmInit
  | .pmStep    => .pmStep (w.extractLsb' 0 5)
  | .pmHrp     => .pmHrp
  | .pmSyms    => .pmSyms (field8 w 0) (field8 w 8)
  | .pmZeros   => .pmZeros (field8 w 0)
  | .pmXorm    => .pmXorm (variantOfBit (w.getLsbD 0))
  | .pmCmpm    => .pmCmpm (variantOfBit (w.getLsbD 0))
  | .pmEmit    => .pmEmit
  | .ckCreate  => .ckCreate (variantOfBit (w.getLsbD 0))
  | .ckVerify  => .ckVerify (variantOfBit (w.getLsbD 0))
  | .alEnc     => .alEnc
  | .alDec     => .alDec
  | .bcEncode  => .bcEncode (variantOfBit (w.getLsbD 0))
  | .bcDecode  => .bcDecode (variantOfBit (w.getLsbD 0))
  | .agClear   => .agClear
  | .agAppendL => .agAppendL (fieldN w)
  | .agAppendM => .agAppendM (fieldN w)
  | .enStart   => .enStart
  | .enNextL   => .enNextL (fieldN w)
  | .enNextM   => .enNextM (fieldN w)
  | .cvConvert => .cvConvert (directionOfBit (w.getLsbD 0)) (w.getLsbD 1) (field8 w 8) (field8 w 16)

/-- Why a word is no command (R91). Both reasons raise ILLEGAL_COMMAND (R122). -/
inductive DecodeError where
  /-- W[31:24] is none of the 23 opcodes (R101). -/
  | unassignedOpcode
  /-- OP is assigned but a reserved bit of W[23:0] is 1 (R90, R91). -/
  | reservedBitSet
deriving DecidableEq, Repr

/-- The OP byte W[31:24] (R90). -/
def opField (w : Word) : Nat := (w.extractLsb' 24 8).toNat

/-- `decode(W)` of R91, in its two steps: the opcode, then the reserved bits. -/
def decode (w : Word) : Except DecodeError Instr :=
  match Opcode.ofNat? (opField w) with
  | none => .error .unassignedOpcode
  | some op =>
    if w &&& 0xFFFFFF#32 &&& ~~~op.format.fieldMask ≠ 0#32 then .error .reservedBitSet
    else .ok (op.instr w)

/-- The opcode of a command (R100). -/
def Instr.opcode : Instr → Opcode
  | .nop => .nop
  | .softReset => .softReset
  | .pmInit => .pmInit
  | .pmStep _ => .pmStep
  | .pmHrp => .pmHrp
  | .pmSyms _ _ => .pmSyms
  | .pmZeros _ => .pmZeros
  | .pmXorm _ => .pmXorm
  | .pmCmpm _ => .pmCmpm
  | .pmEmit => .pmEmit
  | .ckCreate _ => .ckCreate
  | .ckVerify _ => .ckVerify
  | .alEnc => .alEnc
  | .alDec => .alDec
  | .bcEncode _ => .bcEncode
  | .bcDecode _ => .bcDecode
  | .agClear => .agClear
  | .agAppendL _ => .agAppendL
  | .agAppendM _ => .agAppendM
  | .enStart => .enStart
  | .enNextL _ => .enNextL
  | .enNextM _ => .enNextM
  | .cvConvert _ _ _ _ => .cvConvert

/-- The operand bits W[23:0] of a command, its fields placed by its format and every reserved bit 0 (R92 to R98). -/
def Instr.operandBits : Instr → BitVec 24
  | .nop | .softReset | .pmInit | .pmHrp | .pmEmit | .alEnc | .alDec | .agClear | .enStart => 0#24
  | .pmStep imm5 => 0#19 ++ imm5
  | .pmSyms start len => 0#8 ++ BitVec.ofNat 8 len ++ BitVec.ofNat 8 start
  | .pmZeros cnt => 0#16 ++ BitVec.ofNat 8 cnt
  | .pmXorm v => 0#23 ++ BitVec.ofBool v.bit
  | .pmCmpm v => 0#23 ++ BitVec.ofBool v.bit
  | .ckCreate v => 0#23 ++ BitVec.ofBool v.bit
  | .ckVerify v => 0#23 ++ BitVec.ofBool v.bit
  | .bcEncode v => 0#23 ++ BitVec.ofBool v.bit
  | .bcDecode v => 0#23 ++ BitVec.ofBool v.bit
  | .agAppendL n => 0#19 ++ BitVec.ofNat 5 n
  | .agAppendM n => 0#19 ++ BitVec.ofNat 5 n
  | .enNextL n => 0#19 ++ BitVec.ofNat 5 n
  | .enNextM n => 0#19 ++ BitVec.ofNat 5 n
  | .cvConvert d pad src dst =>
      BitVec.ofNat 8 dst ++ BitVec.ofNat 8 src ++ 0#6 ++ BitVec.ofBool pad ++ BitVec.ofBool d.bit

/-- The command word of a command: OP in W[31:24], the operand bits below it (R90). -/
def encode (i : Instr) : Word := i.opcode.code ++ i.operandBits

/-- What the decoder reads from the low `nbits` bits of `w`, numbered as spec/opcode_table.json numbers them
(every row has 32 bits); `none` where it refuses. -/
def decodeTableWord (nbits w : Nat) : Option Instr :=
  match decode (BitVec.ofNat 32 (w % 2 ^ nbits)) with
  | .ok i => some i
  | .error _ => none

end Sys2Proof
end

