-- ==== Sys2Proof/Config.lean ====
section
/-! DEFINITION. The engine's fixed parameters (spec/00_scope.md R8) and the one parameter the spec leaves to the
host platform, PORT_BASE (spec/92_eei_decisions.md D42). The generator table, the two checksum targets and the
alphabet stand with the functions that use them (Machine/Operands.lean). -/

namespace Sys2Proof.Config

/-- MEM_CELLS: cells per engine buffer (R8, R36). -/
def memCells : Nat := 256

/-- CAP: the largest length any buffer length register holds (R8). -/
def cap : Nat := 255

/-- CURSOR_MAX = 5 x CAP: the largest bit cursor (R8). -/
def cursorMax : Nat := 1275

/-- MAX_STRING: the longest string BC_DECODE accepts (R8). -/
def maxString : Nat := 90

/-- CHECKSUM_SYMBOLS: the length of a checksum in symbols (R8). -/
def checksumSymbols : Nat := 6

/-- PORT_BASE: where the host platform places the port in its own address space. The spec leaves it open (D42,
"OPEN: parameter PORT_BASE, a host-platform choice"), so it has no value here and nothing the engine does
depends on it: the model addresses the port by offset. -/
opaque portBase : Nat

/-- The host-side address of a port offset (D42). -/
def busAddress (offset : PortAddr) : Nat := portBase + offset.toNat

end Sys2Proof.Config
end

