-- ==== Sys2Proof/Machine/HostTypes.lean ====
section
/-! DEFINITION. What the host side of the model is made of, as plain data: the port's locations (spec/20_memory.md
R62), the host's events, the host-program lines of spec/30_encoding.md R103 and R104, and the four host procedures
of spec/46_host_procedures.md with their outcomes. -/

namespace Sys2Proof.Machine

/-- The named port registers, in address order from 0x0000 (R62). -/
inductive Reg where
  | id | cmd | status | arg | res | chk | tlen | hlen | slen | blen | wcur | rcur
deriving DecidableEq, Repr

/-- The four buffers (R36). -/
inductive BufName where
  | txt | hrp | sym | byt
deriving DecidableEq, Repr

/-- A location of the host-program syntax (R103): a register name or `BUF[i]`. -/
inductive Loc where
  | reg (r : Reg)
  | cell (b : BufName) (i : Nat)
deriving DecidableEq, Repr

/-- One host port access (R60, R66): its width in bits, its byte address and, for a write, its 32-bit data. -/
inductive Access where
  | read (width : Nat) (addr : PortAddr)
  | write (width : Nat) (addr : PortAddr) (data : Word)
deriving DecidableEq, Repr

/-- One line of a host program (R103), the pseudo-instructions of R104 among them. -/
inductive Line where
  /-- `WR <loc>, <value>`. -/
  | wr (loc : Loc) (value : Word)
  /-- `RD <loc>`, with the optional `-> <expected>`, an annotation. -/
  | rd (loc : Loc) (expected : Option Word)
  /-- `CMD <mnemonic> <operands>`. -/
  | cmd (i : Instr)
  /-- `LDTXT "<s>"`. -/
  | ldTxt (s : List Byte)
  /-- `LDHRP "<s>"`. -/
  | ldHrp (s : List Byte)
  /-- `LDSYM [v0, ...]`. -/
  | ldSym (vs : List Word)
  /-- `LDBYT [b0, ...]`. -/
  | ldByt (bs : List Word)
  /-- `APPEND_L n, x`. -/
  | appendL (n : Nat) (x : Word)
  /-- `APPEND_M n, x`. -/
  | appendM (n : Nat) (x : Word)
  /-- `NEXT_L n`. -/
  | nextL (n : Nat)
  /-- `NEXT_M n`. -/
  | nextM (n : Nat)
  /-- `CHECK`. -/
  | check
deriving DecidableEq, Repr

/-- The two TxRef networks (R220). -/
inductive Network where
  | mainnet
  | testnet
deriving DecidableEq, Repr

/-- A TxRef value before its range check (R220, R226); `outIndex = 0` is "absent". -/
structure TxRef where
  network : Network
  blockHeight : Nat
  txIndex : Nat
  outIndex : Nat
deriving DecidableEq, Repr

/-- The error names of the host procedures (R214, R229, R251). They are no STATUS codes. -/
inductive HostError where
  | hrpMismatch
  | checksumSizeTooLow
  | segwitVersionNotSupported
  | bitsConversionFailed
  | dataSizeMismatch
  | segwitV0ProgramSizeMismatch
  | unknownHumanReadablePart
  | invalidLength
  | unknownMagicCode
  | chainMismatch
  | unknownVersion
  | zeroOutIndex
deriving DecidableEq, Repr

/-- How a host procedure ends (R214, R229, R289). -/
inductive ProcOutcome where
  /-- `ok(result)` of segwit_encode. -/
  | segwitString (s : List Byte)
  /-- `ok(version, program)` of segwit_decode. -/
  | segwitAddress (version : Nat) (program : List Byte)
  /-- `ok(string)` of txref_encode. -/
  | txrefString (s : List Byte)
  /-- `ok(TxRef)` of txref_decode. -/
  | txref (t : TxRef)
  /-- An engine STATUS code, passed on by CHECK. -/
  | engineCode (c : Byte)
  /-- A host error name. -/
  | hostError (e : HostError)
  /-- The last line of a host program has completed. -/
  | programEnded
deriving DecidableEq, Repr

/-- A host procedure with its arguments (R18 "Host procedure", R210 to R229), or a host program (R103). -/
inductive Procedure where
  | segwitEncode (hrp : List Byte) (version : Nat) (program : List Byte)
  | segwitDecode (hrp s : List Byte)
  | txrefEncode (t : TxRef) (v : Variant)
  | txrefDecode (s : List Byte) (v : Variant)
  | program (lines : List Line)
deriving DecidableEq, Repr

/-- A host procedure under way: the call, and one word for each port access it has made so far, oldest first: the
value read, or 0 for a write. The procedure's next access is a function of these (R290). -/
structure ProcRun where
  call : Procedure
  answers : List Word
deriving DecidableEq, Repr

/-- What the host does next (R19, R280, R289): the model's step takes one event. -/
inductive HostEvent where
  /-- A port access. -/
  | access (a : Access)
  /-- The engine's reset input, or power-on (R280). -/
  | reset
  /-- The start of a host procedure. -/
  | call (p : Procedure)
  /-- The next port access of the host procedure under way. -/
  | proceed
deriving DecidableEq, Repr

end Sys2Proof.Machine
end

