-- ==== Sys2Proof/Machine/State.lean ====
section
/-! DEFINITION. The machine's state (spec/10_state.md R20: ten registers and four buffers, "There is no other
state"), the host side that drives it, the reasons a step can stop, and the state after reset (R39). -/

namespace Sys2Proof.Machine

/-- A buffer of 256 cells of `w` bits (R36) as a list of (cell index, value) pairs: indexes strictly rising and no
value 0. An unlisted cell reads as 0, the reset value of every cell (R39). -/
abbrev Buffer (w : Nat) := List (Nat × BitVec w)

/-- The four engine buffers (R36). -/
structure Memory where
  /-- TXT: the Bech32 string, 8-bit characters. -/
  txt : Buffer 8
  /-- HRP: the human-readable part, 8-bit characters. -/
  hrp : Buffer 8
  /-- SYM: 5-bit symbols (R37). -/
  sym : Buffer 5
  /-- BYT: 8-bit bytes. -/
  byt : Buffer 8
deriving DecidableEq, Repr

/-- The host side (R19): the events it has still to issue, the host procedure under way, and the observation so
far (R289): the values its reads returned and the outcomes of its procedures, each oldest first. -/
structure HostSide where
  schedule : List HostEvent
  running : Option ProcRun
  reads : List Word
  outcomes : List ProcOutcome
deriving DecidableEq, Repr

/-- The whole state. Every field but `host` is the engine's, as R20 lists it. -/
structure State where
  /-- STATUS: the code of the last command's outcome (R22). -/
  status : Byte
  /-- ARG: the argument register (R23). -/
  arg : Word
  /-- RES: the result register (R24). -/
  res : Word
  /-- CHK: the 30-bit polymod accumulator (R25). -/
  chk : Chk
  /-- TLEN: the length of the string in TXT (R26). -/
  tlen : Byte
  /-- HLEN: the length of the HRP (R27). -/
  hlen : Byte
  /-- SLEN: the count of symbols in SYM (R28). -/
  slen : Byte
  /-- BLEN: the count of bytes in BYT (R29). -/
  blen : Byte
  /-- WCUR: the aggregator's bit cursor (R30). -/
  wcur : Cursor
  /-- RCUR: the enumerator's bit cursor (R31). -/
  rcur : Cursor
  /-- TXT, HRP, SYM and BYT (R36). -/
  mem : Memory
  /-- The host agent (R19). -/
  host : HostSide
deriving DecidableEq, Repr

/-- Why the model stops with a fault (R266: "The one fault"). -/
inductive Fault where
  /-- Raised by the segwit_encode procedure when its self-verify does not return its own arguments: the
  `unreachable` step (R211, R212, D32). Safe: the model stops and no outcome is recorded. -/
  | segwitSelfVerify
deriving DecidableEq, Repr

/-- Why the model gives a step no meaning (R266 "Refused"). No command word is ever refused. -/
inductive Refusal where
  /-- Raised by an arm of `exec` for an instruction without a meaning; no arm raises it. Safe. -/
  | notModelled (mnemonic : String)
  /-- Raised by a port access that is not 32 bits wide (R66). Safe. -/
  | accessWidth
  /-- Raised by a port access whose address is no multiple of 4 (R66). Safe. -/
  | misaligned
  /-- Raised by a port access or a call while a host procedure is under way (R285: interleaved procedures have no
  move). Safe: the run stops where the spec gives it no meaning. -/
  | interleaved
  /-- Raised by segwit_encode on arguments that break its precondition (R211, D26). Safe. -/
  | segwitPrecondition
  /-- Raised by txref_encode on a field out of range (R226, D35). Safe. -/
  | txrefRange
  /-- Raised by a host program or procedure that names a cell above 255, which no location spells (R103). Safe. -/
  | noSuchCell
  /-- Raised by a host-program line whose operand does not fit its field (R103). Safe. -/
  | operandRange
deriving DecidableEq, Repr

/-- The four buffers right after reset: every cell is 0 (R39). -/
def Memory.reset : Memory := ⟨[], [], [], []⟩

/-- A host that has issued nothing and has nothing to issue (R281: "After reset the engine is idle"). -/
def HostSide.idle : HostSide := ⟨[], none, [], []⟩

/-- The machine right after reset (R39): all 0 but CHK = 1, and an idle host. -/
def State.reset : State where
  status := 0x00#8
  arg := 0#32
  res := 0#32
  chk := 1#30
  tlen := 0#8
  hlen := 0#8
  slen := 0#8
  blen := 0#8
  wcur := 0#11
  rcur := 0#11
  mem := Memory.reset
  host := HostSide.idle

/-! The one-field updates. Sys2Proof/Laws/State.lean says of each what every field reads after it. -/

def State.setStatus (s : State) (v : Byte) : State := { s with status := v }
def State.setArg (s : State) (v : Word) : State := { s with arg := v }
def State.setRes (s : State) (v : Word) : State := { s with res := v }
def State.setChk (s : State) (v : Chk) : State := { s with chk := v }
def State.setTlen (s : State) (v : Byte) : State := { s with tlen := v }
def State.setHlen (s : State) (v : Byte) : State := { s with hlen := v }
def State.setSlen (s : State) (v : Byte) : State := { s with slen := v }
def State.setBlen (s : State) (v : Byte) : State := { s with blen := v }
def State.setWcur (s : State) (v : Cursor) : State := { s with wcur := v }
def State.setRcur (s : State) (v : Cursor) : State := { s with rcur := v }
def State.setMem (s : State) (v : Memory) : State := { s with mem := v }
def State.setHost (s : State) (v : HostSide) : State := { s with host := v }

def Memory.setTxt (m : Memory) (b : Buffer 8) : Memory := { m with txt := b }
def Memory.setHrp (m : Memory) (b : Buffer 8) : Memory := { m with hrp := b }
def Memory.setSym (m : Memory) (b : Buffer 5) : Memory := { m with sym := b }
def Memory.setByt (m : Memory) (b : Buffer 8) : Memory := { m with byt := b }

def State.setTxt (s : State) (b : Buffer 8) : State := s.setMem (s.mem.setTxt b)
def State.setHrp (s : State) (b : Buffer 8) : State := s.setMem (s.mem.setHrp b)
def State.setSym (s : State) (b : Buffer 5) : State := s.setMem (s.mem.setSym b)
def State.setByt (s : State) (b : Buffer 8) : State := s.setMem (s.mem.setByt b)

end Sys2Proof.Machine
end

