-- ==== Sys2Proof/Machine/Flags.lean ====
section
/-! DEFINITION. The STATUS codes (spec/60_exceptions.md R250). STATUS is this engine's only result indicator: it has
no condition codes (spec/10_state.md R35). -/

namespace Sys2Proof.Machine

/-- The closed set of outcomes a command reports (R250). -/
inductive StatusCode where
  | ok
  | checksumMismatch
  | invalidCharacter
  | mixedCase
  | noSeparator
  | nonPrintableCharacter
  | oversizedInput
  | undersizedHrp
  | shortChecksum
  | bitsConversionFailed
  | underflow
  | illegalCommand
  | range
  | capacity
deriving DecidableEq, Repr

/-- The numbers of R250. -/
def StatusCode.code : StatusCode → Byte
  | .ok                    => 0x00#8
  | .checksumMismatch      => 0x01#8
  | .invalidCharacter      => 0x02#8
  | .mixedCase             => 0x03#8
  | .noSeparator           => 0x04#8
  | .nonPrintableCharacter => 0x05#8
  | .oversizedInput        => 0x06#8
  | .undersizedHrp         => 0x07#8
  | .shortChecksum         => 0x08#8
  | .bitsConversionFailed  => 0x09#8
  | .underflow             => 0x0A#8
  | .illegalCommand        => 0x80#8
  | .range                 => 0x81#8
  | .capacity              => 0x82#8

/-- The rows of R250's table, in its order. -/
def StatusCode.all : List StatusCode :=
  [.ok, .checksumMismatch, .invalidCharacter, .mixedCase, .noSeparator, .nonPrintableCharacter, .oversizedInput,
   .undersizedHrp, .shortChecksum, .bitsConversionFailed, .underflow, .illegalCommand, .range, .capacity]

end Sys2Proof.Machine
end

