-- ==== Sys2Proof/Machine/Ops.lean ====
section
/-! DEFINITION. The shared operations over buffers and registers: MemRead and MemWrite (spec/00_scope.md R13), ranges
of cells (R12), the canonical form of memory, and the two ways a command ends, `raise` and `finish` (R14).

The engine takes no traps (spec/60_exceptions.md R256): a command's error IS its STATUS code, so `raise` stands where
another machine's exception entry would, and there is no return from one (R257). -/

namespace Sys2Proof.Machine

/-! ## Cells -/

/-- `MemRead(BUF, i)` (R13). A cell that is not listed holds 0. -/
def Buffer.read {w : Nat} : Buffer w → Nat → BitVec w
  | [], _ => 0
  | (j, v) :: rest, i => if i = j then v else Buffer.read rest i

/-- The buffer with cell `i` no longer listed. -/
def Buffer.erase {w : Nat} (b : Buffer w) (i : Nat) : Buffer w := b.filter fun c => decide (c.1 ≠ i)

/-- List the pair (i, v) at its place in the order of indexes. -/
def Buffer.insert {w : Nat} : Buffer w → Nat → BitVec w → Buffer w
  | [], i, v => [(i, v)]
  | (j, u) :: rest, i, v => if i < j then (i, v) :: (j, u) :: rest else (j, u) :: Buffer.insert rest i v

/-- Cell `i` becomes `v`; a cell that becomes 0 is no longer listed. -/
def Buffer.put {w : Nat} (b : Buffer w) (i : Nat) (v : BitVec w) : Buffer w :=
  if v = 0 then Buffer.erase b i else Buffer.insert (Buffer.erase b i) i v

/-- `MemWrite(BUF, i, v)` (R13). A buffer has 256 cells (R36); every command checks its index first, so the other
case never arises from one. -/
def Buffer.write {w : Nat} (b : Buffer w) (i : Nat) (v : BitVec w) : Buffer w :=
  if i < Config.memCells then Buffer.put b i v else b

/-- Write a list to the cells from `start` up, in order. -/
def Buffer.writeList {w : Nat} (b : Buffer w) (start : Nat) : List (BitVec w) → Buffer w
  | [] => b
  | v :: vs => Buffer.writeList (Buffer.write b start v) (start + 1) vs

/-- `BUF[start..start+len)` (R12). -/
def Buffer.slice {w : Nat} (b : Buffer w) (start : Nat) : Nat → List (BitVec w)
  | 0 => []
  | len + 1 => Buffer.read b start :: Buffer.slice b (start + 1) len

/-- The canonical form from index `lo` up: indexes strictly rising and below 256, no zero listed. -/
def Buffer.wfFrom {w : Nat} (lo : Nat) : Buffer w → Bool
  | [] => true
  | (i, v) :: rest =>
    decide (lo ≤ i) && decide (i < Config.memCells) && decide (v ≠ 0) && Buffer.wfFrom (i + 1) rest

/-- The canonical form of a buffer. -/
def Buffer.wf {w : Nat} (b : Buffer w) : Bool := Buffer.wfFrom 0 b

/-- The canonical form of memory: each of the four buffers is in it. -/
def Memory.wf (m : Memory) : Bool := Buffer.wf m.txt && Buffer.wf m.hrp && Buffer.wf m.sym && Buffer.wf m.byt

/-- A cell as the port shows it: zero-extended to 32 bits (R37). -/
def Memory.readCell (m : Memory) (b : BufName) (i : Nat) : Word :=
  match b with
  | .txt => (Buffer.read m.txt i).setWidth 32
  | .hrp => (Buffer.read m.hrp i).setWidth 32
  | .sym => (Buffer.read m.sym i).setWidth 32
  | .byt => (Buffer.read m.byt i).setWidth 32

/-- A port write to a cell: data[7:0], or data[4:0] for SYM (R37). -/
def Memory.writeCell (m : Memory) (b : BufName) (i : Nat) (d : Word) : Memory :=
  match b with
  | .txt => m.setTxt (Buffer.write m.txt i (d.setWidth 8))
  | .hrp => m.setHrp (Buffer.write m.hrp i (d.setWidth 8))
  | .sym => m.setSym (Buffer.write m.sym i (d.setWidth 5))
  | .byt => m.setByt (Buffer.write m.byt i (d.setWidth 8))

/-! ## How a command ends -/

/-- `raise Status(code)`: STATUS becomes `code` and nothing else of the state changes (R14, R252). -/
def raise (c : StatusCode) (s : State) : Host.Outcome State Fault Refusal := .next (s.setStatus c.code)

/-- `finish`: STATUS becomes OK, after the writes already made to `s` (R14, R252). -/
def finish (s : State) : Host.Outcome State Fault Refusal := .next (s.setStatus StatusCode.ok.code)

/-- The command step of a word that does not decode: ILLEGAL_COMMAND and no other effect (R122). -/
def illegalCommand (s : State) : Host.Outcome State Fault Refusal := raise .illegalCommand s

/-- The engine's registers and buffers at their reset values (R39), the host side as it is. -/
def resetEngine (s : State) : State := State.reset.setHost s.host

end Sys2Proof.Machine
end

