-- ==== Sys2Proof/Machine/Operands.lean ====
section
/-! DEFINITION. What a command's operands are (spec/30_encoding.md R99): the buffer ranges named by the length
registers, the variant's checksum target, and the bits of an aggregator field. Also the constant tables every family
shares: the generator and the alphabet (spec/00_scope.md R8). -/

namespace Sys2Proof.Machine

/-! ## Constants -/

/-- M(V): the checksum target of a variant (R10). -/
def target : Variant → Chk
  | .classic => 0x00000001#30
  | .bis => 0x3FFFFFFF#30

/-- GEN[0..4], the BIP-173 generator (R8, R9, R150); GEN has no other entry. -/
def gen : Nat → Chk
  | 0 => 0x3B6A57B2#30
  | 1 => 0x26508E6D#30
  | 2 => 0x1EA119FA#30
  | 3 => 0x3D4233DD#30
  | 4 => 0x2A1462B3#30
  | _ => 0#30

/-- The ID register's constant (R33). -/
def idConstant : Word := 0xB32E0107#32

/-- ALPHABET as ASCII codes, index 0 first (R8, R180). -/
def alphabet : List Byte :=
  [0x71#8, 0x70#8, 0x7A#8, 0x72#8, 0x79#8, 0x39#8, 0x78#8, 0x38#8] ++
  [0x67#8, 0x66#8, 0x32#8, 0x74#8, 0x76#8, 0x64#8, 0x77#8, 0x30#8] ++
  [0x73#8, 0x33#8, 0x6A#8, 0x6E#8, 0x35#8, 0x34#8, 0x6B#8, 0x68#8] ++
  [0x63#8, 0x65#8, 0x36#8, 0x6D#8, 0x75#8, 0x61#8, 0x37#8, 0x6C#8]

/-- The separator `1` (R16). -/
def separator : Byte := 0x31#8

/-! ## Buffer operands -/

/-- TXT[0..TLEN). -/
def State.txtText (s : State) : List Byte := Buffer.slice s.mem.txt 0 s.tlen.toNat

/-- HRP[0..HLEN). -/
def State.hrpText (s : State) : List Byte := Buffer.slice s.mem.hrp 0 s.hlen.toNat

/-- SYM[0..SLEN). -/
def State.symbols (s : State) : List Sym := Buffer.slice s.mem.sym 0 s.slen.toNat

/-! ## Aggregator and enumerator fields (R130) -/

/-- The order in which a field's bits enter or leave the stream (R69, R130). -/
inductive BitOrder where
  | lsbFirst
  | msbFirst
deriving DecidableEq, Repr

/-- The bit of a unit that stream offset `p` stands for: bit `p` LSB-first, bit `4 - p` MSB-first (R130). -/
def BitOrder.place : BitOrder → Nat → Nat
  | .lsbFirst, p => p
  | .msbFirst, p => 4 - p

/-- The bits ARG[0], ARG[1], ..., ARG[n-1] in that order: the field of AG_APPEND_L (R132). -/
def fieldBitsL (n : Nat) (arg : Word) : List Bool := (List.range n).map fun i => arg.getLsbD i

/-- The bits ARG[n-1], ..., ARG[1], ARG[0] in that order: the field of AG_APPEND_M (R133). -/
def fieldBitsM (n : Nat) (arg : Word) : List Bool := (List.range n).map fun i => arg.getLsbD (n - 1 - i)

end Sys2Proof.Machine
end

