-- ==== Sys2Proof/Machine/BitStream.lean ====
section
/-! DEFINITION. The bit-stream aggregator and enumerator over SYM (spec/41_bitstream.md R130 to R137). The two bit
orders are separate commands over one stream model (R130). -/

namespace Sys2Proof.Machine

/-! ## Aggregator -/

/-- One pass of R132's and R133's loop at stream position `q`: a unit entered at offset 0 is zeroed, then the bit is
ORed into its place. -/
def appendBit (o : BitOrder) (sym : Buffer 5) (q : Nat) (b : Bool) : Buffer 5 :=
  let sym0 := if q % 5 = 0 then Buffer.write sym (q / 5) 0#5 else sym
  Buffer.write sym0 (q / 5) (Buffer.read sym0 (q / 5) ||| ((BitVec.ofBool b).setWidth 5 <<< o.place (q % 5)))

/-- The loop: the bits enter the stream at positions q, q + 1, ... -/
def appendBits (o : BitOrder) (sym : Buffer 5) (q : Nat) : List Bool → Buffer 5
  | [] => sym
  | b :: bs => appendBits o (appendBit o sym q b) (q + 1) bs

/-- The state after a field has entered the stream: SYM, WCUR and SLEN = (WCUR + 4) div 5 (R132, R133). -/
def appendField (o : BitOrder) (bits : List Bool) (s : State) : State :=
  let q := s.wcur.toNat + bits.length
  ((s.setSym (appendBits o s.mem.sym s.wcur.toNat bits)).setWcur (BitVec.ofNat 11 q)).setSlen
    (BitVec.ofNat 8 ((q + 4) / 5))

/-- AG_CLEAR (R131): no SYM cell is written. -/
def execAgClear (s : State) : Host.Outcome State Fault Refusal := finish ((s.setWcur 0#11).setSlen 0#8)

/-- AG_APPEND_L (R132). -/
def execAgAppendL (n : Nat) (s : State) : Host.Outcome State Fault Refusal :=
  if s.wcur.toNat + n > Config.cursorMax then raise .capacity s
  else if n = 0 then finish s
  else finish (appendField .lsbFirst (fieldBitsL n s.arg) s)

/-- AG_APPEND_M (R133). -/
def execAgAppendM (n : Nat) (s : State) : Host.Outcome State Fault Refusal :=
  if s.wcur.toNat + n > Config.cursorMax then raise .capacity s
  else if n = 0 then finish s
  else finish (appendField .msbFirst (fieldBitsM n s.arg) s)

/-! ## Enumerator -/

/-- The bit at stream position `q` (R130). -/
def streamBit (o : BitOrder) (sym : Buffer 5) (q : Nat) : Bool :=
  (Buffer.read sym (q / 5)).getLsbD (o.place (q % 5))

/-- R135's loop: the bit read at position q + i becomes bit i. -/
def nextFieldL (sym : Buffer 5) (q : Nat) : Nat → Word
  | 0 => 0#32
  | n + 1 => nextFieldL sym q n ||| ((BitVec.ofBool (streamBit .lsbFirst sym (q + n))).setWidth 32 <<< n)

/-- R136's loop: each bit read is shifted in below the earlier ones. -/
def nextFieldM (sym : Buffer 5) (q : Nat) : Nat → Word
  | 0 => 0#32
  | n + 1 => (nextFieldM sym q n <<< 1) ||| (BitVec.ofBool (streamBit .msbFirst sym (q + n))).setWidth 32

/-- EN_START (R134). -/
def execEnStart (s : State) : Host.Outcome State Fault Refusal := finish (s.setRcur 0#11)

/-- EN_NEXT_L (R135). -/
def execEnNextL (n : Nat) (s : State) : Host.Outcome State Fault Refusal :=
  if s.rcur.toNat + n > 5 * s.slen.toNat then raise .underflow s
  else
    finish ((s.setRes (nextFieldL s.mem.sym s.rcur.toNat n)).setRcur (BitVec.ofNat 11 (s.rcur.toNat + n)))

/-- EN_NEXT_M (R136). -/
def execEnNextM (n : Nat) (s : State) : Host.Outcome State Fault Refusal :=
  if s.rcur.toNat + n > 5 * s.slen.toNat then raise .underflow s
  else
    finish ((s.setRes (nextFieldM s.mem.sym s.rcur.toNat n)).setRcur (BitVec.ofNat 11 (s.rcur.toNat + n)))

end Sys2Proof.Machine
end

