-- ==== Sys2Proof/Machine/Control.lean ====
section
/-! DEFINITION. The control commands NOP and SOFT_RESET (spec/40_control.md R120, R121). -/

namespace Sys2Proof.Machine

/-- NOP (R120): nothing but STATUS. -/
def execNop (s : State) : Host.Outcome State Fault Refusal := finish s

/-- SOFT_RESET (R121): the whole engine, ARG included, returns to its reset state (R39). -/
def execSoftReset (s : State) : Host.Outcome State Fault Refusal := finish (resetEngine s)

end Sys2Proof.Machine
end

