-- ==== Sys2Proof/Machine/Convert.lean ====
section
/-! DEFINITION. The 8<->5 width converter CV_CONVERT (spec/45_convert.md R200). Elements and the accumulator are
plain numbers, as in the rule's pseudocode; the accumulator keeps all its bits. -/

namespace Sys2Proof.Machine

/-- The inner loop `while bits >= to`: the groups it emits, most significant first, and the bits left over. `fuel`
bounds the number of passes; `bits` of it is always enough. -/
def drainGroups (toBits acc : Nat) : Nat → Nat → List Nat × Nat
  | 0, bits => ([], bits)
  | fuel + 1, bits =>
    if toBits ≤ bits then
      let rest := drainGroups toBits acc fuel (bits - toBits)
      ((acc >>> (bits - toBits)) % 2 ^ toBits :: rest.1, rest.2)
    else ([], bits)

/-- What the outer loop leaves: the groups emitted, the accumulator and the count of bits left over. -/
structure Regrouped where
  out : List Nat
  acc : Nat
  bits : Nat
deriving DecidableEq, Repr

/-- The outer loop of R200 over the source elements. -/
def regroup (fromBits toBits : Nat) : Nat → Nat → List Nat → Regrouped
  | acc, bits, [] => ⟨[], acc, bits⟩
  | acc, bits, v :: vs =>
    let acc1 := (acc <<< fromBits) ||| v
    let d := drainGroups toBits acc1 (bits + fromBits) (bits + fromBits)
    let rest := regroup fromBits toBits acc1 d.2 vs
    ⟨d.1 ++ rest.out, rest.acc, rest.bits⟩

/-- The leftover bits moved to the top of a group: `(acc << (to - bits)) & maxv` (R200). -/
def leftoverGroup (toBits : Nat) (r : Regrouped) : Nat := (r.acc <<< (toBits - r.bits)) % 2 ^ toBits

/-- `convertBits(from, to, pad, data)`: the output elements, or `none` for BITS_CONVERSION_FAILED (R200). -/
def convertBits (fromBits toBits : Nat) (pad : Bool) (data : List Nat) : Option (List Nat) :=
  let r := regroup fromBits toBits 0 0 data
  if pad then (if r.bits > 0 then some (r.out ++ [leftoverGroup toBits r]) else some r.out)
  else if r.bits ≥ fromBits ∨ leftoverGroup toBits r ≠ 0 then none
  else some r.out

/-- `outlen` of R200: floor(len x from / to), and one more under pad when bits are left over. -/
def convertedLength (fromBits toBits : Nat) (pad : Bool) (len : Nat) : Nat :=
  len * fromBits / toBits + (if pad = true ∧ len * fromBits % toBits ≠ 0 then 1 else 0)

/-- CV_CONVERT with D = 0: BYT[S..BLEN) to SYM from cell T (R200). -/
def convertTo5 (pad : Bool) (src dst : Nat) (s : State) : Host.Outcome State Fault Refusal :=
  if src > s.blen.toNat then raise .range s
  else
    let len := s.blen.toNat - src
    let outlen := convertedLength 8 5 pad len
    if dst + outlen > Config.cap then raise .capacity s
    else
      match convertBits 8 5 pad ((Buffer.slice s.mem.byt src len).map BitVec.toNat) with
      | none => raise .bitsConversionFailed s
      | some out =>
        finish ((s.setSym (Buffer.writeList s.mem.sym dst (out.map (BitVec.ofNat 5)))).setSlen
          (BitVec.ofNat 8 (dst + outlen)))

/-- CV_CONVERT with D = 1: SYM[S..SLEN) to BYT from cell T (R200). -/
def convertTo8 (pad : Bool) (src dst : Nat) (s : State) : Host.Outcome State Fault Refusal :=
  if src > s.slen.toNat then raise .range s
  else
    let len := s.slen.toNat - src
    let outlen := convertedLength 5 8 pad len
    if dst + outlen > Config.cap then raise .capacity s
    else
      match convertBits 5 8 pad ((Buffer.slice s.mem.sym src len).map BitVec.toNat) with
      | none => raise .bitsConversionFailed s
      | some out =>
        finish ((s.setByt (Buffer.writeList s.mem.byt dst (out.map (BitVec.ofNat 8)))).setBlen
          (BitVec.ofNat 8 (dst + outlen)))

/-- CV_CONVERT (R200): RANGE, then CAPACITY, then BITS_CONVERSION_FAILED. -/
def execCvConvert (d : Direction) (pad : Bool) (src dst : Nat) (s : State) : Host.Outcome State Fault Refusal :=
  match d with
  | .to5 => convertTo5 pad src dst s
  | .to8 => convertTo8 pad src dst s

end Sys2Proof.Machine
end

