-- ==== Sys2Proof/Machine/Alphabet.lean ====
section
/-! DEFINITION. The alphabet codec: its maps (spec/44_codec.md R180, R181), the character classes (R184, R16) and
the commands AL_ENC and AL_DEC (R182, R183). -/

namespace Sys2Proof.Machine

/-- `is_lower(ch)`: 0x61..0x7A (R184). -/
def isLower (ch : Byte) : Bool := decide (0x61 ≤ ch.toNat ∧ ch.toNat ≤ 0x7A)

/-- `is_upper(ch)`: 0x41..0x5A (R184). -/
def isUpper (ch : Byte) : Bool := decide (0x41 ≤ ch.toNat ∧ ch.toNat ≤ 0x5A)

/-- `printable(ch)`: 33..126 (R184). -/
def printable (ch : Byte) : Bool := decide (33 ≤ ch.toNat ∧ ch.toNat ≤ 126)

/-- `lower(ch)`: 0x41..0x5A map to ch + 0x20, every other code to itself (R16). -/
def lower (ch : Byte) : Byte := if isUpper ch then ch + 0x20#8 else ch

/-- `alpha(i)` (R180). -/
def alpha (i : Sym) : Byte := alphabet.getD i.toNat 0#8

/-- The position of a code in a list of codes. -/
def indexIn (ch : Byte) : List Byte → Option Nat
  | [] => none
  | c :: cs => if ch = c then some 0 else (indexIn ch cs).map (· + 1)

/-- `rev(ch)`: the index i with alpha(i) = lower(ch), `none` for NONE (R181). -/
def rev (ch : Byte) : Option Sym := (indexIn (lower ch) alphabet).map (BitVec.ofNat 5)

/-- AL_ENC (R182). -/
def execAlEnc (s : State) : Host.Outcome State Fault Refusal :=
  if s.arg.toNat > 31 then raise .range s
  else finish (s.setRes ((alpha (s.arg.setWidth 5)).setWidth 32))

/-- AL_DEC (R183): RANGE, then NON_PRINTABLE_CHARACTER, then INVALID_CHARACTER. -/
def execAlDec (s : State) : Host.Outcome State Fault Refusal :=
  if s.arg.toNat > 255 then raise .range s
  else
    let ch : Byte := s.arg.setWidth 8
    if printable ch = false then raise .nonPrintableCharacter s
    else
      match rev ch with
      | none => raise .invalidCharacter s
      | some i => finish (s.setRes (i.setWidth 32))

end Sys2Proof.Machine
end

