-- ==== Sys2Proof/Machine/Polymod.lean ====
section
/-! DEFINITION. The polymod engine: its functions (spec/42_polymod.md R150 to R153) and the PM_ commands
(R154 to R161). -/

namespace Sys2Proof.Machine

/-! ## Functions -/

/-- `g` where the captured bit is 1, else 0. -/
def selected (bit : Bool) (g : Chk) : Chk := if bit then g else 0#30

/-- The exclusive-or of the generator constants whose captured bit c[25 + i] is 1 (R150). -/
def feedback (c : Chk) : Chk :=
  selected (c.getLsbD 25) (gen 0) ^^^ selected (c.getLsbD 26) (gen 1) ^^^ selected (c.getLsbD 27) (gen 2) ^^^
  selected (c.getLsbD 28) (gen 3) ^^^ selected (c.getLsbD 29) (gen 4)

/-- `step(c, v)` (R150). The 30-bit shift drops c[29:25], so it moves c[24:0] to bits 29:5. -/
def polymodStep (c : Chk) (v : Sym) : Chk := (c <<< 5) ^^^ v.setWidth 30 ^^^ feedback c

/-- `polymod_from(c, vals)` (R151). -/
def polymodFrom (c : Chk) (vals : List Sym) : Chk := vals.foldl polymodStep c

/-- `polymod(vals)`: the accumulator starts at 1 (R151). -/
def polymod (vals : List Sym) : Chk := polymodFrom 1#30 vals

/-- `expand(h)`: the high 3 bits of each byte, a zero, the low 5 bits of each byte (R152). -/
def expand (h : List Byte) : List Sym :=
  h.map (fun ch : Byte => (ch >>> 5).setWidth 5) ++ [0#5] ++ h.map (fun ch : Byte => ch.setWidth 5)

/-- `slice6(c)`: six symbols, most significant first (R153). -/
def slice6 (c : Chk) : List Sym :=
  [c.extractLsb' 25 5, c.extractLsb' 20 5, c.extractLsb' 15 5, c.extractLsb' 10 5, c.extractLsb' 5 5,
   c.extractLsb' 0 5]

/-- k zero symbols, `[0]*k` (R12). -/
def zeros (k : Nat) : List Sym := List.replicate k 0#5

/-! ## Commands -/

/-- PM_INIT (R154). -/
def execPmInit (s : State) : Host.Outcome State Fault Refusal := finish (s.setChk 1#30)

/-- PM_STEP (R155). -/
def execPmStep (imm5 : Sym) (s : State) : Host.Outcome State Fault Refusal :=
  finish (s.setChk (polymodStep s.chk imm5))

/-- PM_HRP (R156). -/
def execPmHrp (s : State) : Host.Outcome State Fault Refusal :=
  finish (s.setChk (polymodFrom s.chk (expand s.hrpText)))

/-- PM_SYMS (R157): any range within the 256 cells, whatever SLEN is. -/
def execPmSyms (start len : Nat) (s : State) : Host.Outcome State Fault Refusal :=
  if start + len > Config.memCells then raise .range s
  else finish (s.setChk (polymodFrom s.chk (Buffer.slice s.mem.sym start len)))

/-- PM_ZEROS (R158). -/
def execPmZeros (cnt : Nat) (s : State) : Host.Outcome State Fault Refusal :=
  finish (s.setChk (polymodFrom s.chk (zeros cnt)))

/-- PM_XORM (R159). -/
def execPmXorm (v : Variant) (s : State) : Host.Outcome State Fault Refusal :=
  finish (s.setChk (s.chk ^^^ target v))

/-- PM_CMPM (R160). -/
def execPmCmpm (v : Variant) (s : State) : Host.Outcome State Fault Refusal :=
  if s.chk ≠ target v then raise .checksumMismatch s else finish s

/-- Append slice6(c) to SYM and count the six symbols in SLEN: the write of PM_EMIT and CK_CREATE (R161, R170). -/
def appendChecksum (c : Chk) (s : State) : State :=
  (s.setSym (Buffer.writeList s.mem.sym s.slen.toNat (slice6 c))).setSlen
    (BitVec.ofNat 8 (s.slen.toNat + Config.checksumSymbols))

/-- PM_EMIT (R161). -/
def execPmEmit (s : State) : Host.Outcome State Fault Refusal :=
  if s.slen.toNat + Config.checksumSymbols > Config.cap then raise .capacity s
  else finish (appendChecksum s.chk s)

end Sys2Proof.Machine
end

