-- ==== Sys2Proof/Machine/Checksum.lean ====
section
/-! DEFINITION. Checksum creation and verification (spec/43_checksum.md R170, R171). -/

namespace Sys2Proof.Machine

/-- `polymod(expand(h) ++ vals ++ [0]*6) ^ M(V)`: the checksum of a payload (R170, R185). -/
def checksumOf (v : Variant) (h : List Byte) (vals : List Sym) : Chk :=
  polymod (expand h ++ vals ++ zeros Config.checksumSymbols) ^^^ target v

/-- `polymod(expand(h) ++ vals)`: the residue of a payload that ends in its checksum (R171, R186). -/
def residueOf (h : List Byte) (vals : List Sym) : Chk := polymod (expand h ++ vals)

/-- CK_CREATE (R170). -/
def execCkCreate (v : Variant) (s : State) : Host.Outcome State Fault Refusal :=
  if s.slen.toNat + Config.checksumSymbols > Config.cap then raise .capacity s
  else
    let c := checksumOf v s.hrpText s.symbols
    finish ((appendChecksum c s).setChk c)

/-- CK_VERIFY (R171): on a mismatch CHK keeps its value. -/
def execCkVerify (v : Variant) (s : State) : Host.Outcome State Fault Refusal :=
  let c := residueOf s.hrpText s.symbols
  if c ≠ target v then raise .checksumMismatch s else finish (s.setChk c)

end Sys2Proof.Machine
end

