-- ==== Sys2Proof/Machine/StringCodec.lean ====
section
/-! DEFINITION. The Bech32 string codec BC_ENCODE and BC_DECODE (spec/44_codec.md R185, R186). -/

namespace Sys2Proof.Machine

/-- The string of BC_ENCODE for a folded HRP, a payload and its checksum (R185). -/
def renderString (h : List Byte) (vals : List Sym) (c : Chk) : List Byte :=
  h ++ [separator] ++ vals.map alpha ++ (slice6 c).map alpha

/-- BC_ENCODE (R185): the HRP is folded to lower case in place, SYM and SLEN keep their values. -/
def execBcEncode (v : Variant) (s : State) : Host.Outcome State Fault Refusal :=
  let len := s.hlen.toNat + 1 + s.slen.toNat + Config.checksumSymbols
  if len > Config.cap then raise .capacity s
  else
    let h := s.hrpText.map lower
    let c := checksumOf v h s.symbols
    finish ((((s.setHrp (Buffer.writeList s.mem.hrp 0 h)).setTxt
      (Buffer.writeList s.mem.txt 0 (renderString h s.symbols c))).setTlen (BitVec.ofNat 8 len)).setChk c)

/-- The largest k with s[k] = `1` (R186: the LAST `1` is the separator). -/
def lastSeparator : List Byte → Option Nat
  | [] => none
  | ch :: rest =>
    match lastSeparator rest with
    | some k => some (k + 1)
    | none => if ch = separator then some 0 else none

/-- `rev` of every character, or `none` if one of them is NONE. -/
def revAll : List Byte → Option (List Sym)
  | [] => some []
  | ch :: rest =>
    match rev ch, revAll rest with
    | some i, some is => some (i :: is)
    | _, _ => none

/-- Both a lower-case and an upper-case letter stand in the string (R186). -/
def mixedCase (s : List Byte) : Bool := s.any isLower && s.any isUpper

/-- What BC_DECODE computes from the string, its checks in R186's order: the folded HRP and the data symbols with
the checksum, or the code of the first check that fails. -/
def parseString (v : Variant) (s : List Byte) : Except StatusCode (List Byte × List Sym) :=
  if s.any (fun ch => !printable ch) then .error .nonPrintableCharacter
  else if mixedCase s then .error .mixedCase
  else if s.length > Config.maxString then .error .oversizedInput
  else
    match lastSeparator s with
    | none => .error .noSeparator
    | some pos =>
      if pos = 0 then .error .undersizedHrp
      else if s.length - pos - 1 < Config.checksumSymbols then .error .shortChecksum
      else
        match revAll (s.drop (pos + 1)) with
        | none => .error .invalidCharacter
        | some vals =>
          let h := (s.take pos).map lower
          if residueOf h vals ≠ target v then .error .checksumMismatch else .ok (h, vals)

/-- BC_DECODE (R186): SYM receives the payload and its checksum, SLEN counts the payload only (R28). -/
def execBcDecode (v : Variant) (s : State) : Host.Outcome State Fault Refusal :=
  match parseString v s.txtText with
  | .error c => raise c s
  | .ok (h, vals) =>
    finish (((((s.setHrp (Buffer.writeList s.mem.hrp 0 h)).setHlen (BitVec.ofNat 8 h.length)).setSym
      (Buffer.writeList s.mem.sym 0 vals)).setSlen
      (BitVec.ofNat 8 (vals.length - Config.checksumSymbols))).setChk (target v))

end Sys2Proof.Machine
end

