-- ==== Sys2Proof/Machine/Dispatch.lean ====
section
/-! DEFINITION. What each command does: one arm per constructor of Instr, each a direct call of its meaning. -/

namespace Sys2Proof.Machine

def exec (i : Instr) (s : State) : Host.Outcome State Fault Refusal :=
  match i with
  | .nop => Sys2Proof.Machine.execNop s
  | .softReset => Sys2Proof.Machine.execSoftReset s
  | .pmInit => Sys2Proof.Machine.execPmInit s
  | .pmStep imm5 => Sys2Proof.Machine.execPmStep imm5 s
  | .pmHrp => Sys2Proof.Machine.execPmHrp s
  | .pmSyms start len => Sys2Proof.Machine.execPmSyms start len s
  | .pmZeros cnt => Sys2Proof.Machine.execPmZeros cnt s
  | .pmXorm v => Sys2Proof.Machine.execPmXorm v s
  | .pmCmpm v => Sys2Proof.Machine.execPmCmpm v s
  | .pmEmit => Sys2Proof.Machine.execPmEmit s
  | .ckCreate v => Sys2Proof.Machine.execCkCreate v s
  | .ckVerify v => Sys2Proof.Machine.execCkVerify v s
  | .alEnc => Sys2Proof.Machine.execAlEnc s
  | .alDec => Sys2Proof.Machine.execAlDec s
  | .bcEncode v => Sys2Proof.Machine.execBcEncode v s
  | .bcDecode v => Sys2Proof.Machine.execBcDecode v s
  | .agClear => Sys2Proof.Machine.execAgClear s
  | .agAppendL n => Sys2Proof.Machine.execAgAppendL n s
  | .agAppendM n => Sys2Proof.Machine.execAgAppendM n s
  | .enStart => Sys2Proof.Machine.execEnStart s
  | .enNextL n => Sys2Proof.Machine.execEnNextL n s
  | .enNextM n => Sys2Proof.Machine.execEnNextM n s
  | .cvConvert d pad src dst => Sys2Proof.Machine.execCvConvert d pad src dst s

end Sys2Proof.Machine
end

