-- ==== Sys2Proof/Machine/Port.lean ====
section
/-! DEFINITION. The host port (spec/20_memory.md R60 to R67): the address map, reads, writes and the command
trigger CMD. -/

namespace Sys2Proof.Machine

/-! ## Address map (R62) -/

/-- The byte address of a register. -/
def Reg.addr : Reg → PortAddr
  | .id => 0x0000#13
  | .cmd => 0x0004#13
  | .status => 0x0008#13
  | .arg => 0x000C#13
  | .res => 0x0010#13
  | .chk => 0x0014#13
  | .tlen => 0x0018#13
  | .hlen => 0x001C#13
  | .slen => 0x0020#13
  | .blen => 0x0024#13
  | .wcur => 0x0028#13
  | .rcur => 0x002C#13

/-- The base of a buffer's window. -/
def BufName.base : BufName → Nat
  | .txt => 0x0400
  | .hrp => 0x0800
  | .sym => 0x0C00
  | .byt => 0x1000

/-- The byte address of a location: cell i of a window based at B is at B + 4*i (R61). -/
def Loc.addr : Loc → PortAddr
  | .reg r => r.addr
  | .cell b i => BitVec.ofNat 13 (b.base + 4 * i)

/-- The register whose word index is `n`, if there is one. -/
def regAt : Nat → Option Reg
  | 0 => some .id
  | 1 => some .cmd
  | 2 => some .status
  | 3 => some .arg
  | 4 => some .res
  | 5 => some .chk
  | 6 => some .tlen
  | 7 => some .hlen
  | 8 => some .slen
  | 9 => some .blen
  | 10 => some .wcur
  | 11 => some .rcur
  | _ => none

/-- What stands at an aligned address; `none` in the two reserved ranges. -/
def locate (a : PortAddr) : Option Loc :=
  if a.toNat < 0x0400 then (regAt (a.toNat / 4)).map .reg
  else if a.toNat < 0x0800 then some (.cell .txt ((a.toNat - 0x0400) / 4))
  else if a.toNat < 0x0C00 then some (.cell .hrp ((a.toNat - 0x0800) / 4))
  else if a.toNat < 0x1000 then some (.cell .sym ((a.toNat - 0x0C00) / 4))
  else if a.toNat < 0x1400 then some (.cell .byt ((a.toNat - 0x1000) / 4))
  else none

/-! ## Reads (R63: no read has a side effect) -/

/-- A register as the port shows it: zero-extended; CMD reads 0 and ID is a constant (R33, R34, R62). -/
def readReg (s : State) : Reg → Word
  | .id => idConstant
  | .cmd => 0#32
  | .status => s.status.setWidth 32
  | .arg => s.arg
  | .res => s.res
  | .chk => s.chk.setWidth 32
  | .tlen => s.tlen.setWidth 32
  | .hlen => s.hlen.setWidth 32
  | .slen => s.slen.setWidth 32
  | .blen => s.blen.setWidth 32
  | .wcur => s.wcur.setWidth 32
  | .rcur => s.rcur.setWidth 32

/-- A port read of an aligned address; reserved locations read as zero (R63). -/
def portRead (a : PortAddr) (s : State) : Word :=
  match locate a with
  | some (.reg r) => readReg s r
  | some (.cell b i) => s.mem.readCell b i
  | none => 0#32

/-! ## Writes -/

/-- Execute a command word (R34, R91): an undecodable word raises ILLEGAL_COMMAND (R122). -/
def executeCommand (w : Word) (s : State) : Host.Outcome State Fault Refusal :=
  match decode w with
  | .ok i => exec i s
  | .error _ => illegalCommand s

/-- A port write to a register: a write to CMD executes the word, a writable register keeps the bits of its width,
a read-only register ignores the write (R62, R63, R64). -/
def writeReg (r : Reg) (d : Word) (s : State) : Host.Outcome State Fault Refusal :=
  match r with
  | .cmd => executeCommand d s
  | .arg => .next (s.setArg d)
  | .chk => .next (s.setChk (d.setWidth 30))
  | .tlen => .next (s.setTlen (d.setWidth 8))
  | .hlen => .next (s.setHlen (d.setWidth 8))
  | .slen => .next (s.setSlen (d.setWidth 8))
  | .blen => .next (s.setBlen (d.setWidth 8))
  | .id | .status | .res | .wcur | .rcur => .next s

/-- A port write to an aligned address; reserved locations ignore it (R63). -/
def portWrite (a : PortAddr) (d : Word) (s : State) : Host.Outcome State Fault Refusal :=
  match locate a with
  | some (.reg r) => writeReg r d s
  | some (.cell b i) => .next (s.setMem (s.mem.writeCell b i d))
  | none => .next s

/-! ## Accesses -/

/-- Why an access is no access of this engine (R66): its width, then its alignment. -/
def accessRefusal (width : Nat) (a : PortAddr) : Option Refusal :=
  if width ≠ 32 then some .accessWidth
  else if a.toNat % 4 ≠ 0 then some .misaligned
  else none

/-- One host port access: the value it returns (0 for a write) and the state after it (R66, R67, R72). -/
def accessPort (acc : Access) (s : State) : Host.Outcome (Word × State) Fault Refusal :=
  match acc with
  | .read width a =>
    match accessRefusal width a with
    | some r => .refused r
    | none => .next (portRead a s, s)
  | .write width a d =>
    match accessRefusal width a with
    | some r => .refused r
    | none =>
      match portWrite a d s with
      | .next t => .next (0#32, t)
      | .fault f => .fault f
      | .refused r => .refused r

end Sys2Proof.Machine
end

