-- ==== Sys2Proof/Machine/HostProgram.lean ====
section
/-! DEFINITION. Host software as a program of port accesses (spec/30_encoding.md R103, R104; spec/46_host_procedures.md,
its notation). A program either ends or makes one access and goes on with what it learned from it, so an ordinary
host's control flow is Lean's own. -/

namespace Sys2Proof.Machine

/-- A host program from where it stands. -/
inductive Prog where
  /-- It has ended with an outcome. -/
  | done (o : ProcOutcome)
  /-- It has no meaning from here (R266 "Refused"). -/
  | refuse (r : Refusal)
  /-- It has reached an `unreachable` step (R212). -/
  | fault (f : Fault)
  /-- It reads a port word and goes on with the value. -/
  | rd (a : PortAddr) (k : Word → Prog)
  /-- It writes a port word and goes on. -/
  | wr (a : PortAddr) (d : Word) (k : Prog)

/-! ## The notation of R103 and R104 -/

/-- `WR <loc>, d`; a cell number above 255 spells no location (R103). -/
def writeLoc (l : Loc) (d : Word) (k : Prog) : Prog :=
  match l with
  | .reg r => .wr r.addr d k
  | .cell b i => if i < Config.memCells then .wr (Loc.cell b i).addr d k else .refuse .noSuchCell

/-- `RD <loc>`. -/
def readLoc (l : Loc) (k : Word → Prog) : Prog :=
  match l with
  | .reg r => .rd r.addr k
  | .cell b i => if i < Config.memCells then .rd (Loc.cell b i).addr k else .refuse .noSuchCell

/-- `CMD <mnemonic> <operands>`: write the command word to CMD. An operand that does not fit its field spells no
command. -/
def command (i : Instr) (k : Prog) : Prog :=
  if i.wf then .wr Reg.cmd.addr (encode i) k else .refuse .operandRange

/-- `WR BUF[i], v0`; `WR BUF[i+1], v1`; ... -/
def writeCells (b : BufName) (i : Nat) (vs : List Word) (k : Prog) : Prog :=
  match vs with
  | [] => k
  | v :: rest => writeLoc (.cell b i) v (writeCells b (i + 1) rest k)

/-- `RD BUF[i]`; ... `n` cells, going on with the list of values. -/
def readCells (b : BufName) (i : Nat) : Nat → (List Word → Prog) → Prog
  | 0, k => k []
  | n + 1, k => readLoc (.cell b i) fun v => readCells b (i + 1) n fun vs => k (v :: vs)

/-- A length as the 32-bit value of a `WR`. -/
def lengthWord {α : Type} (l : List α) : Word := BitVec.ofNat 32 l.length

/-- `LDTXT "<s>"` (R104). -/
def ldTxt (s : List Byte) (k : Prog) : Prog :=
  writeCells .txt 0 (s.map (·.setWidth 32)) (.wr Reg.tlen.addr (lengthWord s) k)

/-- `LDHRP "<s>"` (R104). -/
def ldHrp (s : List Byte) (k : Prog) : Prog :=
  writeCells .hrp 0 (s.map (·.setWidth 32)) (.wr Reg.hlen.addr (lengthWord s) k)

/-- `LDSYM [v0, ...]` (R104). -/
def ldSym (vs : List Word) (k : Prog) : Prog := writeCells .sym 0 vs (.wr Reg.slen.addr (lengthWord vs) k)

/-- `LDBYT [b0, ...]` (R104). -/
def ldByt (bs : List Word) (k : Prog) : Prog := writeCells .byt 0 bs (.wr Reg.blen.addr (lengthWord bs) k)

/-- `APPEND_L n, x` (R104). -/
def appendL (n : Nat) (x : Word) (k : Prog) : Prog := .wr Reg.arg.addr x (command (.agAppendL n) k)

/-- `APPEND_M n, x` (R104). -/
def appendM (n : Nat) (x : Word) (k : Prog) : Prog := .wr Reg.arg.addr x (command (.agAppendM n) k)

/-- `NEXT_L n` (R104): the command, then `RD RES`. -/
def nextL (n : Nat) (k : Word → Prog) : Prog := command (.enNextL n) (.rd Reg.res.addr k)

/-- `NEXT_M n` (R104). -/
def nextM (n : Nat) (k : Word → Prog) : Prog := command (.enNextM n) (.rd Reg.res.addr k)

/-- `CHECK` (R104): read STATUS, and go on with `bad code` unless it is 0x00. -/
def checkStatus (bad : Byte → Prog) (k : Prog) : Prog :=
  .rd Reg.status.addr fun st => if st = 0#32 then k else bad (st.setWidth 8)

/-- `CHECK` where a code ends the procedure with that code. -/
def check (k : Prog) : Prog := checkStatus (fun c => .done (.engineCode c)) k

/-- The program of one host-program line and of the lines after it (R103, R104). -/
def lineProg (l : Line) (k : Prog) : Prog :=
  match l with
  | .wr loc v => writeLoc loc v k
  | .rd loc _ => readLoc loc fun _ => k
  | .cmd i => command i k
  | .ldTxt s => ldTxt s k
  | .ldHrp s => ldHrp s k
  | .ldSym vs => ldSym vs k
  | .ldByt bs => ldByt bs k
  | .appendL n x => appendL n x k
  | .appendM n x => appendM n x k
  | .nextL n => nextL n fun _ => k
  | .nextM n => nextM n fun _ => k
  | .check => check k

/-- A host program, line by line (R103). -/
def linesProg : List Line → Prog
  | [] => .done .programEnded
  | l :: ls => lineProg l (linesProg ls)

/-! ## Running a program -/

/-- The whole run of a program (R289), one access after another with none of another host's between them (R285):
the outcome and the state after its last access. -/
def Prog.run : Prog → State → Host.Outcome (ProcOutcome × State) Fault Refusal
  | .done o, s => .next (o, s)
  | .refuse r, _ => .refused r
  | .fault f, _ => .fault f
  | .rd a k, s =>
    match accessPort (.read 32 a) s with
    | .next (v, t) => Prog.run (k v) t
    | .fault f => .fault f
    | .refused r => .refused r
  | .wr a d k, s =>
    match accessPort (.write 32 a d) s with
    | .next (_, t) => Prog.run k t
    | .fault f => .fault f
    | .refused r => .refused r

/-- Where a program stands after its first accesses, given the value each one returned. -/
def Prog.resume : Prog → List Word → Prog
  | .rd _ k, v :: vs => Prog.resume (k v) vs
  | .wr _ _ k, _ :: vs => Prog.resume k vs
  | p, _ => p

end Sys2Proof.Machine
end

