-- ==== Sys2Proof/Machine/Segwit.lean ====
section
/-! DEFINITION. The Segwit address codec as host procedures (spec/46_host_procedures.md R210 to R214). -/

namespace Sys2Proof.Machine

/-- A SegwitAddress value (R210): version 0..16, program of 2..40 bytes, and 20 or 32 bytes for version 0. -/
def segwitValid (version : Nat) (program : List Byte) : Bool :=
  decide (version ≤ 16) && decide (2 ≤ program.length ∧ program.length ≤ 40) &&
  decide (version = 0 → program.length = 20 ∨ program.length = 32)

/-- R211's precondition: a SegwitAddress value whose string fits in 90 characters. -/
def segwitEncodable (hrp : List Byte) (version : Nat) (program : List Byte) : Bool :=
  segwitValid version program &&
  decide (hrp.length + 1 + 1 + (8 * program.length + 4) / 5 + 6 ≤ Config.maxString)

/-- `segwit_decode(hrp, s)` (R213), going on with its outcome. -/
def segwitDecodeThen (hrp s : List Byte) (k : ProcOutcome → Prog) : Prog :=
  ldTxt s <| command (.bcDecode .classic) <| checkStatus (fun c => k (.engineCode c)) <|
  .rd Reg.hlen.addr fun hlen => readCells .hrp 0 hlen.toNat fun h =>
  if h ≠ hrp.map (·.setWidth 32) then k (.hostError .hrpMismatch) else
  .rd Reg.slen.addr fun slen =>
  if slen.toNat < 1 then k (.hostError .checksumSizeTooLow) else
  readLoc (.cell .sym 0) fun version =>
  if version.toNat > 16 then k (.hostError .segwitVersionNotSupported) else
  command (.cvConvert .to8 false 1 0) <| .rd Reg.status.addr fun st =>
  if st = StatusCode.bitsConversionFailed.code.setWidth 32 then k (.hostError .bitsConversionFailed) else
  .rd Reg.blen.addr fun blen => readCells .byt 0 blen.toNat fun bytes =>
  if blen.toNat < 2 ∨ blen.toNat > 40 then k (.hostError .dataSizeMismatch) else
  if version.toNat = 0 ∧ blen.toNat ≠ 20 ∧ blen.toNat ≠ 32 then k (.hostError .segwitV0ProgramSizeMismatch) else
  k (.segwitAddress version.toNat (bytes.map (·.setWidth 8)))

/-- `segwit_decode(hrp, s)` (R213). -/
def segwitDecode (hrp s : List Byte) : Prog := segwitDecodeThen hrp s .done

/-- `segwit_encode(hrp, version, program)` (R211), with its self-verify (R212). -/
def segwitEncode (hrp : List Byte) (version : Nat) (program : List Byte) : Prog :=
  if segwitEncodable hrp version program = false then .refuse .segwitPrecondition else
  ldByt (program.map (·.setWidth 32)) <| writeLoc (.cell .sym 0) (BitVec.ofNat 32 version) <|
  command (.cvConvert .to5 true 0 1) <| check <|
  ldHrp hrp <| command (.bcEncode .classic) <| check <|
  .rd Reg.tlen.addr fun tlen => readCells .txt 0 tlen.toNat fun text =>
  let result : List Byte := text.map (·.setWidth 8)
  segwitDecodeThen hrp result fun r =>
  if r ≠ .segwitAddress version program then .fault .segwitSelfVerify else .done (.segwitString result)

end Sys2Proof.Machine
end

