-- ==== Sys2Proof/Machine/TxRefCodec.lean ====
section
/-! DEFINITION. The TxRef codec as host procedures (spec/46_host_procedures.md R220 to R229). Character codes are
ASCII (spec/00_scope.md R16). -/

namespace Sys2Proof.Machine

/-- The ranges a host constructs a TxRef value with (R226). -/
def TxRef.inRange (t : TxRef) : Bool :=
  decide (t.blockHeight < 2 ^ 24) && decide (t.txIndex < 2 ^ 15) && decide (t.outIndex < 2 ^ 15)

/-- The magic code of a network, without or with an outpoint (R221). -/
def magicOf : Network → Bool → Nat
  | .mainnet, false => 3
  | .mainnet, true => 4
  | .testnet, false => 6
  | .testnet, true => 7

/-- What a magic code stands for: its network and whether an outpoint is present; `none` if unknown (R221). -/
def magicMeaning : Nat → Option (Network × Bool)
  | 3 => some (.mainnet, false)
  | 4 => some (.mainnet, true)
  | 6 => some (.testnet, false)
  | 7 => some (.testnet, true)
  | _ => none

/-- The payload width in symbols, without or with an outpoint (R221). -/
def payloadWidth (outpoint : Bool) : Nat := if outpoint then 12 else 9

/-- The HRP of a network (R222): "tx" or "txtest". -/
def Network.hrp : Network → List Byte
  | .mainnet => [0x74#8, 0x78#8]
  | .testnet => [0x74#8, 0x78#8, 0x74#8, 0x65#8, 0x73#8, 0x74#8]

/-- Groups of four from the left, the last may be shorter (R225). `cur` is the group being filled. -/
def groupsOfFour (cur : List Byte) : List Byte → List (List Byte)
  | [] => if cur.isEmpty then [] else [cur]
  | ch :: rest =>
    if cur.length = 4 then cur :: groupsOfFour [ch] rest else groupsOfFour (cur ++ [ch]) rest

/-- `format(hrp, s)` (R225): `<hrp>1:<g1>-<g2>-...`. -/
def formatTxRef (hrp s : List Byte) : List Byte :=
  hrp ++ [0x31#8, 0x3A#8] ++ [0x2D#8].intercalate (groupsOfFour [] (s.drop (hrp.length + 1)))

/-- `txref_encode(t, V)` (R223, R224); a field out of range is refused (R226). -/
def txrefEncode (t : TxRef) (v : Variant) : Prog :=
  if t.inRange = false then .refuse .txrefRange else
  let outpoint := decide (t.outIndex ≠ 0)
  let hrp := t.network.hrp
  let encodeString : Prog :=
    ldHrp hrp <| command (.bcEncode v) <| check <|
    .rd Reg.tlen.addr fun tlen => readCells .txt 0 tlen.toNat fun text =>
    .done (.txrefString (formatTxRef hrp (text.map (·.setWidth 8))))
  command .agClear <|
  appendL 5 (BitVec.ofNat 32 (magicOf t.network outpoint)) <|
  appendL 1 0#32 <|
  appendL 24 (BitVec.ofNat 32 t.blockHeight) <|
  appendL 15 (BitVec.ofNat 32 t.txIndex) <|
  if outpoint then appendL 15 (BitVec.ofNat 32 t.outIndex) encodeString else encodeString

/-- The network whose HRP and `1` a lower-case string starts with (R227): "tx1" is tried before "txtest1". -/
def txrefNetwork (s : List Byte) : Option Network :=
  if (Network.mainnet.hrp ++ [separator]).isPrefixOf s then some .mainnet
  else if (Network.testnet.hrp ++ [separator]).isPrefixOf s then some .testnet
  else none

/-- The TXT that txref_decode loads: the HRP, `1`, and every later character of the alphabet (R227, R228). -/
def txrefText (n : Network) (s : List Byte) : List Byte :=
  n.hrp ++ [separator] ++ (s.drop (n.hrp.length + 1)).filter alphabet.contains

/-- The fields after the magic code (R223, R227). -/
def txrefFields (n : Network) (outpoint : Bool) : Prog :=
  nextL 1 fun version =>
  if version.toNat ≠ 0 then .done (.hostError .unknownVersion) else
  nextL 24 fun blockHeight => nextL 15 fun txIndex =>
  if outpoint then
    nextL 15 fun outIndex =>
    if outIndex.toNat = 0 then .done (.hostError .zeroOutIndex)
    else .done (.txref ⟨n, blockHeight.toNat, txIndex.toNat, outIndex.toNat⟩)
  else .done (.txref ⟨n, blockHeight.toNat, txIndex.toNat, 0⟩)

/-- `txref_decode(s, V)` (R227): the validations run in the source's order. -/
def txrefDecode (text : List Byte) (v : Variant) : Prog :=
  let s := text.map lower
  match txrefNetwork s with
  | none => .done (.hostError .unknownHumanReadablePart)
  | some hrpNet =>
    ldTxt (txrefText hrpNet s) <| command (.bcDecode v) <| check <|
    .rd Reg.slen.addr fun slen =>
    if slen.toNat ≠ 9 ∧ slen.toNat ≠ 12 then .done (.hostError .invalidLength) else
    command .enStart <| nextL 5 fun magic =>
    match magicMeaning magic.toNat with
    | none => .done (.hostError .unknownMagicCode)
    | some (net, outpoint) =>
      if slen.toNat ≠ payloadWidth outpoint then .done (.hostError .invalidLength) else
      if net ≠ hrpNet then .done (.hostError .chainMismatch) else
      txrefFields net outpoint

end Sys2Proof.Machine
end

