-- ==== Sys2Proof/Machine/HostRun.lean ====
section
/-! DEFINITION. The host agent's events (spec/00_scope.md R19): a port access, a hardware reset, the start of a host
procedure and its next access. Each is one step; none overlaps another (spec/20_memory.md R71, R72). -/

namespace Sys2Proof.Machine

/-! ## The host's own bookkeeping -/

/-- The host side with its events still to come replaced. -/
def State.setSchedule (s : State) (es : List HostEvent) : State := s.setHost { s.host with schedule := es }

/-- The host side with the procedure under way replaced. -/
def State.setRunning (s : State) (r : Option ProcRun) : State := s.setHost { s.host with running := r }

/-- A read's value joins the observation (R289). -/
def State.observe (s : State) (v : Word) : State := s.setHost { s.host with reads := s.host.reads ++ [v] }

/-- A procedure ends: its outcome joins the observation (R289). -/
def State.conclude (s : State) (o : ProcOutcome) : State :=
  s.setHost { s.host with running := none, outcomes := s.host.outcomes ++ [o] }

/-! ## Events -/

/-- Hardware reset (R280): the reset state, as a new run (R289); the events still to come stay. -/
def hardwareReset (s : State) : State := State.reset.setSchedule s.host.schedule

/-- A port access, with the value of a read observed (R289). -/
def hostAccess (acc : Access) (s : State) : Host.Outcome (Word × State) Fault Refusal :=
  match accessPort acc s with
  | .next (v, t) =>
    match acc with
    | .read _ _ => .next (v, t.observe v)
    | .write _ _ _ => .next (v, t)
  | .fault f => .fault f
  | .refused r => .refused r

/-- The program of a procedure (R103, R210 to R229). -/
def Procedure.prog : Procedure → Prog
  | .segwitEncode hrp ver bytes => Sys2Proof.Machine.segwitEncode hrp ver bytes
  | .segwitDecode hrp s => Sys2Proof.Machine.segwitDecode hrp s
  | .txrefEncode t v => Sys2Proof.Machine.txrefEncode t v
  | .txrefDecode s v => Sys2Proof.Machine.txrefDecode s v
  | .program lines => linesProg lines

/-- Where the host stands once a procedure has made the accesses `answers` records: it has ended, it has no meaning,
it has reached `unreachable`, or it is under way. -/
def settleProcedure (call : Procedure) (answers : List Word) (s : State) : Host.Outcome State Fault Refusal :=
  match call.prog.resume answers with
  | .done o => .next (s.conclude o)
  | .refuse r => .refused r
  | .fault f => .fault f
  | .rd _ _ => .next (s.setRunning (some ⟨call, answers⟩))
  | .wr _ _ _ => .next (s.setRunning (some ⟨call, answers⟩))

/-- The next access of a program, if it makes one. -/
def Prog.nextAccess : Prog → Option Access
  | .rd a _ => some (.read 32 a)
  | .wr a d _ => some (.write 32 a d)
  | .done _ | .refuse _ | .fault _ => none

/-- The next access of the procedure under way. -/
def proceedProcedure (r : ProcRun) (s : State) : Host.Outcome State Fault Refusal :=
  match (r.call.prog.resume r.answers).nextAccess with
  | none => settleProcedure r.call r.answers s
  | some acc =>
    match hostAccess acc s with
    | .next (v, t) => settleProcedure r.call (r.answers ++ [v]) t
    | .fault f => .fault f
    | .refused x => .refused x

/-- One event of the host. A plain access or a call while a procedure is under way would interleave two host
procedures, which has no move (R285); a reset ends it (R289). -/
def hostEvent (e : HostEvent) (s : State) : Host.Outcome State Fault Refusal :=
  match e with
  | .reset => .next (hardwareReset s)
  | .access acc =>
    match s.host.running with
    | some _ => .refused .interleaved
    | none =>
      match hostAccess acc s with
      | .next (_, t) => .next t
      | .fault f => .fault f
      | .refused r => .refused r
  | .call p =>
    match s.host.running with
    | some _ => .refused .interleaved
    | none => settleProcedure p [] s
  | .proceed =>
    match s.host.running with
    | none => .next s
    | some r => proceedProcedure r s

/-- The schedule with a command word to be written to CMD next (R34). -/
def State.withCommandNext (s : State) (w : Word) : State :=
  (s.setRunning none).setSchedule (.access (.write 32 Reg.cmd.addr w) :: s.host.schedule)

end Sys2Proof.Machine
end

