-- ==== Sys2Proof/Machine/Step.lean ====
section
/-! DEFINITION. One step of the machine: the host's next event, taken from the schedule (spec/00_scope.md R19). The
engine has no program counter and fetches no instructions (spec/10_state.md R21): its instructions are the words
the host writes to CMD. -/

namespace Sys2Proof.Machine

/-- One step: the first event of the schedule; with none, the engine is idle and nothing changes (R281, R289). -/
def step (s : State) : Host.Outcome State Fault Refusal :=
  match s.host.schedule with
  | [] => .next s
  | e :: rest => hostEvent e (s.setSchedule rest)

/-- `s` with the command word `w` (of `nbits` bits, the bits above them 0) as the host's next access: a write of
`w` to CMD, by a host that has no procedure under way. -/
def State.withFetchWord (s : State) (nbits w : Nat) : State :=
  s.withCommandNext (BitVec.ofNat 32 (w % 2 ^ nbits))

end Sys2Proof.Machine
end

