-- ==== Sys2Proof/Machine/Assembler.lean ====
section
/-! DEFINITION. The text of host programs (spec/30_encoding.md R103, R104): one port access or pseudo-instruction a
line. `assembleLine` reads one line; a line that spells nothing of R103 or R104 is `none`. -/

namespace Sys2Proof.Machine

/-! ## Tokens -/

/-- The pieces of a line. -/
inductive Token where
  /-- A name or a number. -/
  | word (s : List Char)
  /-- A quoted string, without its quotes. -/
  | quoted (s : List Char)
  | comma
  | leftBracket
  | rightBracket
  | arrow
deriving DecidableEq, Repr

/-- The double quote (code 0x22). -/
def isQuote (c : Char) : Bool := c.toNat == 0x22

/-- The word read so far, its characters in reverse, as tokens. -/
def wordSoFar (acc : List Char) : List Token := if acc.isEmpty then [] else [.word acc.reverse]

/-- Cut a line into tokens. `inQuotes` says whether a quoted string is open; `acc` is the word or string being read,
in reverse. Spaces part words; a string left open spells nothing. -/
def tokens (inQuotes : Bool) (acc : List Char) : List Char → Option (List Token)
  | [] => if inQuotes then none else some (wordSoFar acc)
  | c :: cs =>
    if inQuotes then
      if isQuote c then (tokens false [] cs).map (.quoted acc.reverse :: ·) else tokens true (c :: acc) cs
    else if isQuote c then (tokens true [] cs).map (wordSoFar acc ++ ·)
    else if c = ' ' then (tokens false [] cs).map (wordSoFar acc ++ ·)
    else if c = ',' then (tokens false [] cs).map (wordSoFar acc ++ .comma :: ·)
    else if c = '[' then (tokens false [] cs).map (wordSoFar acc ++ .leftBracket :: ·)
    else if c = ']' then (tokens false [] cs).map (wordSoFar acc ++ .rightBracket :: ·)
    else if c = '>' ∧ acc = ['-'] then (tokens false [] cs).map (.arrow :: ·)
    else tokens false (c :: acc) cs

/-! ## Numbers, names and locations -/

/-- A digit's value, hexadecimal letters in either case. -/
def digitValue (c : Char) : Option Nat :=
  if '0' ≤ c ∧ c ≤ '9' then some (c.toNat - 48)
  else if 'a' ≤ c ∧ c ≤ 'f' then some (c.toNat - 87)
  else if 'A' ≤ c ∧ c ≤ 'F' then some (c.toNat - 55)
  else none

/-- The number a run of digits in a base spells, from the value of the digits before it. -/
def digits (base : Nat) (value : Nat) : List Char → Option Nat
  | [] => some value
  | c :: cs =>
    match digitValue c with
    | some d => if d < base then digits base (value * base + d) cs else none
    | none => none

/-- A decimal number, or a hexadecimal one with `0x` (R103). -/
def number : List Char → Option Nat
  | [] => none
  | '0' :: 'x' :: c :: cs => digits 16 0 (c :: cs)
  | c :: cs => digits 10 0 (c :: cs)

/-- What a name stands for in a table of names. -/
def lookupName {α : Type} (table : List (String × α)) (name : List Char) : Option α :=
  match table with
  | [] => none
  | (n, a) :: rest => if n.toList = name then some a else lookupName rest name

/-- The register names of R62. -/
def registerNames : List (String × Reg) :=
  [("ID", .id), ("CMD", .cmd), ("STATUS", .status), ("ARG", .arg), ("RES", .res), ("CHK", .chk), ("TLEN", .tlen),
   ("HLEN", .hlen), ("SLEN", .slen), ("BLEN", .blen), ("WCUR", .wcur), ("RCUR", .rcur)]

/-- The buffer names of R36. -/
def bufferNames : List (String × BufName) := [("TXT", .txt), ("HRP", .hrp), ("SYM", .sym), ("BYT", .byt)]

/-- The mnemonics of R100. -/
def mnemonicNames : List (String × Opcode) :=
  [("NOP", .nop), ("SOFT_RESET", .softReset), ("PM_INIT", .pmInit), ("PM_STEP", .pmStep), ("PM_HRP", .pmHrp),
   ("PM_SYMS", .pmSyms), ("PM_ZEROS", .pmZeros), ("PM_XORM", .pmXorm), ("PM_CMPM", .pmCmpm), ("PM_EMIT", .pmEmit)] ++
  [("CK_CREATE", .ckCreate), ("CK_VERIFY", .ckVerify), ("AL_ENC", .alEnc), ("AL_DEC", .alDec),
   ("BC_ENCODE", .bcEncode), ("BC_DECODE", .bcDecode), ("AG_CLEAR", .agClear), ("AG_APPEND_L", .agAppendL),
   ("AG_APPEND_M", .agAppendM), ("EN_START", .enStart), ("EN_NEXT_L", .enNextL), ("EN_NEXT_M", .enNextM),
   ("CV_CONVERT", .cvConvert)]

/-- The value of a `WR`: 32 bits (R103). -/
def wordValue (w : List Char) : Option Word :=
  match number w with
  | some n => if n < 2 ^ 32 then some (BitVec.ofNat 32 n) else none
  | none => none

/-- A location and the tokens after it (R103). -/
def location : List Token → Option (Loc × List Token)
  | .word b :: .leftBracket :: .word i :: .rightBracket :: rest =>
    match lookupName bufferNames b, number i with
    | some buf, some n => if n < 256 then some (.cell buf n, rest) else none
    | _, _ => none
  | .word r :: rest => (lookupName registerNames r).map fun reg => (.reg reg, rest)
  | _ => none

/-! ## Operands -/

/-- Words parted by commas. -/
def commaWords : List Token → Option (List (List Char))
  | [.word w] => some [w]
  | .word w :: .comma :: rest => (commaWords rest).map (w :: ·)
  | _ => none

/-- No words, or words parted by commas. -/
def operandWords : List Token → Option (List (List Char))
  | [] => some []
  | ts => commaWords ts

/-- A field's value: an alias or a number, below `bound` (R103). -/
def fieldValue (aliases : List (String × Nat)) (bound : Nat) (w : List Char) : Option Nat :=
  match lookupName aliases w with
  | some n => some n
  | none =>
    match number w with
    | some n => if n < bound then some n else none
    | none => none

/-- W[23:0] of a command from its operands in the order of R103. -/
def operandField (f : Format) (ws : List (List Char)) : Option Nat :=
  match f, ws with
  | .n, [] => some 0
  | .v, [v] => fieldValue [("classic", 0), ("bis", 1)] 2 v
  | .i5, [x] => fieldValue [] 32 x
  | .i8, [x] => fieldValue [] 256 x
  | .r, [start, len] =>
    match fieldValue [] 256 start, fieldValue [] 256 len with
    | some a, some b => some (a + 256 * b)
    | _, _ => none
  | .b, [n] => fieldValue [] 32 n
  | .c, [d, p, s, t] =>
    match fieldValue [("8to5", 0), ("5to8", 1)] 2 d, fieldValue [("pad", 1), ("nopad", 0)] 2 p,
      fieldValue [] 256 s, fieldValue [] 256 t with
    | some a, some b, some c, some e => some (a + 2 * b + 256 * c + 65536 * e)
    | _, _, _, _ => none
  | _, _ => none

/-- The codes of a quoted string's characters (R16: 8-bit codes). The spec gives ASCII codes only: that a character
above 0x7F stands for its Unicode code point where that is below 256, and that any other makes the line `none`, is the
model's choice (log entry 25, DESIGN CHOICE). -/
def characterCodes : List Char → Option (List Byte)
  | [] => some []
  | c :: cs => if c.toNat < 256 then (characterCodes cs).map (BitVec.ofNat 8 c.toNat :: ·) else none

/-- The values of a bracketed list. -/
def wordValues : List (List Char) → Option (List Word)
  | [] => some []
  | w :: ws =>
    match wordValue w, wordValues ws with
    | some v, some vs => some (v :: vs)
    | _, _ => none

/-- `[v0, ..., vk-1]` (R104). -/
def listValues (ts : List Token) : Option (List Word) :=
  match ts with
  | .leftBracket :: rest =>
    match rest.reverse with
    | .rightBracket :: inner =>
      match operandWords inner.reverse with
      | some ws => wordValues ws
      | none => none
    | _ => none
  | _ => none

/-! ## Lines -/

/-- `CMD <mnemonic> <operands>`: the format's assembly of the fields with OP (R103). -/
def assembleCommand (mnemonic : List Char) (operands : List Token) : Option Line :=
  match lookupName mnemonicNames mnemonic, operandWords operands with
  | some op, some ws => (operandField op.format ws).map fun x => .cmd (op.instr (BitVec.ofNat 32 x))
  | _, _ => none

/-- The bit count and value of `APPEND_L n, x` and `APPEND_M n, x` (R104). -/
def appendOperands (ts : List Token) : Option (Nat × Word) :=
  match ts with
  | [.word n, .comma, .word x] =>
    match fieldValue [] 32 n, wordValue x with
    | some a, some b => some (a, b)
    | _, _ => none
  | _ => none

/-- A line from its first word and the tokens after it (R103, R104). -/
def assembleTokens (head : List Char) (rest : List Token) : Option Line :=
  if head = "WR".toList then
    match location rest with
    | some (l, [.comma, .word v]) => (wordValue v).map fun x => .wr l x
    | _ => none
  else if head = "RD".toList then
    match location rest with
    | some (l, []) => some (.rd l none)
    | some (l, [.arrow, .word v]) => (wordValue v).map fun x => .rd l (some x)
    | _ => none
  else if head = "CMD".toList then
    match rest with
    | .word m :: operands => assembleCommand m operands
    | _ => none
  else if head = "LDTXT".toList then
    match rest with
    | [.quoted s] => (characterCodes s).map .ldTxt
    | _ => none
  else if head = "LDHRP".toList then
    match rest with
    | [.quoted s] => (characterCodes s).map .ldHrp
    | _ => none
  else if head = "LDSYM".toList then (listValues rest).map .ldSym
  else if head = "LDBYT".toList then (listValues rest).map .ldByt
  else if head = "APPEND_L".toList then (appendOperands rest).map fun p => .appendL p.1 p.2
  else if head = "APPEND_M".toList then (appendOperands rest).map fun p => .appendM p.1 p.2
  else if head = "NEXT_L".toList then
    match rest with
    | [.word n] => (fieldValue [] 32 n).map .nextL
    | _ => none
  else if head = "NEXT_M".toList then
    match rest with
    | [.word n] => (fieldValue [] 32 n).map .nextM
    | _ => none
  else if head = "CHECK".toList then if rest.isEmpty then some .check else none
  else none

/-- One line of a host program (R103, R104). R103 is silent on comments: a `;` outside a quoted string belongs to no
line, so a line with a `;` comment is `none` (log entry 25, DESIGN CHOICE). -/
def assembleLine (text : List Char) : Option Line :=
  match tokens false [] text with
  | some (.word head :: rest) => assembleTokens head rest
  | _ => none

/-- A host program, one line each (R103). -/
def assemble : List (List Char) → Option (List Line)
  | [] => some []
  | l :: ls =>
    match assembleLine l, assemble ls with
    | some a, some as => some (a :: as)
    | _, _ => none

end Sys2Proof.Machine
end

