-- ==== Sys2Proof/Safety.lean ====
section
/-! DEFINITION. The terms claims are stated in: the machine's invariant, what a command leaves unchanged, the spec's
tables of what each command overwrites (spec/70_reset_and_hazards.md R284) and raises (spec/60_exceptions.md R250), and
the spec's own notations for cell ranges and bit streams, written apart from the meanings that use them. -/

namespace Sys2Proof.Machine

/-! ## The invariant -/

/-- STATUS holds one of the 14 codes of R250. -/
abbrev State.statusLegal (s : State) : Prop := s.status ∈ StatusCode.all.map StatusCode.code

/-- The canonical form of memory, both cursors within CURSOR_MAX (R30, R31), and a STATUS of R250. -/
abbrev Inv (s : State) : Prop :=
  s.mem.wf = true ∧ s.wcur.toNat ≤ Config.cursorMax ∧ s.rcur.toNat ≤ Config.cursorMax ∧ s.statusLegal

/-- A step that does not reach the Segwit self-verify's `unreachable` (R212, R266: the one fault). -/
def safeStep (s : State) : Prop := ∀ f, step s ≠ .fault f

/-! ## Frames -/

/-- Every register but those listed reads through the port as it did. -/
def regsKept (changed : List Reg) (s t : State) : Prop := ∀ r, r ∉ changed → readReg t r = readReg s r

/-- Every cell but those touched reads as it did. -/
def cellsKept (touched : BufName → Nat → Prop) (s t : State) : Prop :=
  ∀ b i, ¬ touched b i → t.mem.readCell b i = s.mem.readCell b i

/-- What a command leaves unchanged: the registers not listed, the cells not touched, and the host side. -/
def frame (changed : List Reg) (touched : BufName → Nat → Prop) (s t : State) : Prop :=
  regsKept changed s t ∧ cellsKept touched s t ∧ t.host = s.host

/-- No cell. -/
def noCells : BufName → Nat → Prop := fun _ _ => False

/-- The cells `b[start..start+len)`. -/
def cellsOf (b : BufName) (start len : Nat) : BufName → Nat → Prop :=
  fun b' i => b' = b ∧ start ≤ i ∧ i < start + len

/-- The cells of either set. -/
def eitherCells (p q : BufName → Nat → Prop) : BufName → Nat → Prop := fun b i => p b i ∨ q b i

/-- The SYM units that hold a stream position from `q` up to but not `q + n` (R130). -/
def unitsOf (q n : Nat) : BufName → Nat → Prop := fun b i => b = .sym ∧ q / 5 ≤ i ∧ i < (q + n + 4) / 5

/-! ## The spec's notations -/

/-- `BUF[start..start+len)` (R12): the list of its cells. -/
def rangeOf {w : Nat} (b : Buffer w) (start len : Nat) : List (BitVec w) :=
  (List.range len).map fun k => Buffer.read b (start + k)

/-- Bit `k` of a byte list read as a big-endian bit stream, each byte from its bit 7 down (R69, R200); 0 past the
end. -/
def bigEndianBit8 (bs : List Byte) (k : Nat) : Bool := (bs.getD (k / 8) 0#8).getLsbD (7 - k % 8)

/-- Bit `k` of a symbol list read as a big-endian bit stream, each symbol from its bit 4 down; 0 past the end. -/
def bigEndianBit5 (vs : List Sym) (k : Nat) : Bool := (vs.getD (k / 5) 0#5).getLsbD (4 - k % 5)

/-- Stream position `q` in LSB-first order: bit p of SYM[u], u = q div 5, p = q mod 5 (R130). -/
def streamL (s : State) (q : Nat) : Bool := (Buffer.read s.mem.sym (q / 5)).getLsbD (q % 5)

/-- Stream position `q` in MSB-first order: bit 4 - p of SYM[u] (R130). -/
def streamM (s : State) (q : Nat) : Bool := (Buffer.read s.mem.sym (q / 5)).getLsbD (4 - q % 5)

/-! ## R284: what each command overwrites on success -/

/-- The registers a command overwrites, STATUS among them. AG_APPEND's row is for n >= 1; with n = 0 it is NOP's
(R132, R133). -/
def overwrittenRegs : Instr → List Reg
  | .nop | .pmCmpm _ => [.status]
  | .softReset => [.status, .arg, .res, .chk, .tlen, .hlen, .slen, .blen, .wcur, .rcur]
  | .pmInit | .pmStep _ | .pmHrp | .pmSyms _ _ | .pmZeros _ | .pmXorm _ | .ckVerify _ => [.status, .chk]
  | .pmEmit => [.status, .slen]
  | .ckCreate _ => [.status, .slen, .chk]
  | .alEnc | .alDec => [.status, .res]
  | .bcEncode _ => [.status, .tlen, .chk]
  | .bcDecode _ => [.status, .hlen, .slen, .chk]
  | .agClear => [.status, .wcur, .slen]
  | .agAppendL n | .agAppendM n => if n = 0 then [.status] else [.status, .wcur, .slen]
  | .enStart => [.status, .rcur]
  | .enNextL _ | .enNextM _ => [.status, .rcur, .res]
  | .cvConvert .to5 _ _ _ => [.status, .slen]
  | .cvConvert .to8 _ _ _ => [.status, .blen]

/-- The cells a command overwrites, from the state before it and the state after it (the lengths it sets). -/
def overwrittenCells (i : Instr) (s t : State) : BufName → Nat → Prop :=
  match i with
  | .softReset => fun _ _ => True
  | .pmEmit | .ckCreate _ => cellsOf .sym s.slen.toNat 6
  | .bcEncode _ => eitherCells (cellsOf .hrp 0 s.hlen.toNat) (cellsOf .txt 0 t.tlen.toNat)
  | .bcDecode _ => eitherCells (cellsOf .hrp 0 t.hlen.toNat) (cellsOf .sym 0 (t.slen.toNat + 6))
  | .agAppendL n | .agAppendM n => if n = 0 then noCells else unitsOf s.wcur.toNat n
  | .cvConvert .to5 _ _ dst => cellsOf .sym dst (t.slen.toNat - dst)
  | .cvConvert .to8 _ _ dst => cellsOf .byt dst (t.blen.toNat - dst)
  | .nop | .pmInit | .pmStep _ | .pmHrp | .pmSyms _ _ | .pmZeros _ | .pmXorm _ | .pmCmpm _ | .ckVerify _
  | .alEnc | .alDec | .agClear | .enStart | .enNextL _ | .enNextM _ => noCells

/-! ## R250: which codes each command raises -/

/-- The error codes a command can leave in STATUS. -/
def raisedBy : Instr → List StatusCode
  | .pmCmpm _ | .ckVerify _ => [.checksumMismatch]
  | .pmSyms _ _ | .alEnc => [.range]
  | .alDec => [.range, .nonPrintableCharacter, .invalidCharacter]
  | .pmEmit | .ckCreate _ | .bcEncode _ | .agAppendL _ | .agAppendM _ => [.capacity]
  | .bcDecode _ =>
    [.nonPrintableCharacter, .mixedCase, .oversizedInput, .noSeparator, .undersizedHrp, .shortChecksum,
     .invalidCharacter, .checksumMismatch]
  | .enNextL _ | .enNextM _ => [.underflow]
  | .cvConvert _ _ _ _ => [.range, .capacity, .bitsConversionFailed]
  | .nop | .softReset | .pmInit | .pmStep _ | .pmHrp | .pmZeros _ | .pmXorm _ | .agClear | .enStart => []

/-! ## Sequences of commands -/

/-- Commands one after another, whatever STATUS each leaves (R255). -/
def execAll : List Instr → State → Host.Outcome State Fault Refusal
  | [], s => .next s
  | i :: is, s =>
    match exec i s with
    | .next t => execAll is t
    | .fault f => .fault f
    | .refused r => .refused r

/-- `APPEND n, x` for each pair in order: ARG, then the append command `app n` (R104, R138). -/
def appendAll (app : Nat → Instr) : List (Nat × Word) → State → Host.Outcome State Fault Refusal
  | [], s => .next s
  | (n, x) :: fields, s =>
    match exec (app n) (s.setArg x) with
    | .next t => appendAll app fields t
    | .fault f => .fault f
    | .refused r => .refused r

/-- `NEXT n` for each width in order: the enumerator command `nxt n`, then RES (R104, R138). -/
def nextAll (nxt : Nat → Instr) : List Nat → State → Host.Outcome (List Word × State) Fault Refusal
  | [], s => .next ([], s)
  | n :: ns, s =>
    match exec (nxt n) s with
    | .next t =>
      match nextAll nxt ns t with
      | .next (vs, u) => .next (t.res :: vs, u)
      | .fault f => .fault f
      | .refused r => .refused r
    | .fault f => .fault f
    | .refused r => .refused r

end Sys2Proof.Machine
end

