-- ==== Sys2Proof/Certificates/Slice0/Obligations.lean ====
section
/-! DEFINITION. The statements about the model. A statement about a command has, where it cites the command's rule,
four parts: the words that decode to the command, each error with its condition and with nothing but STATUS changed,
the state the command answers otherwise, and its frame. -/

open Sys2Proof Sys2Proof.Machine

/-! ## Encoding -/

/-- R90 to R100: decoding an encoded well-formed command gives it back, whatever its operands. -/
def Obligations.DecodeOfEncodeIsIdentity : Prop :=
  ∀ i : Instr, i.wf = true → decode (encode i) = .ok i

/-- R90 to R100: a word that decodes is the encoding of what it decodes to, and that command is well formed; so
no two words stand for one command. -/
def Obligations.DecodedWordIsItsEncoding : Prop :=
  ∀ (w : Word) (i : Instr), decode w = .ok i → i.wf = true ∧ encode i = w

/-- R101: a word is no command exactly where its OP byte is unassigned, as R101 lists the unassigned bytes, or OP is
assigned and a bit outside the format's FIELD_MASK (R92 to R98) is 1; such a word raises ILLEGAL_COMMAND with no other
effect. -/
def Obligations.WordsThatAreNoCommand : Prop :=
  (∀ (w : Word) (e : DecodeError) (s : State), decode w = .error e →
    executeCommand w s = .next (s.setStatus 0x80#8)) ∧
  ∀ w : Word,
    let op := w.toNat / 2 ^ 24
    let rest := w.toNat % 2 ^ 24
    ((∃ e, decode w = .error e) ↔
      (0x02 ≤ op ∧ op ≤ 0x0F) ∨ (0x18 ≤ op ∧ op ≤ 0x1F) ∨ (0x22 ≤ op ∧ op ≤ 0x2F) ∨ (0x34 ≤ op ∧ op ≤ 0x3F) ∨
      op = 0x41 ∨ op = 0x45 ∨ 0x49 ≤ op ∨
      (op ∈ [0x00, 0x01, 0x10, 0x12, 0x17, 0x30, 0x31, 0x40, 0x44] ∧ rest ≠ 0) ∨
      (op ∈ [0x15, 0x16, 0x20, 0x21, 0x32, 0x33] ∧ 2 ≤ rest) ∨
      (op ∈ [0x11, 0x42, 0x43, 0x46, 0x47] ∧ 32 ≤ rest) ∨
      (op = 0x14 ∧ 256 ≤ rest) ∨ (op = 0x13 ∧ 65536 ≤ rest) ∨
      (op = 0x48 ∧ rest % 256 / 4 ≠ 0))

/-- Words written out from R92 to R100, one of each format and family, decode to the commands they stand for. -/
def Obligations.SampleWordsDecode : Prop :=
  decode 0x00000000#32 = .ok .nop ∧ decode 0x1100001F#32 = .ok (.pmStep 31#5) ∧
  decode 0x130006FA#32 = .ok (.pmSyms 250 6) ∧ decode 0x14000006#32 = .ok (.pmZeros 6) ∧
  decode 0x20000001#32 = .ok (.ckCreate .bis) ∧ decode 0x33000000#32 = .ok (.bcDecode .classic) ∧
  decode 0x30000000#32 = .ok .alEnc ∧ decode 0x42000018#32 = .ok (.agAppendL 24) ∧
  decode 0x4700000A#32 = .ok (.enNextM 10) ∧ decode 0x48010002#32 = .ok (.cvConvert .to5 true 0 1) ∧
  decode 0x48A10003#32 = .ok (.cvConvert .to8 true 0 161)

/-! ## The step -/

/-- R34, R64: when the host's next access writes a word to CMD and the word decodes, the step is that command's
execution. That the access is taken off the schedule and that a write observes nothing is the model's own (log entries
1 and 7, DESIGN CHOICE). -/
def Obligations.StepRunsDecodedCommand : Prop :=
  ∀ (s : State) (w : Word) (i : Instr) (rest : List HostEvent),
    s.host.schedule = .access (.write 32 0x0004#13 w) :: rest → s.host.running = none → decode w = .ok i →
    step s = exec i (s.setHost ⟨rest, none, s.host.reads, s.host.outcomes⟩)

/-- R122: an undecodable word written to CMD leaves STATUS = 0x80 and changes nothing else. The last clause, that the
event leaves the schedule and that a write observes nothing, is the model's own (log entries 1 and 7, DESIGN CHOICE). -/
def Obligations.StepOfIllegalWordSetsStatus : Prop :=
  ∀ (s : State) (w : Word) (e : DecodeError) (rest : List HostEvent),
    s.host.schedule = .access (.write 32 0x0004#13 w) :: rest → s.host.running = none → decode w = .error e →
    ∃ t, step s = .next t ∧ t.status = 0x80#8 ∧ regsKept [.status] s t ∧ t.mem = s.mem ∧
      t.host = ⟨rest, none, s.host.reads, s.host.outcomes⟩

/-- R266, R282: every command has its meaning in every state; no word written to CMD stops the machine. That a command
leaves the host side as it is follows from R20 and each command's rule, and for SOFT_RESET it is the model's reading
(log entry 4, DEDUCED). -/
def Obligations.EveryWordExecutesInEveryState : Prop :=
  ∀ (w : Word) (s : State), ∃ t, executeCommand w s = .next t ∧ t.host = s.host

/-- R39: the state at reset, and that a hardware reset (the host event of R280) and SOFT_RESET leave it from any
state. -/
def Obligations.ResetStateValues : Prop :=
  (State.reset.status = 0x00#8 ∧ State.reset.arg = 0#32 ∧ State.reset.res = 0#32 ∧ State.reset.chk = 1#30 ∧
    State.reset.tlen = 0#8 ∧ State.reset.hlen = 0#8 ∧ State.reset.slen = 0#8 ∧ State.reset.blen = 0#8 ∧
    State.reset.wcur = 0#11 ∧ State.reset.rcur = 0#11 ∧ ∀ b i, State.reset.mem.readCell b i = 0#32) ∧
  (∀ (s : State) (rest : List HostEvent), s.host.schedule = .reset :: rest →
    ∃ t, step s = .next t ∧ (∀ r, readReg t r = readReg State.reset r) ∧ t.mem = State.reset.mem) ∧
  ∀ s : State, ∃ t, exec .softReset s = .next t ∧
    (∀ r, readReg t r = readReg State.reset r) ∧ t.mem = State.reset.mem

/-- The invariant holds at reset. -/
def Obligations.ResetKeepsInvariant : Prop := Inv State.reset

/-- Every step from a state that meets the invariant, whatever the host does, gives a state that meets it: memory
stays canonical, both cursors stay within CURSOR_MAX (R30, R31) and STATUS stays one of R250's codes. -/
def Obligations.EveryStepKeepsInvariant : Prop :=
  ∀ s t : State, Inv s → step s = .next t → Inv t

/-- R266: the one fault is the Segwit self-verify, and only segwit_encode reaches it. -/
def Obligations.OnlyFaultIsSegwitSelfVerify : Prop :=
  ∀ (s : State) (f : Fault), step s = .fault f →
    f = .segwitSelfVerify ∧ ∃ r hrp version program,
      s.host.running = some r ∧ r.call = .segwitEncode hrp version program ∧
      segwitEncodable hrp version program = true

/-! ## The host port -/

/-- R62, R63: a step whose access reads an aligned word returns what the map puts there and changes nothing else. The
schedule and the list of observed values are the model's own (log entries 1 and 7, DESIGN CHOICE). -/
def Obligations.PortReadReturnsMapContent : Prop :=
  ∀ (s : State) (a : PortAddr) (rest : List HostEvent), a.toNat % 4 = 0 →
    s.host.schedule = .access (.read 32 a) :: rest → s.host.running = none →
    ∃ v, step s = .next (s.setHost ⟨rest, none, s.host.reads ++ [v], s.host.outcomes⟩) ∧
      (a = 0x0000#13 → v = 0xB32E0107#32) ∧ (a = 0x0004#13 → v = 0#32) ∧
      (a = 0x0008#13 → v = s.status.setWidth 32) ∧ (a = 0x000C#13 → v = s.arg) ∧ (a = 0x0010#13 → v = s.res) ∧
      (a = 0x0014#13 → v = s.chk.setWidth 32) ∧ (a = 0x0018#13 → v = s.tlen.setWidth 32) ∧
      (a = 0x001C#13 → v = s.hlen.setWidth 32) ∧ (a = 0x0020#13 → v = s.slen.setWidth 32) ∧
      (a = 0x0024#13 → v = s.blen.setWidth 32) ∧ (a = 0x0028#13 → v = s.wcur.setWidth 32) ∧
      (a = 0x002C#13 → v = s.rcur.setWidth 32) ∧
      (0x0030 ≤ a.toNat ∧ a.toNat < 0x0400 → v = 0#32) ∧
      (∀ i, i < 256 → a.toNat = 0x0400 + 4 * i → v = (Buffer.read s.mem.txt i).setWidth 32) ∧
      (∀ i, i < 256 → a.toNat = 0x0800 + 4 * i → v = (Buffer.read s.mem.hrp i).setWidth 32) ∧
      (∀ i, i < 256 → a.toNat = 0x0C00 + 4 * i → v = (Buffer.read s.mem.sym i).setWidth 32) ∧
      (∀ i, i < 256 → a.toNat = 0x1000 + 4 * i → v = (Buffer.read s.mem.byt i).setWidth 32) ∧
      (0x1400 ≤ a.toNat → v = 0#32)

/-- R25 to R29, R63, R64: a step whose access is an aligned write to an address other than CMD ends in the state the
port write leaves. A write to a writable register keeps the bits of its width, and a write to a read-only or reserved
word changes nothing. That the event leaves the schedule and that a write observes nothing is the model's own (log
entries 1 and 7, DESIGN CHOICE). -/
def Obligations.PortWriteToRegister : Prop :=
  (∀ (s : State) (a : PortAddr) (d : Word) (rest : List HostEvent), a.toNat % 4 = 0 → a ≠ 0x0004#13 →
    s.host.schedule = .access (.write 32 a d) :: rest → s.host.running = none →
    ∃ t, portWrite a d (s.setHost ⟨rest, none, s.host.reads, s.host.outcomes⟩) = .next t ∧ step s = .next t) ∧
  ∀ (s : State) (d : Word),
    portWrite 0x000C#13 d s = .next (s.setArg d) ∧
    (∃ t, portWrite 0x0014#13 d s = .next t ∧ t.chk.toNat = d.toNat % 2 ^ 30 ∧ frame [.chk] noCells s t) ∧
    (∃ t, portWrite 0x0018#13 d s = .next t ∧ t.tlen.toNat = d.toNat % 256 ∧ frame [.tlen] noCells s t) ∧
    (∃ t, portWrite 0x001C#13 d s = .next t ∧ t.hlen.toNat = d.toNat % 256 ∧ frame [.hlen] noCells s t) ∧
    (∃ t, portWrite 0x0020#13 d s = .next t ∧ t.slen.toNat = d.toNat % 256 ∧ frame [.slen] noCells s t) ∧
    (∃ t, portWrite 0x0024#13 d s = .next t ∧ t.blen.toNat = d.toNat % 256 ∧ frame [.blen] noCells s t) ∧
    (∀ a : PortAddr, a ∈ [0x0000#13, 0x0008#13, 0x0010#13, 0x0028#13, 0x002C#13] → portWrite a d s = .next s) ∧
    (∀ a : PortAddr, a.toNat % 4 = 0 →
      (0x0030 ≤ a.toNat ∧ a.toNat < 0x0400) ∨ 0x1400 ≤ a.toNat → portWrite a d s = .next s)

/-- R37, R64: a write to a cell stores data[7:0], or data[4:0] for SYM, and changes no other cell and no register; the
step whose access it is ends in that state, with the event taken off the schedule (log entries 1 and 7, DESIGN
CHOICE). -/
def Obligations.PortWriteToCell : Prop :=
  (∀ (s : State) (d : Word) (i : Nat) (a : PortAddr) (rest : List HostEvent), i < 256 →
    a.toNat ∈ [0x0400 + 4 * i, 0x0800 + 4 * i, 0x0C00 + 4 * i, 0x1000 + 4 * i] →
    s.host.schedule = .access (.write 32 a d) :: rest → s.host.running = none →
    ∃ t, portWrite a d (s.setHost ⟨rest, none, s.host.reads, s.host.outcomes⟩) = .next t ∧ step s = .next t) ∧
  ∀ (s : State) (d : Word) (i : Nat) (a : PortAddr), i < 256 →
    (a.toNat = 0x0400 + 4 * i → ∃ t, portWrite a d s = .next t ∧
      (Buffer.read t.mem.txt i).toNat = d.toNat % 256 ∧ frame [] (cellsOf .txt i 1) s t) ∧
    (a.toNat = 0x0800 + 4 * i → ∃ t, portWrite a d s = .next t ∧
      (Buffer.read t.mem.hrp i).toNat = d.toNat % 256 ∧ frame [] (cellsOf .hrp i 1) s t) ∧
    (a.toNat = 0x0C00 + 4 * i → ∃ t, portWrite a d s = .next t ∧
      (Buffer.read t.mem.sym i).toNat = d.toNat % 32 ∧ frame [] (cellsOf .sym i 1) s t) ∧
    (a.toNat = 0x1000 + 4 * i → ∃ t, portWrite a d s = .next t ∧
      (Buffer.read t.mem.byt i).toNat = d.toNat % 256 ∧ frame [] (cellsOf .byt i 1) s t)

/-- R66: an access that is not 32 bits wide or not aligned is refused; every aligned 32-bit access by a host with no
procedure under way completes. -/
def Obligations.OnlyAlignedWordAccessesComplete : Prop :=
  ∀ (s : State) (width : Nat) (a : PortAddr) (d : Word) (rest : List HostEvent) (acc : Access),
    acc = .read width a ∨ acc = .write width a d →
    s.host.schedule = .access acc :: rest → s.host.running = none →
    (width ≠ 32 → step s = .refused .accessWidth) ∧
    (width = 32 → a.toNat % 4 ≠ 0 → step s = .refused .misaligned) ∧
    (width = 32 → a.toNat % 4 = 0 → ∃ t, step s = .next t)

/-- R285, as the model reads "no move" (log entry 5, DESIGN CHOICE): while a host procedure is under way, a port access of another host or the
start of another procedure is refused. -/
def Obligations.InterleavedAccessIsRefused : Prop :=
  ∀ (s : State) (r : ProcRun) (e : HostEvent) (rest : List HostEvent),
    s.host.schedule = e :: rest → s.host.running = some r →
    (∃ acc, e = .access acc) ∨ (∃ p, e = .call p) → step s = .refused .interleaved

/-! ## Rules of the whole engine -/

/-- R252: a command that leaves an error code in STATUS has changed nothing else. -/
def Obligations.ErrorChangesOnlyStatus : Prop :=
  ∀ (w : Word) (s t : State), executeCommand w s = .next t → t.status ≠ 0x00#8 → t = s.setStatus t.status

/-- R250: a command leaves OK or one of the codes the table lists for it; an undecodable word leaves 0x80. -/
def Obligations.StatusCodesRaisedByEachCommand : Prop :=
  (∀ (i : Instr) (s t : State), exec i s = .next t → t.status = 0x00#8 ∨ ∃ c ∈ raisedBy i, t.status = c.code) ∧
  (∀ (w : Word) (e : DecodeError) (s t : State),
    decode w = .error e → executeCommand w s = .next t → t.status = 0x80#8) ∧
  StatusCode.all.map StatusCode.code =
    [0x00#8, 0x01#8, 0x02#8, 0x03#8, 0x04#8, 0x05#8, 0x06#8, 0x07#8, 0x08#8, 0x09#8, 0x0A#8, 0x80#8, 0x81#8, 0x82#8]

/-- R35: no command's behaviour depends on an earlier command's STATUS. -/
def Obligations.NoCommandReadsStatus : Prop :=
  ∀ (w : Word) (s : State) (c : Byte), executeCommand w (s.setStatus c) = executeCommand w s

/-- Each command changes no register and no cell beyond its row of R284's table (AG_APPEND with n = 0 beyond NOP's
row, by R132 and R133). That everything else survives is read from the table with R14 and the commands' rules; that
SOFT_RESET leaves the host side is the model's reading (log entry 4, DEDUCED). -/
def Obligations.EachCommandOverwritesOnlyItsRow : Prop :=
  ∀ (i : Instr) (s t : State), exec i s = .next t → frame (overwrittenRegs i) (overwrittenCells i s t) s t

/-- Memory in canonical form is data: two buffers in that form that read alike are equal. -/
def Obligations.CanonicalBuffersThatReadAlikeAreEqual : Prop :=
  ∀ (w : Nat) (a b : Buffer w), Buffer.wf a = true → Buffer.wf b = true →
    (∀ i, Buffer.read a i = Buffer.read b i) → a = b

/-! ## Control commands -/

/-- R120. -/
def Obligations.NopChangesOnlyStatus : Prop :=
  (∀ w, decode w = .ok .nop ↔ w = 0x00000000#32) ∧
  ∀ s : State, ∃ t, exec .nop s = .next t ∧ t.status = 0x00#8 ∧ frame [.status] noCells s t

/-- R121. The last clause, that SOFT_RESET leaves the host side as it is, is the model's reading (log entry 4,
DEDUCED). -/
def Obligations.SoftResetGivesResetState : Prop :=
  (∀ w, decode w = .ok .softReset ↔ w = 0x01000000#32) ∧
  ∀ s : State, ∃ t, exec .softReset s = .next t ∧
    t.status = 0x00#8 ∧ t.arg = 0#32 ∧ t.res = 0#32 ∧ t.chk = 1#30 ∧ t.tlen = 0#8 ∧ t.hlen = 0#8 ∧
    t.slen = 0#8 ∧ t.blen = 0#8 ∧ t.wcur = 0#11 ∧ t.rcur = 0#11 ∧ (∀ b i, t.mem.readCell b i = 0#32) ∧
    t.mem = State.reset.mem ∧ t.host = s.host

/-! ## Polymod -/

/-- R150: the step, bit by bit: bit j is c[j-5] for j >= 5, v[j] for j < 5, and the exclusive-or of bit j of every
GEN[i] whose captured bit c[25+i] is 1. -/
def Obligations.PolymodStepBits : Prop :=
  ∀ (c : Chk) (v : Sym) (j : Nat), j < 30 →
    (polymodStep c v).getLsbD j =
      (((decide (5 ≤ j) && c.getLsbD (j - 5)) ^^ (decide (j < 5) && v.getLsbD j)) ^^
      ((c.getLsbD 25 && (0x3B6A57B2#30).getLsbD j) ^^ (c.getLsbD 26 && (0x26508E6D#30).getLsbD j) ^^
       (c.getLsbD 27 && (0x1EA119FA#30).getLsbD j) ^^ (c.getLsbD 28 && (0x3D4233DD#30).getLsbD j) ^^
       (c.getLsbD 29 && (0x2A1462B3#30).getLsbD j)))

/-- R162: the fold is linear over GF(2) in the accumulator and the values together. -/
def Obligations.PolymodIsLinear : Prop :=
  ∀ (a b : Chk) (xs ys : List Sym), xs.length = ys.length →
    polymodFrom (a ^^^ b) (List.zipWith (· ^^^ ·) xs ys) = polymodFrom a xs ^^^ polymodFrom b ys

/-- R152: the expansion has 2k + 1 values: h div 32 of each byte, a zero, h mod 32 of each byte. -/
def Obligations.HrpExpansionValues : Prop :=
  ∀ h : List Byte,
    (expand h).map BitVec.toNat = h.map (fun x => x.toNat / 32) ++ [0] ++ h.map (fun x => x.toNat % 32) ∧
    (expand h).length = 2 * h.length + 1

/-- R153: symbol j of slice6(c) is (c >> 5*(5-j)) & 31. -/
def Obligations.ChecksumSliceValues : Prop :=
  ∀ c : Chk, (slice6 c).map BitVec.toNat =
    (List.range 6).map fun j => c.toNat / 2 ^ (5 * (5 - j)) % 32

/-- R154. -/
def Obligations.PmInitSetsChkToOne : Prop :=
  (∀ w, decode w = .ok .pmInit ↔ w = 0x10000000#32) ∧
  ∀ s : State, ∃ t, exec .pmInit s = .next t ∧ t.status = 0x00#8 ∧ t.chk = 0x00000001#30 ∧
    frame [.status, .chk] noCells s t

/-- R155, and its corner cases. -/
def Obligations.PmStepFeedsOneValue : Prop :=
  (∀ w v, decode w = .ok (.pmStep v) ↔ w = 0x11#8 ++ 0#19 ++ v) ∧
  (∀ (v : Sym) (s : State), ∃ t, exec (.pmStep v) s = .next t ∧ t.status = 0x00#8 ∧
    t.chk = polymodStep s.chk v ∧ frame [.status, .chk] noCells s t) ∧
  (∀ v : Sym, polymodStep 0#30 v = v.setWidth 30 ∧ polymodStep 1#30 v = 0x20#30 ||| v.setWidth 30) ∧
  polymodStep 0x02000000#30 0#5 = 0x3B6A57B2#30 ∧ polymodStep 0x04000000#30 0#5 = 0x26508E6D#30 ∧
  polymodStep 0x08000000#30 0#5 = 0x1EA119FA#30 ∧ polymodStep 0x10000000#30 0#5 = 0x3D4233DD#30 ∧
  polymodStep 0x20000000#30 0#5 = 0x2A1462B3#30 ∧ polymodStep 0x3FFFFFFF#30 0#5 = 0x2B326EAB#30

/-- R156. -/
def Obligations.PmHrpFeedsExpansion : Prop :=
  (∀ w, decode w = .ok .pmHrp ↔ w = 0x12000000#32) ∧
  ∀ s : State, ∃ t, exec .pmHrp s = .next t ∧ t.status = 0x00#8 ∧
    t.chk = (expand (rangeOf s.mem.hrp 0 s.hlen.toNat)).foldl polymodStep s.chk ∧
    frame [.status, .chk] noCells s t

/-- R157. -/
def Obligations.PmSymsFeedsRange : Prop :=
  (∀ w start len, decode w = .ok (.pmSyms start len) ↔
    start < 256 ∧ len < 256 ∧ w = 0x13#8 ++ 0#8 ++ BitVec.ofNat 8 len ++ BitVec.ofNat 8 start) ∧
  ∀ (start len : Nat) (s : State),
    (256 < start + len → exec (.pmSyms start len) s = .next (s.setStatus 0x81#8)) ∧
    (start + len ≤ 256 → ∃ t, exec (.pmSyms start len) s = .next t ∧ t.status = 0x00#8 ∧
      t.chk = (rangeOf s.mem.sym start len).foldl polymodStep s.chk ∧ frame [.status, .chk] noCells s t)

/-- R158, and its corner cases. -/
def Obligations.PmZerosFeedsZeros : Prop :=
  (∀ w cnt, decode w = .ok (.pmZeros cnt) ↔ cnt < 256 ∧ w = 0x14#8 ++ 0#16 ++ BitVec.ofNat 8 cnt) ∧
  (∀ (cnt : Nat) (s : State), ∃ t, exec (.pmZeros cnt) s = .next t ∧ t.status = 0x00#8 ∧
    t.chk = (fun c => polymodStep c 0#5)^[cnt] s.chk ∧ frame [.status, .chk] noCells s t) ∧
  (fun c => polymodStep c 0#5)^[6] 1#30 = 0x3B6A57B2#30

/-- R159: the target is exclusive-ored in; V = 1 complements CHK, and two with the same V cancel. -/
def Obligations.PmXormXorsTarget : Prop :=
  ((∀ w, decode w = .ok (.pmXorm .classic) ↔ w = 0x15000000#32) ∧
    (∀ w, decode w = .ok (.pmXorm .bis) ↔ w = 0x15000001#32)) ∧
  (∀ s : State, ∃ t, exec (.pmXorm .classic) s = .next t ∧ t.status = 0x00#8 ∧
    t.chk = s.chk ^^^ 0x00000001#30 ∧ frame [.status, .chk] noCells s t) ∧
  (∀ s : State, ∃ t, exec (.pmXorm .bis) s = .next t ∧ t.status = 0x00#8 ∧
    t.chk = ~~~s.chk ∧ t.chk = s.chk ^^^ 0x3FFFFFFF#30 ∧ frame [.status, .chk] noCells s t) ∧
  (∀ (v : Variant) (s : State), execAll [.pmXorm v, .pmXorm v] s = .next (s.setStatus 0x00#8))

/-- R160. -/
def Obligations.PmCmpmComparesTarget : Prop :=
  ((∀ w, decode w = .ok (.pmCmpm .classic) ↔ w = 0x16000000#32) ∧
    (∀ w, decode w = .ok (.pmCmpm .bis) ↔ w = 0x16000001#32)) ∧
  ∀ s : State,
    exec (.pmCmpm .classic) s = .next (s.setStatus (if s.chk = 0x00000001#30 then 0x00#8 else 0x01#8)) ∧
    exec (.pmCmpm .bis) s = .next (s.setStatus (if s.chk = 0x3FFFFFFF#30 then 0x00#8 else 0x01#8))

/-- R161. -/
def Obligations.PmEmitAppendsSlices : Prop :=
  (∀ w, decode w = .ok .pmEmit ↔ w = 0x17000000#32) ∧
  ∀ s : State,
    (249 < s.slen.toNat → exec .pmEmit s = .next (s.setStatus 0x82#8)) ∧
    (s.slen.toNat ≤ 249 → ∃ t, exec .pmEmit s = .next t ∧ t.status = 0x00#8 ∧
      t.slen.toNat = s.slen.toNat + 6 ∧ rangeOf t.mem.sym s.slen.toNat 6 = slice6 s.chk ∧
      frame [.status, .slen] (cellsOf .sym s.slen.toNat 6) s t)

/-! ## Checksum -/

/-- R170. -/
def Obligations.CkCreateAppendsChecksum : Prop :=
  ((∀ w, decode w = .ok (.ckCreate .classic) ↔ w = 0x20000000#32) ∧
    (∀ w, decode w = .ok (.ckCreate .bis) ↔ w = 0x20000001#32)) ∧
  ∀ (v : Variant) (s : State),
    let c := polymod (expand (rangeOf s.mem.hrp 0 s.hlen.toNat) ++ rangeOf s.mem.sym 0 s.slen.toNat ++
      List.replicate 6 0#5) ^^^ target v
    (249 < s.slen.toNat → exec (.ckCreate v) s = .next (s.setStatus 0x82#8)) ∧
    (s.slen.toNat ≤ 249 → ∃ t, exec (.ckCreate v) s = .next t ∧ t.status = 0x00#8 ∧ t.chk = c ∧
      t.slen.toNat = s.slen.toNat + 6 ∧ rangeOf t.mem.sym s.slen.toNat 6 = slice6 c ∧
      frame [.status, .slen, .chk] (cellsOf .sym s.slen.toNat 6) s t)

/-- R171; a payload that verifies under one variant fails under the other. -/
def Obligations.CkVerifyChecksResidue : Prop :=
  ((∀ w, decode w = .ok (.ckVerify .classic) ↔ w = 0x21000000#32) ∧
    (∀ w, decode w = .ok (.ckVerify .bis) ↔ w = 0x21000001#32)) ∧
  (∀ (v : Variant) (s : State),
    let c := polymod (expand (rangeOf s.mem.hrp 0 s.hlen.toNat) ++ rangeOf s.mem.sym 0 s.slen.toNat)
    (c ≠ target v → exec (.ckVerify v) s = .next (s.setStatus 0x01#8)) ∧
    (c = target v → ∃ t, exec (.ckVerify v) s = .next t ∧ t.status = 0x00#8 ∧ t.chk = target v ∧
      frame [.status, .chk] noCells s t)) ∧
  (∀ (v v' : Variant) (s t : State), v ≠ v' → exec (.ckVerify v) s = .next t → t.status = 0x00#8 →
    exec (.ckVerify v') s = .next (s.setStatus 0x01#8)) ∧
  target .classic = 0x00000001#30 ∧ target .bis = 0x3FFFFFFF#30

/-- R172: on success CK_CREATE and CK_VERIFY leave the very state of their sequences of primitives; on a mismatch
the sequence leaves CHK at the remainder and CK_VERIFY leaves it unchanged. -/
def Obligations.CompositesEqualPrimitiveSequences : Prop :=
  ∀ (v : Variant) (s : State),
    (s.slen.toNat ≤ 249 →
      execAll [.pmInit, .pmHrp, .pmSyms 0 s.slen.toNat, .pmZeros 6, .pmXorm v, .pmEmit] s = exec (.ckCreate v) s) ∧
    (∀ t, exec (.ckVerify v) s = .next t → t.status = 0x00#8 →
      execAll [.pmInit, .pmHrp, .pmSyms 0 s.slen.toNat, .pmCmpm v] s = .next t) ∧
    (∀ t, exec (.ckVerify v) s = .next t → t.status ≠ 0x00#8 → t.chk = s.chk ∧
      ∃ u, execAll [.pmInit, .pmHrp, .pmSyms 0 s.slen.toNat, .pmCmpm v] s = .next u ∧ u.status = 0x01#8 ∧
        u.chk = polymod (expand (rangeOf s.mem.hrp 0 s.hlen.toNat) ++ rangeOf s.mem.sym 0 s.slen.toNat))

/-- R173: what CK_CREATE has appended, CK_VERIFY accepts, whatever else changes in between. -/
def Obligations.CreatedChecksumVerifies : Prop :=
  ∀ (v : Variant) (s t t' : State), exec (.ckCreate v) s = .next t → t.status = 0x00#8 →
    t'.hlen = t.hlen → t'.mem.hrp = t.mem.hrp → t'.slen = t.slen → t'.mem.sym = t.mem.sym →
    ∃ u, exec (.ckVerify v) t' = .next u ∧ u.status = 0x00#8 ∧ u.chk = target v

/-! ## Alphabet and string codec -/

/-- R180, R181: the 32 codes, and that rev finds exactly the index whose code is the character in lower case. -/
def Obligations.AlphabetMapsInvert : Prop :=
  ((List.range 32).map fun i => (alpha (BitVec.ofNat 5 i)).toNat) =
    [0x71, 0x70, 0x7A, 0x72, 0x79, 0x39, 0x78, 0x38, 0x67, 0x66, 0x32, 0x74, 0x76, 0x64, 0x77, 0x30,
     0x73, 0x33, 0x6A, 0x6E, 0x35, 0x34, 0x6B, 0x68, 0x63, 0x65, 0x36, 0x6D, 0x75, 0x61, 0x37, 0x6C] ∧
  ∀ (ch : Byte) (i : Sym), rev ch = some i ↔
    alpha i = if 0x41 ≤ ch.toNat ∧ ch.toNat ≤ 0x5A then ch + 0x20#8 else ch

/-- R182. -/
def Obligations.AlEncMapsSymbol : Prop :=
  (∀ w, decode w = .ok .alEnc ↔ w = 0x30000000#32) ∧
  ∀ s : State,
    (31 < s.arg.toNat → exec .alEnc s = .next (s.setStatus 0x81#8)) ∧
    (s.arg.toNat ≤ 31 → ∃ t, exec .alEnc s = .next t ∧ t.status = 0x00#8 ∧
      t.res.toNat = (alpha (BitVec.ofNat 5 s.arg.toNat)).toNat ∧ frame [.status, .res] noCells s t)

/-- R183, its errors in their order. -/
def Obligations.AlDecMapsCharacter : Prop :=
  (∀ w, decode w = .ok .alDec ↔ w = 0x31000000#32) ∧
  ∀ s : State,
    (255 < s.arg.toNat → exec .alDec s = .next (s.setStatus 0x81#8)) ∧
    (s.arg.toNat ≤ 255 → ¬ (33 ≤ s.arg.toNat ∧ s.arg.toNat ≤ 126) →
      exec .alDec s = .next (s.setStatus 0x05#8)) ∧
    (33 ≤ s.arg.toNat → s.arg.toNat ≤ 126 → rev (BitVec.ofNat 8 s.arg.toNat) = none →
      exec .alDec s = .next (s.setStatus 0x02#8)) ∧
    (∀ i : Sym, 33 ≤ s.arg.toNat → s.arg.toNat ≤ 126 → rev (BitVec.ofNat 8 s.arg.toNat) = some i →
      ∃ t, exec .alDec s = .next t ∧ t.status = 0x00#8 ∧ t.res = i.setWidth 32 ∧ frame [.status, .res] noCells s t)

/-- R185, with the fold to lower case of R16. -/
def Obligations.BcEncodeRendersString : Prop :=
  ((∀ w, decode w = .ok (.bcEncode .classic) ↔ w = 0x32000000#32) ∧
    (∀ w, decode w = .ok (.bcEncode .bis) ↔ w = 0x32000001#32)) ∧
  (∀ ch : Byte, lower ch = if 0x41 ≤ ch.toNat ∧ ch.toNat ≤ 0x5A then ch + 0x20#8 else ch) ∧
  ∀ (v : Variant) (s : State),
    let len := s.hlen.toNat + 1 + s.slen.toNat + 6
    let h := (rangeOf s.mem.hrp 0 s.hlen.toNat).map lower
    let vals := rangeOf s.mem.sym 0 s.slen.toNat
    let c := polymod (expand h ++ vals ++ List.replicate 6 0#5) ^^^ target v
    (255 < len → exec (.bcEncode v) s = .next (s.setStatus 0x82#8)) ∧
    (len ≤ 255 → ∃ t, exec (.bcEncode v) s = .next t ∧ t.status = 0x00#8 ∧ t.tlen.toNat = len ∧ t.chk = c ∧
      rangeOf t.mem.hrp 0 s.hlen.toNat = h ∧
      rangeOf t.mem.txt 0 len = h ++ [0x31#8] ++ vals.map alpha ++ (slice6 c).map alpha ∧
      frame [.status, .tlen, .chk] (eitherCells (cellsOf .hrp 0 s.hlen.toNat) (cellsOf .txt 0 len)) s t)

/-- R186: the first check that fails names the code, and an accepted string leaves its HRP, its data symbols and
the target. The string is split at its last `1`, and the HRP folded to lower case (R16). -/
def Obligations.BcDecodeParsesString : Prop :=
  ((∀ w, decode w = .ok (.bcDecode .classic) ↔ w = 0x33000000#32) ∧
    (∀ w, decode w = .ok (.bcDecode .bis) ↔ w = 0x33000001#32)) ∧
  (∀ ch : Byte, lower ch = if 0x41 ≤ ch.toNat ∧ ch.toNat ≤ 0x5A then ch + 0x20#8 else ch) ∧
  ∀ (v : Variant) (s : State),
    let str := rangeOf s.mem.txt 0 s.tlen.toNat
    let nonPrintable := ∃ ch ∈ str, ¬ (33 ≤ ch.toNat ∧ ch.toNat ≤ 126)
    let mixed := (∃ ch ∈ str, 0x61 ≤ ch.toNat ∧ ch.toNat ≤ 0x7A) ∧ (∃ ch ∈ str, 0x41 ≤ ch.toNat ∧ ch.toNat ≤ 0x5A)
    let raises := fun code : Byte => exec (.bcDecode v) s = .next (s.setStatus code)
    (nonPrintable → raises 0x05#8) ∧
    (¬ nonPrintable → mixed → raises 0x03#8) ∧
    (¬ nonPrintable → ¬ mixed → 90 < s.tlen.toNat → raises 0x06#8) ∧
    (¬ nonPrintable → ¬ mixed → s.tlen.toNat ≤ 90 → 0x31#8 ∉ str → raises 0x04#8) ∧
    ∀ h data : List Byte, ¬ nonPrintable → ¬ mixed → s.tlen.toNat ≤ 90 →
      str = h ++ 0x31#8 :: data → 0x31#8 ∉ data →
      (h = [] → raises 0x07#8) ∧
      (h ≠ [] → data.length < 6 → raises 0x08#8) ∧
      (h ≠ [] → 6 ≤ data.length → (∃ ch ∈ data, rev ch = none) → raises 0x02#8) ∧
      ∀ vals : List Sym, h ≠ [] → 6 ≤ data.length → data.map rev = vals.map some →
        (polymod (expand (h.map lower) ++ vals) ≠ target v → raises 0x01#8) ∧
        (polymod (expand (h.map lower) ++ vals) = target v →
          ∃ t, exec (.bcDecode v) s = .next t ∧ t.status = 0x00#8 ∧ t.chk = target v ∧
            t.hlen.toNat = h.length ∧ t.slen.toNat + 6 = data.length ∧
            rangeOf t.mem.hrp 0 h.length = h.map lower ∧ rangeOf t.mem.sym 0 data.length = vals ∧
            frame [.status, .hlen, .slen, .chk]
              (eitherCells (cellsOf .hrp 0 h.length) (cellsOf .sym 0 data.length)) s t)

/-- R187: the bounds of an accepted string, and that a decode never raises CAPACITY. -/
def Obligations.AcceptedStringBounds : Prop :=
  ∀ (v : Variant) (s t : State), exec (.bcDecode v) s = .next t → t.status ≠ 0x82#8 ∧
    (t.status = 0x00#8 → 1 ≤ t.hlen.toNat ∧ t.hlen.toNat ≤ 83 ∧ t.slen.toNat ≤ 82 ∧
      s.tlen.toNat = t.hlen.toNat + 1 + t.slen.toNat + 6 ∧ s.tlen.toNat ≤ 90)

/-- R188, its round trip: a non-empty printable HRP without upper-case letters and any payload that fit in 90
characters come back from BC_ENCODE followed by BC_DECODE. -/
def Obligations.EncodedStringDecodesBack : Prop :=
  ∀ (v : Variant) (s : State),
    let h := rangeOf s.mem.hrp 0 s.hlen.toNat
    let vals := rangeOf s.mem.sym 0 s.slen.toNat
    s.hlen.toNat ≠ 0 → (∀ ch ∈ h, 33 ≤ ch.toNat ∧ ch.toNat ≤ 126 ∧ ¬ (0x41 ≤ ch.toNat ∧ ch.toNat ≤ 0x5A)) →
    s.hlen.toNat + s.slen.toNat + 7 ≤ 90 →
    ∃ t u, exec (.bcEncode v) s = .next t ∧ exec (.bcDecode v) t = .next u ∧ u.status = 0x00#8 ∧
      u.hlen = s.hlen ∧ rangeOf u.mem.hrp 0 u.hlen.toNat = h ∧
      u.slen = s.slen ∧ rangeOf u.mem.sym 0 u.slen.toNat = vals

/-! ## Bit streams -/

/-- R131. -/
def Obligations.AgClearStartsStream : Prop :=
  (∀ w, decode w = .ok .agClear ↔ w = 0x40000000#32) ∧
  ∀ s : State, ∃ t, exec .agClear s = .next t ∧ t.status = 0x00#8 ∧ t.wcur = 0#11 ∧ t.slen = 0#8 ∧
    frame [.status, .wcur, .slen] noCells s t

/-- R132: position q of a unit the command touches holds the old bit where the unit was entered before the command,
ORed with bit q - WCUR of ARG where q is one of the n positions. -/
def Obligations.AgAppendLWritesField : Prop :=
  (∀ w n, decode w = .ok (.agAppendL n) ↔ n < 32 ∧ w = 0x42#8 ++ 0#19 ++ BitVec.ofNat 5 n) ∧
  ∀ (n : Nat) (s : State),
    let q0 := s.wcur.toNat
    (1275 < q0 + n → exec (.agAppendL n) s = .next (s.setStatus 0x82#8)) ∧
    (q0 + n ≤ 1275 → n = 0 → exec (.agAppendL n) s = .next (s.setStatus 0x00#8)) ∧
    (q0 + n ≤ 1275 → 0 < n → ∃ t, exec (.agAppendL n) s = .next t ∧ t.status = 0x00#8 ∧
      t.wcur.toNat = q0 + n ∧ t.slen.toNat = (q0 + n + 4) / 5 ∧
      (∀ q, q0 / 5 ≤ q / 5 → q / 5 < (q0 + n + 4) / 5 →
        streamL t q = ((decide (q / 5 = q0 / 5 ∧ q0 % 5 ≠ 0) && streamL s q) ||
          (decide (q0 ≤ q ∧ q < q0 + n) && s.arg.getLsbD (q - q0)))) ∧
      frame [.status, .wcur, .slen] (unitsOf q0 n) s t)

/-- R133: as R132, in MSB-first order: position q takes bit n - 1 - (q - WCUR) of ARG. -/
def Obligations.AgAppendMWritesField : Prop :=
  (∀ w n, decode w = .ok (.agAppendM n) ↔ n < 32 ∧ w = 0x43#8 ++ 0#19 ++ BitVec.ofNat 5 n) ∧
  ∀ (n : Nat) (s : State),
    let q0 := s.wcur.toNat
    (1275 < q0 + n → exec (.agAppendM n) s = .next (s.setStatus 0x82#8)) ∧
    (q0 + n ≤ 1275 → n = 0 → exec (.agAppendM n) s = .next (s.setStatus 0x00#8)) ∧
    (q0 + n ≤ 1275 → 0 < n → ∃ t, exec (.agAppendM n) s = .next t ∧ t.status = 0x00#8 ∧
      t.wcur.toNat = q0 + n ∧ t.slen.toNat = (q0 + n + 4) / 5 ∧
      (∀ q, q0 / 5 ≤ q / 5 → q / 5 < (q0 + n + 4) / 5 →
        streamM t q = ((decide (q / 5 = q0 / 5 ∧ q0 % 5 ≠ 0) && streamM s q) ||
          (decide (q0 ≤ q ∧ q < q0 + n) && s.arg.getLsbD (n - 1 - (q - q0))))) ∧
      frame [.status, .wcur, .slen] (unitsOf q0 n) s t)

/-- R134. -/
def Obligations.EnStartResetsReadCursor : Prop :=
  (∀ w, decode w = .ok .enStart ↔ w = 0x44000000#32) ∧
  ∀ s : State, ∃ t, exec .enStart s = .next t ∧ t.status = 0x00#8 ∧ t.rcur = 0#11 ∧
    frame [.status, .rcur] noCells s t

/-- R135: bit i of RES is the bit at position RCUR + i; UNDERFLOW where fewer than n bits remain. -/
def Obligations.EnNextLReadsField : Prop :=
  (∀ w n, decode w = .ok (.enNextL n) ↔ n < 32 ∧ w = 0x46#8 ++ 0#19 ++ BitVec.ofNat 5 n) ∧
  ∀ (n : Nat) (s : State), n < 32 →
    (5 * s.slen.toNat < s.rcur.toNat + n → exec (.enNextL n) s = .next (s.setStatus 0x0A#8)) ∧
    (s.rcur.toNat + n ≤ 5 * s.slen.toNat → ∃ t, exec (.enNextL n) s = .next t ∧ t.status = 0x00#8 ∧
      t.rcur.toNat = s.rcur.toNat + n ∧
      (∀ i, t.res.getLsbD i = (decide (i < n) && streamL s (s.rcur.toNat + i))) ∧
      frame [.status, .res, .rcur] noCells s t)

/-- R136: bit n - 1 - i of RES is the bit at position RCUR + i. -/
def Obligations.EnNextMReadsField : Prop :=
  (∀ w n, decode w = .ok (.enNextM n) ↔ n < 32 ∧ w = 0x47#8 ++ 0#19 ++ BitVec.ofNat 5 n) ∧
  ∀ (n : Nat) (s : State), n < 32 →
    (5 * s.slen.toNat < s.rcur.toNat + n → exec (.enNextM n) s = .next (s.setStatus 0x0A#8)) ∧
    (s.rcur.toNat + n ≤ 5 * s.slen.toNat → ∃ t, exec (.enNextM n) s = .next t ∧ t.status = 0x00#8 ∧
      t.rcur.toNat = s.rcur.toNat + n ∧
      (∀ i, t.res.getLsbD i = (decide (i < n) && streamM s (s.rcur.toNat + (n - 1 - i)))) ∧
      frame [.status, .res, .rcur] noCells s t)

/-- R138, LSB-first: after AG_CLEAR, appends of any widths and values, EN_START and the same widths read back each
value mod 2^n; a further read of width m then succeeds exactly where m more bits stand in SLEN's units, and the pad
bits read as 0. -/
def Obligations.AppendedFieldsReadBackL : Prop :=
  ∀ (fields : List (Nat × Word)) (s : State), (∀ f ∈ fields, f.1 < 32) → (fields.map (·.1)).sum ≤ 1275 →
    ∃ s0 t t0 u, exec .agClear s = .next s0 ∧ appendAll .agAppendL fields s0 = .next t ∧
      exec .enStart t = .next t0 ∧
      nextAll .enNextL (fields.map (·.1)) t0 = .next (fields.map fun f => BitVec.ofNat 32 (f.2.toNat % 2 ^ f.1), u) ∧
      ∀ m, m < 32 → ∃ u', exec (.enNextL m) u = .next u' ∧
        (u'.status = 0x00#8 ↔ (fields.map (·.1)).sum + m ≤ 5 * t.slen.toNat) ∧
        (u'.status = 0x00#8 → u'.res = 0#32)

/-- R138, MSB-first. -/
def Obligations.AppendedFieldsReadBackM : Prop :=
  ∀ (fields : List (Nat × Word)) (s : State), (∀ f ∈ fields, f.1 < 32) → (fields.map (·.1)).sum ≤ 1275 →
    ∃ s0 t t0 u, exec .agClear s = .next s0 ∧ appendAll .agAppendM fields s0 = .next t ∧
      exec .enStart t = .next t0 ∧
      nextAll .enNextM (fields.map (·.1)) t0 = .next (fields.map fun f => BitVec.ofNat 32 (f.2.toNat % 2 ^ f.1), u) ∧
      ∀ m, m < 32 → ∃ u', exec (.enNextM m) u = .next u' ∧
        (u'.status = 0x00#8 ↔ (fields.map (·.1)).sum + m ≤ 5 * t.slen.toNat) ∧
        (u'.status = 0x00#8 → u'.res = 0#32)

/-! ## Width converter -/

/-- R200, D = 0: symbol j takes bits 5j to 5j + 4 of the bytes read as a big-endian bit stream, zero-padded. -/
def Obligations.CvConvertBytesToSymbols : Prop :=
  (∀ w p src dst, decode w = .ok (.cvConvert .to5 p src dst) ↔ src < 256 ∧ dst < 256 ∧
    w = 0x48#8 ++ BitVec.ofNat 8 dst ++ BitVec.ofNat 8 src ++ 0#6 ++ BitVec.ofBool p ++ 0#1) ∧
  ∀ (p : Bool) (src dst : Nat) (s : State),
    let len := s.blen.toNat - src
    let bits := bigEndianBit8 (rangeOf s.mem.byt src len)
    let outlen := if p then (8 * len + 4) / 5 else 8 * len / 5
    let leftover := p = false ∧ ∃ k, 5 * outlen ≤ k ∧ k < 8 * len ∧ bits k = true
    (s.blen.toNat < src → exec (.cvConvert .to5 p src dst) s = .next (s.setStatus 0x81#8)) ∧
    (src ≤ s.blen.toNat → 255 < dst + outlen → exec (.cvConvert .to5 p src dst) s = .next (s.setStatus 0x82#8)) ∧
    (src ≤ s.blen.toNat → dst + outlen ≤ 255 → leftover →
      exec (.cvConvert .to5 p src dst) s = .next (s.setStatus 0x09#8)) ∧
    (src ≤ s.blen.toNat → dst + outlen ≤ 255 → ¬ leftover →
      ∃ t, exec (.cvConvert .to5 p src dst) s = .next t ∧ t.status = 0x00#8 ∧ t.slen.toNat = dst + outlen ∧
        (∀ j b, j < outlen → b < 5 → (Buffer.read t.mem.sym (dst + j)).getLsbD (4 - b) = bits (5 * j + b)) ∧
        frame [.status, .slen] (cellsOf .sym dst outlen) s t)

/-- R200, D = 1: byte j takes bits 8j to 8j + 7 of the symbols read as a big-endian bit stream; without pad, five or
more leftover bits fail even when all are zero. -/
def Obligations.CvConvertSymbolsToBytes : Prop :=
  (∀ w p src dst, decode w = .ok (.cvConvert .to8 p src dst) ↔ src < 256 ∧ dst < 256 ∧
    w = 0x48#8 ++ BitVec.ofNat 8 dst ++ BitVec.ofNat 8 src ++ 0#6 ++ BitVec.ofBool p ++ 1#1) ∧
  ∀ (p : Bool) (src dst : Nat) (s : State),
    let len := s.slen.toNat - src
    let bits := bigEndianBit5 (rangeOf s.mem.sym src len)
    let outlen := if p then (5 * len + 7) / 8 else 5 * len / 8
    let leftover := p = false ∧ (5 ≤ 5 * len - 8 * outlen ∨ ∃ k, 8 * outlen ≤ k ∧ k < 5 * len ∧ bits k = true)
    (s.slen.toNat < src → exec (.cvConvert .to8 p src dst) s = .next (s.setStatus 0x81#8)) ∧
    (src ≤ s.slen.toNat → 255 < dst + outlen → exec (.cvConvert .to8 p src dst) s = .next (s.setStatus 0x82#8)) ∧
    (src ≤ s.slen.toNat → dst + outlen ≤ 255 → leftover →
      exec (.cvConvert .to8 p src dst) s = .next (s.setStatus 0x09#8)) ∧
    (src ≤ s.slen.toNat → dst + outlen ≤ 255 → ¬ leftover →
      ∃ t, exec (.cvConvert .to8 p src dst) s = .next t ∧ t.status = 0x00#8 ∧ t.blen.toNat = dst + outlen ∧
        (∀ j b, j < outlen → b < 8 → (Buffer.read t.mem.byt (dst + j)).getLsbD (7 - b) = bits (8 * j + b)) ∧
        frame [.status, .blen] (cellsOf .byt dst outlen) s t)

/-- R202: bytes converted to symbols with pad come back without pad, for every length whose symbols fit
(ceil(8 len / 5) <= 255); symbols whose last partial group has a bit that is 1 fail without pad. -/
def Obligations.ConvertedBytesConvertBack : Prop :=
  (∀ s : State, (8 * s.blen.toNat + 4) / 5 ≤ 255 →
    ∃ t u, exec (.cvConvert .to5 true 0 0) s = .next t ∧ exec (.cvConvert .to8 false 0 0) t = .next u ∧
      u.status = 0x00#8 ∧ u.blen = s.blen ∧
      rangeOf u.mem.byt 0 u.blen.toNat = rangeOf s.mem.byt 0 s.blen.toNat) ∧
  ∀ s : State,
    (∃ k, 8 * (5 * s.slen.toNat / 8) ≤ k ∧ k < 5 * s.slen.toNat ∧
      bigEndianBit5 (rangeOf s.mem.sym 0 s.slen.toNat) k = true) →
    exec (.cvConvert .to8 false 0 0) s = .next (s.setStatus 0x09#8)

/-- R133's corner case: a run of AG_APPEND_M 8-bit appends of the bytes in BYT leaves the symbols that CV_CONVERT 8to5
with pad makes of them. -/
def Obligations.AppendedBytesMatchConversion : Prop :=
  ∀ s : State, 8 * s.blen.toNat ≤ 1275 →
    ∃ s0 t u, exec .agClear s = .next s0 ∧
      appendAll .agAppendM ((rangeOf s.mem.byt 0 s.blen.toNat).map fun b => (8, b.setWidth 32)) s0 = .next t ∧
      exec (.cvConvert .to5 true 0 0) s = .next u ∧ t.slen = u.slen ∧
      rangeOf t.mem.sym 0 t.slen.toNat = rangeOf u.mem.sym 0 u.slen.toNat

/-! ## Host procedures -/

/-- R226, R211: a call of txref_encode with a field out of range, or of segwit_encode with arguments that break its
precondition, is refused. -/
def Obligations.ProcedurePreconditionsAreRefused : Prop :=
  (∀ (s : State) (t : TxRef) (v : Variant) (rest : List HostEvent),
    s.host.schedule = .call (.txrefEncode t v) :: rest → s.host.running = none →
    ¬ (t.blockHeight < 2 ^ 24 ∧ t.txIndex < 2 ^ 15 ∧ t.outIndex < 2 ^ 15) → step s = .refused .txrefRange) ∧
  (∀ (s : State) (hrp program : List Byte) (version : Nat) (rest : List HostEvent),
    s.host.schedule = .call (.segwitEncode hrp version program) :: rest → s.host.running = none →
    ¬ (version ≤ 16 ∧ 2 ≤ program.length ∧ program.length ≤ 40 ∧
      (version = 0 → program.length = 20 ∨ program.length = 32) ∧
      hrp.length + 1 + 1 + (8 * program.length + 4) / 5 + 6 ≤ 90) → step s = .refused .segwitPrecondition)

/-- R285, R289: a host procedure run one access a step ends with the outcome and the engine state of its run without
interruption, from any state in which no procedure is under way. That the call is a step of its own and the end part
of the last access's step is log entry 20, the list of outcomes log entry 7 (both DESIGN CHOICE). -/
def Obligations.ProcedureStepsReachItsRun : Prop :=
  ∀ (p : Procedure) (s t : State) (o : ProcOutcome), s.host.running = none → p.prog.run s = .next (o, t) →
    ∃ (k : Nat) (u : State),
      Host.Core.run Sys2Proof.core (k + 1)
        (s.setHost ⟨.call p :: List.replicate k .proceed, none, s.host.reads, s.host.outcomes⟩) = .next u ∧
      u.host.schedule = [] ∧ u.host.running = none ∧ u.host.outcomes = s.host.outcomes ++ [o] ∧
      u.setHost t.host = t
end

