-- ==== Sys2Proof/Laws/State.lean ====
section
/-! SUPPORT. What every field of State reads after each one-field update, so that no later proof unfolds an
update. -/

namespace Sys2Proof.Machine

@[simp] theorem State.setStatus_status (s : State) (v : Byte) : (s.setStatus v).status = v := rfl
@[simp] theorem State.setStatus_arg (s : State) (v : Byte) : (s.setStatus v).arg = s.arg := rfl
@[simp] theorem State.setStatus_res (s : State) (v : Byte) : (s.setStatus v).res = s.res := rfl
@[simp] theorem State.setStatus_chk (s : State) (v : Byte) : (s.setStatus v).chk = s.chk := rfl
@[simp] theorem State.setStatus_tlen (s : State) (v : Byte) : (s.setStatus v).tlen = s.tlen := rfl
@[simp] theorem State.setStatus_hlen (s : State) (v : Byte) : (s.setStatus v).hlen = s.hlen := rfl
@[simp] theorem State.setStatus_slen (s : State) (v : Byte) : (s.setStatus v).slen = s.slen := rfl
@[simp] theorem State.setStatus_blen (s : State) (v : Byte) : (s.setStatus v).blen = s.blen := rfl
@[simp] theorem State.setStatus_wcur (s : State) (v : Byte) : (s.setStatus v).wcur = s.wcur := rfl
@[simp] theorem State.setStatus_rcur (s : State) (v : Byte) : (s.setStatus v).rcur = s.rcur := rfl
@[simp] theorem State.setStatus_mem (s : State) (v : Byte) : (s.setStatus v).mem = s.mem := rfl
@[simp] theorem State.setStatus_host (s : State) (v : Byte) : (s.setStatus v).host = s.host := rfl

@[simp] theorem State.setArg_status (s : State) (v : Word) : (s.setArg v).status = s.status := rfl
@[simp] theorem State.setArg_arg (s : State) (v : Word) : (s.setArg v).arg = v := rfl
@[simp] theorem State.setArg_res (s : State) (v : Word) : (s.setArg v).res = s.res := rfl
@[simp] theorem State.setArg_chk (s : State) (v : Word) : (s.setArg v).chk = s.chk := rfl
@[simp] theorem State.setArg_tlen (s : State) (v : Word) : (s.setArg v).tlen = s.tlen := rfl
@[simp] theorem State.setArg_hlen (s : State) (v : Word) : (s.setArg v).hlen = s.hlen := rfl
@[simp] theorem State.setArg_slen (s : State) (v : Word) : (s.setArg v).slen = s.slen := rfl
@[simp] theorem State.setArg_blen (s : State) (v : Word) : (s.setArg v).blen = s.blen := rfl
@[simp] theorem State.setArg_wcur (s : State) (v : Word) : (s.setArg v).wcur = s.wcur := rfl
@[simp] theorem State.setArg_rcur (s : State) (v : Word) : (s.setArg v).rcur = s.rcur := rfl
@[simp] theorem State.setArg_mem (s : State) (v : Word) : (s.setArg v).mem = s.mem := rfl
@[simp] theorem State.setArg_host (s : State) (v : Word) : (s.setArg v).host = s.host := rfl

@[simp] theorem State.setRes_status (s : State) (v : Word) : (s.setRes v).status = s.status := rfl
@[simp] theorem State.setRes_arg (s : State) (v : Word) : (s.setRes v).arg = s.arg := rfl
@[simp] theorem State.setRes_res (s : State) (v : Word) : (s.setRes v).res = v := rfl
@[simp] theorem State.setRes_chk (s : State) (v : Word) : (s.setRes v).chk = s.chk := rfl
@[simp] theorem State.setRes_tlen (s : State) (v : Word) : (s.setRes v).tlen = s.tlen := rfl
@[simp] theorem State.setRes_hlen (s : State) (v : Word) : (s.setRes v).hlen = s.hlen := rfl
@[simp] theorem State.setRes_slen (s : State) (v : Word) : (s.setRes v).slen = s.slen := rfl
@[simp] theorem State.setRes_blen (s : State) (v : Word) : (s.setRes v).blen = s.blen := rfl
@[simp] theorem State.setRes_wcur (s : State) (v : Word) : (s.setRes v).wcur = s.wcur := rfl
@[simp] theorem State.setRes_rcur (s : State) (v : Word) : (s.setRes v).rcur = s.rcur := rfl
@[simp] theorem State.setRes_mem (s : State) (v : Word) : (s.setRes v).mem = s.mem := rfl
@[simp] theorem State.setRes_host (s : State) (v : Word) : (s.setRes v).host = s.host := rfl

@[simp] theorem State.setChk_status (s : State) (v : Chk) : (s.setChk v).status = s.status := rfl
@[simp] theorem State.setChk_arg (s : State) (v : Chk) : (s.setChk v).arg = s.arg := rfl
@[simp] theorem State.setChk_res (s : State) (v : Chk) : (s.setChk v).res = s.res := rfl
@[simp] theorem State.setChk_chk (s : State) (v : Chk) : (s.setChk v).chk = v := rfl
@[simp] theorem State.setChk_tlen (s : State) (v : Chk) : (s.setChk v).tlen = s.tlen := rfl
@[simp] theorem State.setChk_hlen (s : State) (v : Chk) : (s.setChk v).hlen = s.hlen := rfl
@[simp] theorem State.setChk_slen (s : State) (v : Chk) : (s.setChk v).slen = s.slen := rfl
@[simp] theorem State.setChk_blen (s : State) (v : Chk) : (s.setChk v).blen = s.blen := rfl
@[simp] theorem State.setChk_wcur (s : State) (v : Chk) : (s.setChk v).wcur = s.wcur := rfl
@[simp] theorem State.setChk_rcur (s : State) (v : Chk) : (s.setChk v).rcur = s.rcur := rfl
@[simp] theorem State.setChk_mem (s : State) (v : Chk) : (s.setChk v).mem = s.mem := rfl
@[simp] theorem State.setChk_host (s : State) (v : Chk) : (s.setChk v).host = s.host := rfl

@[simp] theorem State.setTlen_status (s : State) (v : Byte) : (s.setTlen v).status = s.status := rfl
@[simp] theorem State.setTlen_arg (s : State) (v : Byte) : (s.setTlen v).arg = s.arg := rfl
@[simp] theorem State.setTlen_res (s : State) (v : Byte) : (s.setTlen v).res = s.res := rfl
@[simp] theorem State.setTlen_chk (s : State) (v : Byte) : (s.setTlen v).chk = s.chk := rfl
@[simp] theorem State.setTlen_tlen (s : State) (v : Byte) : (s.setTlen v).tlen = v := rfl
@[simp] theorem State.setTlen_hlen (s : State) (v : Byte) : (s.setTlen v).hlen = s.hlen := rfl
@[simp] theorem State.setTlen_slen (s : State) (v : Byte) : (s.setTlen v).slen = s.slen := rfl
@[simp] theorem State.setTlen_blen (s : State) (v : Byte) : (s.setTlen v).blen = s.blen := rfl
@[simp] theorem State.setTlen_wcur (s : State) (v : Byte) : (s.setTlen v).wcur = s.wcur := rfl
@[simp] theorem State.setTlen_rcur (s : State) (v : Byte) : (s.setTlen v).rcur = s.rcur := rfl
@[simp] theorem State.setTlen_mem (s : State) (v : Byte) : (s.setTlen v).mem = s.mem := rfl
@[simp] theorem State.setTlen_host (s : State) (v : Byte) : (s.setTlen v).host = s.host := rfl

@[simp] theorem State.setHlen_status (s : State) (v : Byte) : (s.setHlen v).status = s.status := rfl
@[simp] theorem State.setHlen_arg (s : State) (v : Byte) : (s.setHlen v).arg = s.arg := rfl
@[simp] theorem State.setHlen_res (s : State) (v : Byte) : (s.setHlen v).res = s.res := rfl
@[simp] theorem State.setHlen_chk (s : State) (v : Byte) : (s.setHlen v).chk = s.chk := rfl
@[simp] theorem State.setHlen_tlen (s : State) (v : Byte) : (s.setHlen v).tlen = s.tlen := rfl
@[simp] theorem State.setHlen_hlen (s : State) (v : Byte) : (s.setHlen v).hlen = v := rfl
@[simp] theorem State.setHlen_slen (s : State) (v : Byte) : (s.setHlen v).slen = s.slen := rfl
@[simp] theorem State.setHlen_blen (s : State) (v : Byte) : (s.setHlen v).blen = s.blen := rfl
@[simp] theorem State.setHlen_wcur (s : State) (v : Byte) : (s.setHlen v).wcur = s.wcur := rfl
@[simp] theorem State.setHlen_rcur (s : State) (v : Byte) : (s.setHlen v).rcur = s.rcur := rfl
@[simp] theorem State.setHlen_mem (s : State) (v : Byte) : (s.setHlen v).mem = s.mem := rfl
@[simp] theorem State.setHlen_host (s : State) (v : Byte) : (s.setHlen v).host = s.host := rfl

@[simp] theorem State.setSlen_status (s : State) (v : Byte) : (s.setSlen v).status = s.status := rfl
@[simp] theorem State.setSlen_arg (s : State) (v : Byte) : (s.setSlen v).arg = s.arg := rfl
@[simp] theorem State.setSlen_res (s : State) (v : Byte) : (s.setSlen v).res = s.res := rfl
@[simp] theorem State.setSlen_chk (s : State) (v : Byte) : (s.setSlen v).chk = s.chk := rfl
@[simp] theorem State.setSlen_tlen (s : State) (v : Byte) : (s.setSlen v).tlen = s.tlen := rfl
@[simp] theorem State.setSlen_hlen (s : State) (v : Byte) : (s.setSlen v).hlen = s.hlen := rfl
@[simp] theorem State.setSlen_slen (s : State) (v : Byte) : (s.setSlen v).slen = v := rfl
@[simp] theorem State.setSlen_blen (s : State) (v : Byte) : (s.setSlen v).blen = s.blen := rfl
@[simp] theorem State.setSlen_wcur (s : State) (v : Byte) : (s.setSlen v).wcur = s.wcur := rfl
@[simp] theorem State.setSlen_rcur (s : State) (v : Byte) : (s.setSlen v).rcur = s.rcur := rfl
@[simp] theorem State.setSlen_mem (s : State) (v : Byte) : (s.setSlen v).mem = s.mem := rfl
@[simp] theorem State.setSlen_host (s : State) (v : Byte) : (s.setSlen v).host = s.host := rfl

@[simp] theorem State.setBlen_status (s : State) (v : Byte) : (s.setBlen v).status = s.status := rfl
@[simp] theorem State.setBlen_arg (s : State) (v : Byte) : (s.setBlen v).arg = s.arg := rfl
@[simp] theorem State.setBlen_res (s : State) (v : Byte) : (s.setBlen v).res = s.res := rfl
@[simp] theorem State.setBlen_chk (s : State) (v : Byte) : (s.setBlen v).chk = s.chk := rfl
@[simp] theorem State.setBlen_tlen (s : State) (v : Byte) : (s.setBlen v).tlen = s.tlen := rfl
@[simp] theorem State.setBlen_hlen (s : State) (v : Byte) : (s.setBlen v).hlen = s.hlen := rfl
@[simp] theorem State.setBlen_slen (s : State) (v : Byte) : (s.setBlen v).slen = s.slen := rfl
@[simp] theorem State.setBlen_blen (s : State) (v : Byte) : (s.setBlen v).blen = v := rfl
@[simp] theorem State.setBlen_wcur (s : State) (v : Byte) : (s.setBlen v).wcur = s.wcur := rfl
@[simp] theorem State.setBlen_rcur (s : State) (v : Byte) : (s.setBlen v).rcur = s.rcur := rfl
@[simp] theorem State.setBlen_mem (s : State) (v : Byte) : (s.setBlen v).mem = s.mem := rfl
@[simp] theorem State.setBlen_host (s : State) (v : Byte) : (s.setBlen v).host = s.host := rfl

@[simp] theorem State.setWcur_status (s : State) (v : Cursor) : (s.setWcur v).status = s.status := rfl
@[simp] theorem State.setWcur_arg (s : State) (v : Cursor) : (s.setWcur v).arg = s.arg := rfl
@[simp] theorem State.setWcur_res (s : State) (v : Cursor) : (s.setWcur v).res = s.res := rfl
@[simp] theorem State.setWcur_chk (s : State) (v : Cursor) : (s.setWcur v).chk = s.chk := rfl
@[simp] theorem State.setWcur_tlen (s : State) (v : Cursor) : (s.setWcur v).tlen = s.tlen := rfl
@[simp] theorem State.setWcur_hlen (s : State) (v : Cursor) : (s.setWcur v).hlen = s.hlen := rfl
@[simp] theorem State.setWcur_slen (s : State) (v : Cursor) : (s.setWcur v).slen = s.slen := rfl
@[simp] theorem State.setWcur_blen (s : State) (v : Cursor) : (s.setWcur v).blen = s.blen := rfl
@[simp] theorem State.setWcur_wcur (s : State) (v : Cursor) : (s.setWcur v).wcur = v := rfl
@[simp] theorem State.setWcur_rcur (s : State) (v : Cursor) : (s.setWcur v).rcur = s.rcur := rfl
@[simp] theorem State.setWcur_mem (s : State) (v : Cursor) : (s.setWcur v).mem = s.mem := rfl
@[simp] theorem State.setWcur_host (s : State) (v : Cursor) : (s.setWcur v).host = s.host := rfl

@[simp] theorem State.setRcur_status (s : State) (v : Cursor) : (s.setRcur v).status = s.status := rfl
@[simp] theorem State.setRcur_arg (s : State) (v : Cursor) : (s.setRcur v).arg = s.arg := rfl
@[simp] theorem State.setRcur_res (s : State) (v : Cursor) : (s.setRcur v).res = s.res := rfl
@[simp] theorem State.setRcur_chk (s : State) (v : Cursor) : (s.setRcur v).chk = s.chk := rfl
@[simp] theorem State.setRcur_tlen (s : State) (v : Cursor) : (s.setRcur v).tlen = s.tlen := rfl
@[simp] theorem State.setRcur_hlen (s : State) (v : Cursor) : (s.setRcur v).hlen = s.hlen := rfl
@[simp] theorem State.setRcur_slen (s : State) (v : Cursor) : (s.setRcur v).slen = s.slen := rfl
@[simp] theorem State.setRcur_blen (s : State) (v : Cursor) : (s.setRcur v).blen = s.blen := rfl
@[simp] theorem State.setRcur_wcur (s : State) (v : Cursor) : (s.setRcur v).wcur = s.wcur := rfl
@[simp] theorem State.setRcur_rcur (s : State) (v : Cursor) : (s.setRcur v).rcur = v := rfl
@[simp] theorem State.setRcur_mem (s : State) (v : Cursor) : (s.setRcur v).mem = s.mem := rfl
@[simp] theorem State.setRcur_host (s : State) (v : Cursor) : (s.setRcur v).host = s.host := rfl

@[simp] theorem State.setMem_status (s : State) (v : Memory) : (s.setMem v).status = s.status := rfl
@[simp] theorem State.setMem_arg (s : State) (v : Memory) : (s.setMem v).arg = s.arg := rfl
@[simp] theorem State.setMem_res (s : State) (v : Memory) : (s.setMem v).res = s.res := rfl
@[simp] theorem State.setMem_chk (s : State) (v : Memory) : (s.setMem v).chk = s.chk := rfl
@[simp] theorem State.setMem_tlen (s : State) (v : Memory) : (s.setMem v).tlen = s.tlen := rfl
@[simp] theorem State.setMem_hlen (s : State) (v : Memory) : (s.setMem v).hlen = s.hlen := rfl
@[simp] theorem State.setMem_slen (s : State) (v : Memory) : (s.setMem v).slen = s.slen := rfl
@[simp] theorem State.setMem_blen (s : State) (v : Memory) : (s.setMem v).blen = s.blen := rfl
@[simp] theorem State.setMem_wcur (s : State) (v : Memory) : (s.setMem v).wcur = s.wcur := rfl
@[simp] theorem State.setMem_rcur (s : State) (v : Memory) : (s.setMem v).rcur = s.rcur := rfl
@[simp] theorem State.setMem_mem (s : State) (v : Memory) : (s.setMem v).mem = v := rfl
@[simp] theorem State.setMem_host (s : State) (v : Memory) : (s.setMem v).host = s.host := rfl

@[simp] theorem State.setHost_status (s : State) (v : HostSide) : (s.setHost v).status = s.status := rfl
@[simp] theorem State.setHost_arg (s : State) (v : HostSide) : (s.setHost v).arg = s.arg := rfl
@[simp] theorem State.setHost_res (s : State) (v : HostSide) : (s.setHost v).res = s.res := rfl
@[simp] theorem State.setHost_chk (s : State) (v : HostSide) : (s.setHost v).chk = s.chk := rfl
@[simp] theorem State.setHost_tlen (s : State) (v : HostSide) : (s.setHost v).tlen = s.tlen := rfl
@[simp] theorem State.setHost_hlen (s : State) (v : HostSide) : (s.setHost v).hlen = s.hlen := rfl
@[simp] theorem State.setHost_slen (s : State) (v : HostSide) : (s.setHost v).slen = s.slen := rfl
@[simp] theorem State.setHost_blen (s : State) (v : HostSide) : (s.setHost v).blen = s.blen := rfl
@[simp] theorem State.setHost_wcur (s : State) (v : HostSide) : (s.setHost v).wcur = s.wcur := rfl
@[simp] theorem State.setHost_rcur (s : State) (v : HostSide) : (s.setHost v).rcur = s.rcur := rfl
@[simp] theorem State.setHost_mem (s : State) (v : HostSide) : (s.setHost v).mem = s.mem := rfl
@[simp] theorem State.setHost_host (s : State) (v : HostSide) : (s.setHost v).host = v := rfl

@[simp] theorem Memory.setTxt_txt (m : Memory) (b : Buffer 8) : (m.setTxt b).txt = b := rfl
@[simp] theorem Memory.setTxt_hrp (m : Memory) (b : Buffer 8) : (m.setTxt b).hrp = m.hrp := rfl
@[simp] theorem Memory.setTxt_sym (m : Memory) (b : Buffer 8) : (m.setTxt b).sym = m.sym := rfl
@[simp] theorem Memory.setTxt_byt (m : Memory) (b : Buffer 8) : (m.setTxt b).byt = m.byt := rfl

@[simp] theorem Memory.setHrp_txt (m : Memory) (b : Buffer 8) : (m.setHrp b).txt = m.txt := rfl
@[simp] theorem Memory.setHrp_hrp (m : Memory) (b : Buffer 8) : (m.setHrp b).hrp = b := rfl
@[simp] theorem Memory.setHrp_sym (m : Memory) (b : Buffer 8) : (m.setHrp b).sym = m.sym := rfl
@[simp] theorem Memory.setHrp_byt (m : Memory) (b : Buffer 8) : (m.setHrp b).byt = m.byt := rfl

@[simp] theorem Memory.setSym_txt (m : Memory) (b : Buffer 5) : (m.setSym b).txt = m.txt := rfl
@[simp] theorem Memory.setSym_hrp (m : Memory) (b : Buffer 5) : (m.setSym b).hrp = m.hrp := rfl
@[simp] theorem Memory.setSym_sym (m : Memory) (b : Buffer 5) : (m.setSym b).sym = b := rfl
@[simp] theorem Memory.setSym_byt (m : Memory) (b : Buffer 5) : (m.setSym b).byt = m.byt := rfl

@[simp] theorem Memory.setByt_txt (m : Memory) (b : Buffer 8) : (m.setByt b).txt = m.txt := rfl
@[simp] theorem Memory.setByt_hrp (m : Memory) (b : Buffer 8) : (m.setByt b).hrp = m.hrp := rfl
@[simp] theorem Memory.setByt_sym (m : Memory) (b : Buffer 8) : (m.setByt b).sym = m.sym := rfl
@[simp] theorem Memory.setByt_byt (m : Memory) (b : Buffer 8) : (m.setByt b).byt = b := rfl

@[simp] theorem State.setTxt_status (s : State) (b : Buffer 8) : (s.setTxt b).status = s.status := rfl
@[simp] theorem State.setTxt_arg (s : State) (b : Buffer 8) : (s.setTxt b).arg = s.arg := rfl
@[simp] theorem State.setTxt_res (s : State) (b : Buffer 8) : (s.setTxt b).res = s.res := rfl
@[simp] theorem State.setTxt_chk (s : State) (b : Buffer 8) : (s.setTxt b).chk = s.chk := rfl
@[simp] theorem State.setTxt_tlen (s : State) (b : Buffer 8) : (s.setTxt b).tlen = s.tlen := rfl
@[simp] theorem State.setTxt_hlen (s : State) (b : Buffer 8) : (s.setTxt b).hlen = s.hlen := rfl
@[simp] theorem State.setTxt_slen (s : State) (b : Buffer 8) : (s.setTxt b).slen = s.slen := rfl
@[simp] theorem State.setTxt_blen (s : State) (b : Buffer 8) : (s.setTxt b).blen = s.blen := rfl
@[simp] theorem State.setTxt_wcur (s : State) (b : Buffer 8) : (s.setTxt b).wcur = s.wcur := rfl
@[simp] theorem State.setTxt_rcur (s : State) (b : Buffer 8) : (s.setTxt b).rcur = s.rcur := rfl
@[simp] theorem State.setTxt_mem (s : State) (b : Buffer 8) : (s.setTxt b).mem = s.mem.setTxt b := rfl
@[simp] theorem State.setTxt_host (s : State) (b : Buffer 8) : (s.setTxt b).host = s.host := rfl

@[simp] theorem State.setHrp_status (s : State) (b : Buffer 8) : (s.setHrp b).status = s.status := rfl
@[simp] theorem State.setHrp_arg (s : State) (b : Buffer 8) : (s.setHrp b).arg = s.arg := rfl
@[simp] theorem State.setHrp_res (s : State) (b : Buffer 8) : (s.setHrp b).res = s.res := rfl
@[simp] theorem State.setHrp_chk (s : State) (b : Buffer 8) : (s.setHrp b).chk = s.chk := rfl
@[simp] theorem State.setHrp_tlen (s : State) (b : Buffer 8) : (s.setHrp b).tlen = s.tlen := rfl
@[simp] theorem State.setHrp_hlen (s : State) (b : Buffer 8) : (s.setHrp b).hlen = s.hlen := rfl
@[simp] theorem State.setHrp_slen (s : State) (b : Buffer 8) : (s.setHrp b).slen = s.slen := rfl
@[simp] theorem State.setHrp_blen (s : State) (b : Buffer 8) : (s.setHrp b).blen = s.blen := rfl
@[simp] theorem State.setHrp_wcur (s : State) (b : Buffer 8) : (s.setHrp b).wcur = s.wcur := rfl
@[simp] theorem State.setHrp_rcur (s : State) (b : Buffer 8) : (s.setHrp b).rcur = s.rcur := rfl
@[simp] theorem State.setHrp_mem (s : State) (b : Buffer 8) : (s.setHrp b).mem = s.mem.setHrp b := rfl
@[simp] theorem State.setHrp_host (s : State) (b : Buffer 8) : (s.setHrp b).host = s.host := rfl

@[simp] theorem State.setSym_status (s : State) (b : Buffer 5) : (s.setSym b).status = s.status := rfl
@[simp] theorem State.setSym_arg (s : State) (b : Buffer 5) : (s.setSym b).arg = s.arg := rfl
@[simp] theorem State.setSym_res (s : State) (b : Buffer 5) : (s.setSym b).res = s.res := rfl
@[simp] theorem State.setSym_chk (s : State) (b : Buffer 5) : (s.setSym b).chk = s.chk := rfl
@[simp] theorem State.setSym_tlen (s : State) (b : Buffer 5) : (s.setSym b).tlen = s.tlen := rfl
@[simp] theorem State.setSym_hlen (s : State) (b : Buffer 5) : (s.setSym b).hlen = s.hlen := rfl
@[simp] theorem State.setSym_slen (s : State) (b : Buffer 5) : (s.setSym b).slen = s.slen := rfl
@[simp] theorem State.setSym_blen (s : State) (b : Buffer 5) : (s.setSym b).blen = s.blen := rfl
@[simp] theorem State.setSym_wcur (s : State) (b : Buffer 5) : (s.setSym b).wcur = s.wcur := rfl
@[simp] theorem State.setSym_rcur (s : State) (b : Buffer 5) : (s.setSym b).rcur = s.rcur := rfl
@[simp] theorem State.setSym_mem (s : State) (b : Buffer 5) : (s.setSym b).mem = s.mem.setSym b := rfl
@[simp] theorem State.setSym_host (s : State) (b : Buffer 5) : (s.setSym b).host = s.host := rfl

@[simp] theorem State.setByt_status (s : State) (b : Buffer 8) : (s.setByt b).status = s.status := rfl
@[simp] theorem State.setByt_arg (s : State) (b : Buffer 8) : (s.setByt b).arg = s.arg := rfl
@[simp] theorem State.setByt_res (s : State) (b : Buffer 8) : (s.setByt b).res = s.res := rfl
@[simp] theorem State.setByt_chk (s : State) (b : Buffer 8) : (s.setByt b).chk = s.chk := rfl
@[simp] theorem State.setByt_tlen (s : State) (b : Buffer 8) : (s.setByt b).tlen = s.tlen := rfl
@[simp] theorem State.setByt_hlen (s : State) (b : Buffer 8) : (s.setByt b).hlen = s.hlen := rfl
@[simp] theorem State.setByt_slen (s : State) (b : Buffer 8) : (s.setByt b).slen = s.slen := rfl
@[simp] theorem State.setByt_blen (s : State) (b : Buffer 8) : (s.setByt b).blen = s.blen := rfl
@[simp] theorem State.setByt_wcur (s : State) (b : Buffer 8) : (s.setByt b).wcur = s.wcur := rfl
@[simp] theorem State.setByt_rcur (s : State) (b : Buffer 8) : (s.setByt b).rcur = s.rcur := rfl
@[simp] theorem State.setByt_mem (s : State) (b : Buffer 8) : (s.setByt b).mem = s.mem.setByt b := rfl
@[simp] theorem State.setByt_host (s : State) (b : Buffer 8) : (s.setByt b).host = s.host := rfl

/-- Two states with the same fields are the same state. -/
theorem State.ext_fields {s t : State} (h1 : s.status = t.status) (h2 : s.arg = t.arg) (h3 : s.res = t.res)
    (h4 : s.chk = t.chk) (h5 : s.tlen = t.tlen) (h6 : s.hlen = t.hlen) (h7 : s.slen = t.slen)
    (h8 : s.blen = t.blen) (h9 : s.wcur = t.wcur) (h10 : s.rcur = t.rcur) (h11 : s.mem = t.mem)
    (h12 : s.host = t.host) : s = t := by
  cases s; cases t; simp_all

end Sys2Proof.Machine
end

