-- ==== Sys2Proof/Laws/Memory.lean ====
section
/-! SUPPORT. The laws of cells: a read after a write, ranges, and that every memory operation keeps the canonical
form. -/

namespace Sys2Proof.Machine

variable {w : Nat}

/-! ## Reading after writing one cell -/

@[simp] theorem Buffer.read_nil (i : Nat) : Buffer.read ([] : Buffer w) i = 0 := rfl

theorem Buffer.read_erase (b : Buffer w) (i k : Nat) :
    Buffer.read (Buffer.erase b i) k = if k = i then 0 else Buffer.read b k := by
  induction b with
  | nil => simp [Buffer.erase, Buffer.read]
  | cons c rest ih =>
    obtain ⟨j, u⟩ := c
    simp only [Buffer.erase] at ih
    by_cases hj : j = i
    · subst hj
      simp only [Buffer.erase, List.filter_cons, ne_eq, not_true_eq_false, decide_false, Bool.false_eq_true,
        if_false, Buffer.read, ih]
      split <;> rfl
    · simp only [Buffer.erase, List.filter_cons, ne_eq, hj, not_false_eq_true, decide_true, if_true, Buffer.read,
        ih]
      split
      · subst_vars; simp [hj]
      · rfl

/-- Inserting a cell that is not listed changes what that cell reads as and no other. -/
theorem Buffer.read_insert (b : Buffer w) (i : Nat) (v : BitVec w) (hb : ∀ c ∈ b, c.1 ≠ i) (k : Nat) :
    Buffer.read (Buffer.insert b i v) k = if k = i then v else Buffer.read b k := by
  induction b with
  | nil => simp [Buffer.insert, Buffer.read]
  | cons c rest ih =>
    obtain ⟨j, u⟩ := c
    have hj : j ≠ i := hb (j, u) (by simp)
    have ih := ih fun c hc => hb c (by simp [hc])
    simp only [Buffer.insert]
    split
    · simp [Buffer.read]
    · simp only [Buffer.read, ih]
      split
      · subst_vars; simp [hj]
      · rfl

theorem Buffer.read_put (b : Buffer w) (i : Nat) (v : BitVec w) (k : Nat) :
    Buffer.read (Buffer.put b i v) k = if k = i then v else Buffer.read b k := by
  unfold Buffer.put
  split
  · subst_vars; exact Buffer.read_erase b i k
  · rw [Buffer.read_insert _ _ _ (by simp [Buffer.erase]), Buffer.read_erase]
    split <;> rfl

/-- A read after a write: the value written, or what the cell held (R13). -/
theorem Buffer.read_write (b : Buffer w) (i : Nat) (v : BitVec w) (k : Nat) :
    Buffer.read (Buffer.write b i v) k = if k = i ∧ i < Config.memCells then v else Buffer.read b k := by
  unfold Buffer.write
  split
  · next h => simp [Buffer.read_put, h]
  · next h => simp [h]

theorem Buffer.read_write_same (b : Buffer w) {i : Nat} (h : i < Config.memCells) (v : BitVec w) :
    Buffer.read (Buffer.write b i v) i = v := by
  simp [Buffer.read_write, h]

theorem Buffer.read_write_other (b : Buffer w) {i k : Nat} (h : k ≠ i) (v : BitVec w) :
    Buffer.read (Buffer.write b i v) k = Buffer.read b k := by
  simp [Buffer.read_write, h]

/-! ## Lists of cells -/

/-- What a cell reads as after a list has been written within the 256 cells. -/
theorem Buffer.read_writeList (b : Buffer w) (start : Nat) (vs : List (BitVec w))
    (h : start + vs.length ≤ Config.memCells) (k : Nat) :
    Buffer.read (Buffer.writeList b start vs) k =
      if start ≤ k ∧ k < start + vs.length then vs.getD (k - start) 0 else Buffer.read b k := by
  induction vs generalizing b start with
  | nil =>
    have : ¬ (start ≤ k ∧ k < start + 0) := by omega
    simp [Buffer.writeList]
  | cons v vs ih =>
    simp only [List.length_cons] at h
    rw [Buffer.writeList, ih _ _ (by omega), Buffer.read_write]
    by_cases hk : k = start
    · subst hk
      have h1 : ¬ (k + 1 ≤ k ∧ k < k + 1 + vs.length) := by omega
      have h2 : k < Config.memCells := by omega
      simp [h2]
    · simp only [hk, false_and, if_false, List.length_cons]
      by_cases h3 : start + 1 ≤ k ∧ k < start + 1 + vs.length
      · have h4 : start ≤ k ∧ k < start + (vs.length + 1) := by omega
        have h5 : k - start = (k - (start + 1)) + 1 := by omega
        simp [h3, h4, h5]
      · have h4 : ¬ (start ≤ k ∧ k < start + (vs.length + 1)) := by omega
        rw [if_neg h3, if_neg h4]

@[simp] theorem Buffer.length_slice (b : Buffer w) (start len : Nat) : (Buffer.slice b start len).length = len := by
  induction len generalizing start with
  | zero => rfl
  | succ n ih => simp [Buffer.slice, ih]

/-- The meanings' ranges are the spec's `BUF[a..b)`. -/
theorem Buffer.slice_eq_rangeOf (b : Buffer w) (start len : Nat) :
    Buffer.slice b start len = rangeOf b start len := by
  induction len generalizing start with
  | zero => rfl
  | succ n ih =>
    simp only [Buffer.slice, ih, rangeOf, List.range_succ_eq_map, List.map_cons, Nat.add_zero, List.map_map]
    congr 1
    apply List.map_congr_left
    intro k _
    show Buffer.read b (start + 1 + k) = Buffer.read b (start + (k + 1))
    rw [show start + 1 + k = start + (k + 1) by omega]

@[simp] theorem length_rangeOf (b : Buffer w) (start len : Nat) : (rangeOf b start len).length = len := by
  simp [rangeOf]

/-- A range that has just been written reads back as what was written. -/
theorem rangeOf_writeList (b : Buffer w) (start : Nat) (vs : List (BitVec w))
    (h : start + vs.length ≤ Config.memCells) : rangeOf (Buffer.writeList b start vs) start vs.length = vs := by
  apply List.ext_getElem (by simp)
  intro i h1 h2
  simp only [rangeOf, List.getElem_map, List.getElem_range]
  rw [Buffer.read_writeList _ _ _ h]
  have h3 : i < vs.length := h2
  simp [h3]

/-! ## The canonical form -/

theorem Buffer.wfFrom_mono {lo lo' : Nat} (hlo : lo' ≤ lo) (b : Buffer w) (h : Buffer.wfFrom lo b = true) :
    Buffer.wfFrom lo' b = true := by
  cases b with
  | nil => rfl
  | cons c rest =>
    obtain ⟨i, v⟩ := c
    simp only [Buffer.wfFrom, Bool.and_eq_true, decide_eq_true_eq] at h ⊢
    exact ⟨⟨⟨by omega, h.1.1.2⟩, h.1.2⟩, h.2⟩

theorem Buffer.wfFrom_erase (b : Buffer w) (lo i : Nat) (h : Buffer.wfFrom lo b = true) :
    Buffer.wfFrom lo (Buffer.erase b i) = true := by
  induction b generalizing lo with
  | nil => rfl
  | cons c rest ih =>
    obtain ⟨j, u⟩ := c
    simp only [Buffer.wfFrom, Bool.and_eq_true, decide_eq_true_eq] at h
    simp only [Buffer.erase] at ih
    by_cases hj : j = i
    · simp only [Buffer.erase, List.filter_cons, hj, ne_eq, not_true_eq_false, decide_false, Bool.false_eq_true,
        if_false]
      exact Buffer.wfFrom_mono (by omega) _ (ih _ h.2)
    · simp only [Buffer.erase, List.filter_cons, hj, ne_eq, not_false_eq_true, decide_true, if_true, Buffer.wfFrom,
        Bool.and_eq_true, decide_eq_true_eq]
      exact ⟨h.1, ih _ h.2⟩

theorem Buffer.wfFrom_insert (b : Buffer w) (lo i : Nat) (v : BitVec w) (hi : lo ≤ i) (hlt : i < Config.memCells)
    (hv : v ≠ 0) (hb : ∀ c ∈ b, c.1 ≠ i) (h : Buffer.wfFrom lo b = true) :
    Buffer.wfFrom lo (Buffer.insert b i v) = true := by
  induction b generalizing lo with
  | nil => simpa [Buffer.insert, Buffer.wfFrom, hi, hlt] using hv
  | cons c rest ih =>
    obtain ⟨j, u⟩ := c
    have hj : j ≠ i := hb (j, u) (by simp)
    have hr : ∀ c ∈ rest, c.1 ≠ i := fun c hc => hb c (by simp [hc])
    simp only [Buffer.wfFrom, Bool.and_eq_true, decide_eq_true_eq] at h
    simp only [Buffer.insert]
    split
    · next hij =>
      simp only [Buffer.wfFrom, Bool.and_eq_true, decide_eq_true_eq]
      exact ⟨⟨⟨hi, hlt⟩, hv⟩, ⟨⟨by omega, h.1.1.2⟩, h.1.2⟩, h.2⟩
    · next hij =>
      simp only [Buffer.wfFrom, Bool.and_eq_true, decide_eq_true_eq]
      exact ⟨h.1, ih _ (by omega) hr h.2⟩

/-- Every write keeps the canonical form. -/
theorem Buffer.wf_write (b : Buffer w) (i : Nat) (v : BitVec w) (h : Buffer.wf b = true) :
    Buffer.wf (Buffer.write b i v) = true := by
  unfold Buffer.write
  split
  · next hi =>
    unfold Buffer.put
    split
    · exact Buffer.wfFrom_erase b 0 i h
    · next hv =>
      exact Buffer.wfFrom_insert _ 0 i v (Nat.zero_le i) hi hv (by simp [Buffer.erase])
        (Buffer.wfFrom_erase b 0 i h)
  · exact h

theorem Buffer.wf_writeList (b : Buffer w) (start : Nat) (vs : List (BitVec w)) (h : Buffer.wf b = true) :
    Buffer.wf (Buffer.writeList b start vs) = true := by
  induction vs generalizing b start with
  | nil => exact h
  | cons v vs ih => exact ih _ _ (Buffer.wf_write b start v h)

theorem Memory.wf_iff (m : Memory) :
    m.wf = true ↔ Buffer.wf m.txt = true ∧ Buffer.wf m.hrp = true ∧ Buffer.wf m.sym = true ∧
      Buffer.wf m.byt = true := by
  simp [Memory.wf, and_assoc]

theorem Memory.wf_writeCell (m : Memory) (b : BufName) (i : Nat) (d : Word) (h : m.wf = true) :
    (m.writeCell b i d).wf = true := by
  rw [Memory.wf_iff] at h ⊢
  obtain ⟨h1, h2, h3, h4⟩ := h
  cases b <;> simp [Memory.writeCell, Buffer.wf_write, *]

theorem Memory.wf_reset : Memory.reset.wf = true := rfl

end Sys2Proof.Machine
end

