-- ==== Sys2Proof/Laws/Ops.lean ====
section
/-! SUPPORT. What each shared operation can do, said once: the two ways a command ends, the folds of the polymod, the
port's accesses and the replay of a host program. -/

namespace Sys2Proof.Machine

/-! ## How a command ends -/

theorem raise_eq (c : StatusCode) (s : State) : raise c s = .next (s.setStatus c.code) := rfl

theorem finish_eq (s : State) : finish s = .next (s.setStatus 0x00#8) := rfl

theorem raise_next {c : StatusCode} {s t : State} (h : raise c s = .next t) : t = s.setStatus c.code := by
  simpa [raise_eq] using h.symm

theorem finish_next {s t : State} (h : finish s = .next t) : t = s.setStatus 0x00#8 := by
  simpa [finish_eq] using h.symm

@[simp] theorem illegalCommand_eq (s : State) : illegalCommand s = .next (s.setStatus 0x80#8) := rfl

theorem StatusCode.code_mem (c : StatusCode) : c.code ∈ StatusCode.all.map StatusCode.code := by
  cases c <;> decide

/-- Only OK has the code 0x00. -/
theorem StatusCode.code_eq_zero {c : StatusCode} : c.code = 0x00#8 ↔ c = .ok := by
  cases c <;> decide

/-! ## The operand ranges -/

theorem State.txtText_eq (s : State) : s.txtText = rangeOf s.mem.txt 0 s.tlen.toNat := Buffer.slice_eq_rangeOf ..

theorem State.hrpText_eq (s : State) : s.hrpText = rangeOf s.mem.hrp 0 s.hlen.toNat := Buffer.slice_eq_rangeOf ..

theorem State.symbols_eq (s : State) : s.symbols = rangeOf s.mem.sym 0 s.slen.toNat := Buffer.slice_eq_rangeOf ..

/-! ## The polymod's folds (R151) -/

@[simp] theorem polymodFrom_nil (c : Chk) : polymodFrom c [] = c := rfl

@[simp] theorem polymodFrom_cons (c : Chk) (v : Sym) (vs : List Sym) :
    polymodFrom c (v :: vs) = polymodFrom (polymodStep c v) vs := rfl

/-- Folding splits at any point (R151). -/
theorem polymodFrom_append (c : Chk) (xs ys : List Sym) :
    polymodFrom c (xs ++ ys) = polymodFrom (polymodFrom c xs) ys := by
  simp [polymodFrom]

theorem selected_xor (a b : Bool) (g : Chk) : selected (a ^^ b) g = selected a g ^^^ selected b g := by
  cases a <;> cases b <;> simp [selected]

@[simp] theorem length_slice6 (c : Chk) : (slice6 c).length = 6 := rfl

@[simp] theorem length_zeros (k : Nat) : (zeros k).length = k := by simp [zeros]

/-! ## The port -/

theorem accessRefusal_eq_none {width : Nat} {a : PortAddr} :
    accessRefusal width a = none ↔ width = 32 ∧ a.toNat % 4 = 0 := by
  unfold accessRefusal
  split
  · simp [*]
  · split <;> simp_all

/-- A read that completes: 32 bits, aligned, the port's value and the same state (R63, R66). -/
theorem accessPort_read_next {width : Nat} {a : PortAddr} {s t : State} {v : Word} :
    accessPort (.read width a) s = .next (v, t) ↔
      width = 32 ∧ a.toNat % 4 = 0 ∧ v = portRead a s ∧ t = s := by
  simp only [accessPort]
  cases h : accessRefusal width a with
  | none =>
    have h1 := accessRefusal_eq_none.mp h
    simp only [Host.Outcome.next.injEq, Prod.mk.injEq]
    exact ⟨fun ⟨hv, ht⟩ => ⟨h1.1, h1.2, hv.symm, ht.symm⟩, fun ⟨_, _, hv, ht⟩ => ⟨hv.symm, ht.symm⟩⟩
  | some r =>
    constructor
    · intro h2; cases h2
    · rintro ⟨h1, h2, -, -⟩
      rw [accessRefusal_eq_none.mpr ⟨h1, h2⟩] at h
      cases h

/-- A write that completes: 32 bits, aligned, the value 0 and the state the port write answers (R66). -/
theorem accessPort_write_next {width : Nat} {a : PortAddr} {d : Word} {s t : State} {v : Word} :
    accessPort (.write width a d) s = .next (v, t) ↔
      width = 32 ∧ a.toNat % 4 = 0 ∧ v = 0#32 ∧ portWrite a d s = .next t := by
  simp only [accessPort]
  cases h : accessRefusal width a with
  | none =>
    have h1 := accessRefusal_eq_none.mp h
    cases hw : portWrite a d s with
    | next u =>
      simp only [Host.Outcome.next.injEq, Prod.mk.injEq]
      exact ⟨fun ⟨hv, ht⟩ => ⟨h1.1, h1.2, hv.symm, ht⟩, fun ⟨_, _, hv, ht⟩ => ⟨hv.symm, ht⟩⟩
    | fault f => simp
    | refused r => simp
  | some r =>
    constructor
    · intro h2; cases h2
    · rintro ⟨h1, h2, -, -⟩
      rw [accessRefusal_eq_none.mpr ⟨h1, h2⟩] at h
      cases h

/-- The address map and the locations of the host-program syntax agree (R61, R62). -/
theorem locate_reg (r : Reg) : locate r.addr = some (.reg r) := by
  cases r <;> rfl

theorem locate_cell (b : BufName) {i : Nat} (h : i < Config.memCells) :
    locate (Loc.cell b i).addr = some (.cell b i) := by
  have h : i < 256 := h
  cases b with
  | txt =>
    have ht : (Loc.cell .txt i).addr.toNat = 0x0400 + 4 * i := Nat.mod_eq_of_lt (show 0x0400 + 4 * i < 2 ^ 13 by omega)
    unfold locate
    rw [ht]
    rw [if_neg (show ¬ 0x0400 + 4 * i < 0x0400 by omega),
      if_pos (show 0x0400 + 4 * i < 0x0800 by omega),
      show (0x0400 + 4 * i - 0x0400) / 4 = i by omega]
  | hrp =>
    have ht : (Loc.cell .hrp i).addr.toNat = 0x0800 + 4 * i := Nat.mod_eq_of_lt (show 0x0800 + 4 * i < 2 ^ 13 by omega)
    unfold locate
    rw [ht]
    rw [if_neg (show ¬ 0x0800 + 4 * i < 0x0400 by omega),
      if_neg (show ¬ 0x0800 + 4 * i < 0x0800 by omega),
      if_pos (show 0x0800 + 4 * i < 0x0C00 by omega),
      show (0x0800 + 4 * i - 0x0800) / 4 = i by omega]
  | sym =>
    have ht : (Loc.cell .sym i).addr.toNat = 0x0C00 + 4 * i := Nat.mod_eq_of_lt (show 0x0C00 + 4 * i < 2 ^ 13 by omega)
    unfold locate
    rw [ht]
    rw [if_neg (show ¬ 0x0C00 + 4 * i < 0x0400 by omega),
      if_neg (show ¬ 0x0C00 + 4 * i < 0x0800 by omega),
      if_neg (show ¬ 0x0C00 + 4 * i < 0x0C00 by omega),
      if_pos (show 0x0C00 + 4 * i < 0x1000 by omega),
      show (0x0C00 + 4 * i - 0x0C00) / 4 = i by omega]
  | byt =>
    have ht : (Loc.cell .byt i).addr.toNat = 0x1000 + 4 * i := Nat.mod_eq_of_lt (show 0x1000 + 4 * i < 2 ^ 13 by omega)
    unfold locate
    rw [ht]
    rw [if_neg (show ¬ 0x1000 + 4 * i < 0x0400 by omega),
      if_neg (show ¬ 0x1000 + 4 * i < 0x0800 by omega),
      if_neg (show ¬ 0x1000 + 4 * i < 0x0C00 by omega),
      if_neg (show ¬ 0x1000 + 4 * i < 0x1000 by omega),
      if_pos (show 0x1000 + 4 * i < 0x1400 by omega),
      show (0x1000 + 4 * i - 0x1000) / 4 = i by omega]

/-! ## The replay of a host program -/

@[simp] theorem Prog.resume_nil (p : Prog) : p.resume [] = p := by
  cases p <;> rfl

/-- Replaying in two parts. -/
theorem Prog.resume_append (p : Prog) (xs ys : List Word) : p.resume (xs ++ ys) = (p.resume xs).resume ys := by
  induction xs generalizing p with
  | nil => simp
  | cons x xs ih =>
    cases p with
    | done o => cases ys <;> cases xs <;> rfl
    | refuse r => cases ys <;> cases xs <;> rfl
    | fault f => cases ys <;> cases xs <;> rfl
    | rd a k => exact ih (k x)
    | wr a d k => exact ih k

end Sys2Proof.Machine
end

