-- ==== Sys2Proof/Laws/PerInstr.lean ====
section
/-! SUPPORT. Facts about every instruction as syntax, one lemma per constructor: family EncodedFields. -/

namespace Sys2Proof.Laws.EncodedFields

/-- The encoding of a command has its opcode in W[31:24], and every bit of W[23:0] outside the format's FIELD_MASK
is 0, whatever the operands (R90, R92 to R98). -/
def Statement (i : Instr) : Prop :=
  opField (encode i) = i.opcode.code.toNat ∧ encode i &&& 0xFFFFFF#32 &&& ~~~i.opcode.format.fieldMask = 0#32

/-- The OP byte stands above the operand bits. -/
theorem opField_append (c : Byte) (x : BitVec 24) : opField (c ++ x : BitVec 32) = c.toNat := by
  show ((c ++ x : BitVec 32).extractLsb' 24 8).toNat = c.toNat
  rw [BitVec.extractLsb'_toNat, BitVec.toNat_append, ← Nat.shiftLeft_add_eq_or_of_lt x.isLt, Nat.shiftLeft_eq,
    Nat.shiftRight_eq_div_pow]
  omega

theorem opField_encode (i : Instr) : opField (encode i) = i.opcode.code.toNat := opField_append _ _

/-- The reserved bits of a word are those of its operand bits, zero-extended. -/
theorem reserved_append (c : Byte) (x : BitVec 24) (m : Word) :
    (c ++ x : BitVec 32) &&& 0xFFFFFF#32 &&& ~~~m = x.setWidth 32 &&& ~~~m := by
  have h : (c ++ x : BitVec 32) &&& 0xFFFFFF#32 = x.setWidth 32 := by
    apply BitVec.eq_of_toNat_eq
    rw [BitVec.toNat_and, BitVec.toNat_append, BitVec.toNat_setWidth]
    show (c.toNat <<< 24 ||| x.toNat) &&& (2 ^ 24 - 1) = _
    rw [Nat.and_two_pow_sub_one_eq_mod, ← Nat.shiftLeft_add_eq_or_of_lt x.isLt, Nat.shiftLeft_eq]
    omega
  rw [h]

/-- A word below 2^k has no bit outside a mask of k ones. -/
theorem and_not_ones (k : Nat) (y : Word) (h : y.toNat < 2 ^ k) : y &&& ~~~(BitVec.ofNat 32 (2 ^ k - 1)) = 0#32 := by
  apply BitVec.eq_of_getLsbD_eq
  intro j hj
  by_cases hk : j < k
  · simp [hj, hk, BitVec.getLsbD_ofNat]
  · have : y.getLsbD j = false := by
      rw [BitVec.getLsbD, Nat.testBit_lt_two_pow (lt_of_lt_of_le h (Nat.pow_le_pow_right (by decide) (by omega)))]
    simp [this]

/-- Zeros above a field leave it below its width's power of two. -/
theorem zeros_append_lt {a k : Nat} (x : BitVec k) : (0#a ++ x : BitVec (a + k)).toNat < 2 ^ k := by
  simp only [BitVec.toNat_append, BitVec.toNat_ofNat, Nat.zero_mod, Nat.zero_shiftLeft, Nat.zero_or]
  exact x.isLt

/-- The statement of a format whose mask is k ones, from the bound on the operand bits. -/
theorem of_bound {i : Instr} (k : Nat) (hm : i.opcode.format.fieldMask = BitVec.ofNat 32 (2 ^ k - 1))
    (h : i.operandBits.toNat < 2 ^ k) : Statement i := by
  refine ⟨opField_encode i, ?_⟩
  rw [encode, reserved_append, hm]
  apply and_not_ones
  rw [BitVec.toNat_setWidth]
  exact lt_of_le_of_lt (Nat.mod_le _ _) h

theorem nop : Statement .nop := of_bound 0 rfl (by decide)

theorem softReset : Statement .softReset := of_bound 0 rfl (by decide)

theorem pmInit : Statement .pmInit := of_bound 0 rfl (by decide)

theorem pmStep (imm5 : Sym) : Statement (.pmStep imm5) := of_bound 5 rfl (zeros_append_lt _)

theorem pmHrp : Statement .pmHrp := of_bound 0 rfl (by decide)

theorem pmSyms (start len : Nat) : Statement (.pmSyms start len) := of_bound 16 rfl (by
    show (0#8 ++ BitVec.ofNat 8 len ++ BitVec.ofNat 8 start : BitVec 24).toNat < 2 ^ 16
    rw [BitVec.append_assoc]
    exact zeros_append_lt (BitVec.ofNat 8 len ++ BitVec.ofNat 8 start))

theorem pmZeros (cnt : Nat) : Statement (.pmZeros cnt) := of_bound 8 rfl (zeros_append_lt _)

theorem pmXorm (v : Variant) : Statement (.pmXorm v) := of_bound 1 rfl (zeros_append_lt _)

theorem pmCmpm (v : Variant) : Statement (.pmCmpm v) := of_bound 1 rfl (zeros_append_lt _)

theorem pmEmit : Statement .pmEmit := of_bound 0 rfl (by decide)

theorem ckCreate (v : Variant) : Statement (.ckCreate v) := of_bound 1 rfl (zeros_append_lt _)

theorem ckVerify (v : Variant) : Statement (.ckVerify v) := of_bound 1 rfl (zeros_append_lt _)

theorem alEnc : Statement .alEnc := of_bound 0 rfl (by decide)

theorem alDec : Statement .alDec := of_bound 0 rfl (by decide)

theorem bcEncode (v : Variant) : Statement (.bcEncode v) := of_bound 1 rfl (zeros_append_lt _)

theorem bcDecode (v : Variant) : Statement (.bcDecode v) := of_bound 1 rfl (zeros_append_lt _)

theorem agClear : Statement .agClear := of_bound 0 rfl (by decide)

theorem agAppendL (n : Nat) : Statement (.agAppendL n) := of_bound 5 rfl (zeros_append_lt _)

theorem agAppendM (n : Nat) : Statement (.agAppendM n) := of_bound 5 rfl (zeros_append_lt _)

theorem enStart : Statement .enStart := of_bound 0 rfl (by decide)

theorem enNextL (n : Nat) : Statement (.enNextL n) := of_bound 5 rfl (zeros_append_lt _)

theorem enNextM (n : Nat) : Statement (.enNextM n) := of_bound 5 rfl (zeros_append_lt _)

theorem cvConvert (d : Direction) (pad : Bool) (src dst : Nat) : Statement (.cvConvert d pad src dst) := by
  refine ⟨opField_encode _, ?_⟩
  rw [encode, reserved_append]
  apply BitVec.eq_of_getLsbD_eq
  intro j hj
  simp only [Instr.operandBits, Instr.opcode, Opcode.format, Format.fieldMask, BitVec.getLsbD_and, BitVec.getLsbD_not,
    BitVec.getLsbD_setWidth, BitVec.getLsbD_append, BitVec.getLsbD_zero]
  interval_cases j <;> simp

end Sys2Proof.Laws.EncodedFields
end

