-- ==== Sys2Proof/Tests/Slice0.lean ====
section
/-! SUPPORT. The model's own tests. Expected values come from the spec: the words from its encodings
(spec/30_encoding.md), the results from its examples and vectors (spec/95_test_vectors.md and the rules' own
examples); a test's comment names them where the test's name does not. The witnesses meet the hypotheses of the
statements in Certificates/Slice0/Obligations.lean. -/

namespace Sys2Proof.Machine.Tests

/-! ## Helpers -/

/-- The outcome is a next state with the property. -/
def ends (o : Host.Outcome State Fault Refusal) (p : State → Bool) : Bool :=
  match o with
  | .next t => p t
  | .fault _ => false
  | .refused _ => false

/-- The outcome is this refusal. -/
def refusedWith (o : Host.Outcome State Fault Refusal) (r : Refusal) : Bool :=
  match o with
  | .next _ => false
  | .fault _ => false
  | .refused x => decide (x = r)

/-- The decoder refuses the word. -/
def noCommand (w : Word) : Bool :=
  match decode w with
  | .ok _ => false
  | .error _ => true

/-- The engine after reset with an HRP loaded. -/
def withHrp (h : List Byte) : State :=
  (State.reset.setHrp (Buffer.writeList [] 0 h)).setHlen (BitVec.ofNat 8 h.length)

/-- The engine with a string loaded in TXT. -/
def withTxt (h : List Byte) : State :=
  (State.reset.setTxt (Buffer.writeList [] 0 h)).setTlen (BitVec.ofNat 8 h.length)

/-- A state with symbols loaded. -/
def State.loadSym (s : State) (vs : List Sym) : State :=
  (s.setSym (Buffer.writeList [] 0 vs)).setSlen (BitVec.ofNat 8 vs.length)

/-- A state with bytes loaded. -/
def State.loadByt (s : State) (bs : List Byte) : State :=
  (s.setByt (Buffer.writeList [] 0 bs)).setBlen (BitVec.ofNat 8 bs.length)

/-- A state whose host has these events to come. -/
def scheduled (es : List HostEvent) : State := State.reset.setHost ⟨es, none, [], []⟩

/-- "tx". -/
def tx : List Byte := [0x74#8, 0x78#8]

/-- "A12UEL5L". -/
def upperA : List Byte := [0x41#8, 0x31#8, 0x32#8, 0x55#8, 0x45#8, 0x4C#8, 0x35#8, 0x4C#8]

/-- "a12uel5l". -/
def lowerA : List Byte := [0x61#8, 0x31#8, 0x32#8, 0x75#8, 0x65#8, 0x6C#8, 0x35#8, 0x6C#8]

/-! ## WellFormed refuses what a field cannot hold (R95 to R98) -/

theorem test_wf_pmSyms_start : (Instr.pmSyms 256 0).wf = false ∧ (Instr.pmSyms 255 255).wf = true := by decide
theorem test_wf_pmSyms_len : (Instr.pmSyms 0 256).wf = false := by decide
theorem test_wf_pmZeros : (Instr.pmZeros 256).wf = false ∧ (Instr.pmZeros 255).wf = true := by decide
theorem test_wf_agAppendL : (Instr.agAppendL 32).wf = false ∧ (Instr.agAppendL 31).wf = true := by decide
theorem test_wf_agAppendM : (Instr.agAppendM 32).wf = false ∧ (Instr.agAppendM 31).wf = true := by decide
theorem test_wf_enNextL : (Instr.enNextL 32).wf = false ∧ (Instr.enNextL 31).wf = true := by decide
theorem test_wf_enNextM : (Instr.enNextM 32).wf = false ∧ (Instr.enNextM 31).wf = true := by decide
theorem test_wf_cvConvert_src : (Instr.cvConvert .to5 true 256 0).wf = false := by decide
theorem test_wf_cvConvert_dst :
    (Instr.cvConvert .to8 false 0 256).wf = false ∧ (Instr.cvConvert .to8 false 255 255).wf = true := by decide

/-! ## Decoding: each constructor's word, from R90 to R100 (OP in bits 31..24, then the format's fields) -/

theorem test_decode_control :
    decode 0x00000000#32 = .ok .nop ∧ decode 0x01000000#32 = .ok .softReset := ⟨rfl, rfl⟩

theorem test_decode_polymod :
    decode 0x10000000#32 = .ok .pmInit ∧ decode 0x1100001F#32 = .ok (.pmStep 31#5) ∧
    decode 0x12000000#32 = .ok .pmHrp ∧ decode 0x130007FA#32 = .ok (.pmSyms 250 7) ∧
    decode 0x14000006#32 = .ok (.pmZeros 6) ∧ decode 0x15000001#32 = .ok (.pmXorm .bis) ∧
    decode 0x16000000#32 = .ok (.pmCmpm .classic) ∧ decode 0x17000000#32 = .ok .pmEmit :=
  ⟨rfl, rfl, rfl, rfl, rfl, rfl, rfl, rfl⟩

theorem test_decode_checksum :
    decode 0x20000000#32 = .ok (.ckCreate .classic) ∧ decode 0x21000001#32 = .ok (.ckVerify .bis) := ⟨rfl, rfl⟩

theorem test_decode_codec :
    decode 0x30000000#32 = .ok .alEnc ∧ decode 0x31000000#32 = .ok .alDec ∧
    decode 0x32000001#32 = .ok (.bcEncode .bis) ∧ decode 0x33000000#32 = .ok (.bcDecode .classic) :=
  ⟨rfl, rfl, rfl, rfl⟩

theorem test_decode_bitstream :
    decode 0x40000000#32 = .ok .agClear ∧ decode 0x42000018#32 = .ok (.agAppendL 24) ∧
    decode 0x4300001F#32 = .ok (.agAppendM 31) ∧ decode 0x44000000#32 = .ok .enStart ∧
    decode 0x4600000F#32 = .ok (.enNextL 15) ∧ decode 0x4700000A#32 = .ok (.enNextM 10) :=
  ⟨rfl, rfl, rfl, rfl, rfl, rfl⟩

/-- R103's example is the first word; T, S, P and D of the second are all different (R98). -/
theorem test_decode_convert :
    decode 0x48010002#32 = .ok (.cvConvert .to5 true 0 1) ∧
    decode 0x48A10203#32 = .ok (.cvConvert .to8 true 2 161) := ⟨rfl, rfl⟩

/-- R101's ranges of unassigned opcodes at both ends. -/
theorem test_decode_unassigned :
    ∀ op ∈ [0x02, 0x0F, 0x18, 0x1F, 0x22, 0x2F, 0x34, 0x3F, 0x41, 0x45, 0x49, 0xFF],
      noCommand (BitVec.ofNat 32 (op * 2 ^ 24)) = true := by decide

/-- The lowest reserved bit of each format, and a higher one of N and C (R92 to R98). -/
theorem test_decode_reserved_bits :
    [0x00000001#32, 0x01000100#32, 0x15000002#32, 0x11000020#32, 0x40000020#32, 0x42000020#32, 0x14000100#32,
      0x13010000#32, 0x48000004#32, 0x480000FC#32].all noCommand = true := by decide

/-- The opcode table's bit numbering is the word's own (R68). -/
theorem test_decodeTableWord :
    decodeTableWord 32 0x48010002 = some (.cvConvert .to5 true 0 1) ∧ decodeTableWord 32 0x00000001 = none := by
  decide

/-! ## The commands, one vector or two each (spec/95_test_vectors.md section 2, and the rules' own examples) -/

theorem test_nop :
    ends (executeCommand 0x00000000#32 ((State.reset.setStatus 0x01#8).setChk 0x1234#30))
      (fun t => decide (t = State.reset.setChk 0x1234#30)) = true := by decide

theorem test_softReset :
    ends (executeCommand 0x01000000#32 ((withHrp tx).setArg 5#32)) (fun t => decide (t = State.reset)) = true := by decide

theorem test_illegal :
    ends (executeCommand 0x11000020#32 (State.reset.setChk 0x1234#30))
      (fun t => decide (t.status = 0x80#8 ∧ t.chk = 0x1234#30)) = true := by decide

theorem test_pmInit :
    ends (executeCommand 0x10000000#32 (State.reset.setChk 0x2318298#30)) (fun t => decide (t.chk = 1#30)) = true := by
  decide

theorem test_pmStep : ends (executeCommand 0x1100001F#32 State.reset) (fun t => decide (t.chk = 0x3F#30)) = true := by
  decide

theorem test_pmStep_all_generators :
    polymodStep 0x3FFFFFFF#30 0#5 = 0x2B326EAB#30 ∧ polymodStep 0x3FFFFFFF#30 31#5 = 0x2B326EB4#30 := by decide

theorem test_pmHrp : ends (executeCommand 0x12000000#32 (withHrp tx)) (fun t => decide (t.chk = 0x02318298#30)) = true := by
  decide

theorem test_pmSyms_range :
    ends (executeCommand 0x130007FA#32 State.reset) (fun t => decide (t = State.reset.setStatus 0x81#8)) = true := by
  decide

theorem test_pmSyms_to_last_cell :
    ends (executeCommand 0x130006FA#32 State.reset) (fun t => decide (t.chk = 0x3B6A57B2#30)) = true := by decide

theorem test_pmZeros :
    ends (executeCommand 0x14000006#32 State.reset) (fun t => decide (t.chk = 0x3B6A57B2#30)) = true := by decide

theorem test_pmXorm :
    ends (executeCommand 0x15000001#32 State.reset) (fun t => decide (t.chk = 0x3FFFFFFE#30)) = true := by decide

theorem test_pmCmpm :
    ends (executeCommand 0x16000000#32 State.reset) (fun t => decide (t.status = 0x00#8)) = true ∧
    ends (executeCommand 0x16000001#32 State.reset) (fun t => decide (t.status = 0x01#8)) = true := by decide

theorem test_pmEmit :
    ends (executeCommand 0x17000000#32 (State.reset.setSlen 249#8))
      (fun t => decide (t.slen = 255#8 ∧ t.mem.sym = [(254, 1#5)])) = true := by decide

theorem test_pmEmit_capacity :
    ends (executeCommand 0x17000000#32 (State.reset.setSlen 250#8))
      (fun t => decide (t.status = 0x82#8 ∧ t.slen = 250#8)) = true := by decide

/-- R170's example. -/
theorem test_ckCreate :
    ends (executeCommand 0x20000000#32 (State.loadSym (withHrp tx) [3, 0, 0, 0, 0, 0, 0, 0, 0]))
      (fun t => decide (Buffer.slice t.mem.sym 9 6 = [27, 23, 28, 0, 23, 1] ∧ t.slen = 15#8 ∧
        t.chk = 0x377E02E1#30)) = true := by decide

/-- R171's example, under both variants. -/
theorem test_ckVerify :
    ends (executeCommand 0x21000000#32 (State.loadSym (withHrp tx) [3, 0, 0, 0, 0, 0, 0, 0, 0, 27, 23, 28, 0, 23, 1]))
      (fun t => decide (t.status = 0x00#8 ∧ t.chk = 1#30)) = true ∧
    ends (executeCommand 0x21000001#32 (State.loadSym (withHrp tx) [3, 0, 0, 0, 0, 0, 0, 0, 0, 27, 23, 28, 0, 23, 1]))
      (fun t => decide (t.status = 0x01#8)) = true := by decide

theorem test_alEnc :
    ends (executeCommand 0x30000000#32 (State.reset.setArg 31#32)) (fun t => decide (t.res = 0x6C#32)) = true ∧
    ends (executeCommand 0x30000000#32 (State.reset.setArg 32#32)) (fun t => decide (t.status = 0x81#8)) = true := by
  decide

theorem test_alDec :
    ends (executeCommand 0x31000000#32 (State.reset.setArg 0x4C#32)) (fun t => decide (t.res = 31#32)) = true ∧
    ends (executeCommand 0x31000000#32 (State.reset.setArg 0x62#32)) (fun t => decide (t.status = 0x02#8)) = true := by
  decide

theorem test_alDec_errors :
    ends (executeCommand 0x31000000#32 (State.reset.setArg 0x7F#32)) (fun t => decide (t.status = 0x05#8)) = true ∧
    ends (executeCommand 0x31000000#32 (State.reset.setArg 0x100#32)) (fun t => decide (t.status = 0x81#8)) = true := by
  decide

theorem test_bcEncode_folds_hrp :
    ends (executeCommand 0x32000000#32 (withHrp [0x41#8]))
      (fun t => decide (t.txtText = lowerA ∧ t.mem.hrp = [(0, 0x61#8)] ∧ t.chk = 0x15CCFE9F#30)) = true := by decide

theorem test_bcEncode_capacity :
    ends (executeCommand 0x32000000#32 ((State.reset.setHlen 10#8).setSlen 239#8))
      (fun t => decide (t.status = 0x82#8 ∧ t.tlen = 0#8)) = true := by decide

theorem test_bcDecode :
    ends (executeCommand 0x33000000#32 (withTxt upperA))
      (fun t => decide (t.mem.hrp = [(0, 0x61#8)] ∧ t.hlen = 1#8 ∧ t.slen = 0#8 ∧ t.chk = 1#30 ∧
        Buffer.slice t.mem.sym 0 6 = [10, 28, 25, 31, 20, 31])) = true := by decide

/-- "A1G7SGD8" has the wrong checksum; "10a06t8" has an empty HRP. -/
theorem test_bcDecode_errors :
    ends (executeCommand 0x33000000#32 (withTxt [0x41#8, 0x31#8, 0x47#8, 0x37#8, 0x53#8, 0x47#8, 0x44#8, 0x38#8]))
      (fun t => decide (t.status = 0x01#8 ∧ t.mem.hrp = [])) = true ∧
    ends (executeCommand 0x33000000#32 (withTxt [0x31#8, 0x30#8, 0x61#8, 0x30#8, 0x36#8, 0x74#8, 0x38#8]))
      (fun t => decide (t.status = 0x07#8)) = true := by decide

/-- R131's example. -/
theorem test_agClear :
    ends (executeCommand 0x40000000#32 ((State.loadSym State.reset [3, 1, 2]).setWcur 15#11))
      (fun t => decide (t.wcur = 0#11 ∧ t.slen = 0#8 ∧ t.mem.sym = [(0, 3#5), (1, 1#5), (2, 2#5)])) = true := by decide

/-- R132's example: the second append of the pair. -/
theorem test_agAppendL :
    ends (executeCommand 0x42000003#32 (((State.loadSym State.reset [22]).setWcur 5#11).setArg 0b101#32))
      (fun t => decide (t.symbols = [22, 5] ∧ t.wcur = 8#11 ∧ t.slen = 2#8)) = true := by decide

/-- The bits above n are ignored, and a unit is zeroed as the cursor enters it. -/
theorem test_agAppendL_masks :
    ends (executeCommand 0x42000003#32 ((State.loadSym State.reset [31]).setArg 0xFFFFFFFF#32))
      (fun t => decide (t.symbols = [7] ∧ t.wcur = 3#11)) = true := by decide

/-- R133's example. -/
theorem test_agAppendM :
    ends (executeCommand 0x43000003#32 (((State.loadSym State.reset [22]).setWcur 5#11).setArg 0b101#32))
      (fun t => decide (t.symbols = [22, 20] ∧ t.wcur = 8#11 ∧ t.slen = 2#8)) = true := by decide

theorem test_enStart :
    ends (executeCommand 0x44000000#32 (State.reset.setRcur 45#11)) (fun t => decide (t.rcur = 0#11)) = true := by decide

/-- R135's example: 22 | 20 << 5 in one field, then no bit is left. -/
theorem test_enNextL :
    ends (executeCommand 0x4600000A#32 (State.loadSym State.reset [22, 20]))
      (fun t => decide (t.res = 662#32 ∧ t.rcur = 10#11)) = true ∧
    ends (executeCommand 0x46000001#32 ((State.loadSym State.reset [22, 20]).setRcur 10#11))
      (fun t => decide (t.status = 0x0A#8 ∧ t.rcur = 10#11)) = true := by decide

/-- R136's example. -/
theorem test_enNextM :
    ends (executeCommand 0x4700000A#32 (State.loadSym State.reset [22, 20]))
      (fun t => decide (t.res = 724#32 ∧ t.rcur = 10#11)) = true := by decide

theorem test_cvConvert_to5 :
    ends (executeCommand 0x48000002#32 (State.loadByt State.reset [0xFF#8]))
      (fun t => decide (t.symbols = [31, 28])) = true ∧
    ends (executeCommand 0x48000000#32 (State.loadByt State.reset [0xFF#8]))
      (fun t => decide (t.status = 0x09#8)) = true := by decide

theorem test_cvConvert_to8 :
    ends (executeCommand 0x48000101#32 (State.loadSym State.reset [1, 14, 20, 15, 0]))
      (fun t => decide (t.mem.byt = [(0, 0x75#8), (1, 0x1E#8)] ∧ t.blen = 2#8)) = true ∧
    ends (executeCommand 0x48000001#32 (State.loadSym State.reset [0, 0, 0]))
      (fun t => decide (t.status = 0x09#8 ∧ t.blen = 0#8)) = true := by decide

/-! ## The port (spec/95_test_vectors.md section 2.1) -/

/-- A field of its own for every location, to tell the locations apart. -/
def portState : State :=
  { status := 0x0A#8, arg := 0x0B#32, res := 0x0C#32, chk := 0x0D#30, tlen := 0x0E#8, hlen := 0x0F#8, slen := 0x10#8,
    blen := 0x11#8, wcur := 0x12#11, rcur := 0x13#11,
    mem := ⟨[(0, 0x20#8), (255, 0x21#8)], [(0, 0x22#8), (255, 0x23#8)], [(0, 4#5), (255, 5#5)],
      [(0, 0x26#8), (255, 0x27#8)]⟩,
    host := HostSide.idle }

/-- Every word of R62's map at both ends of each range. -/
theorem test_portRead_map :
    ([0x0000, 0x0004, 0x0008, 0x000C, 0x0010, 0x0014, 0x0018, 0x001C, 0x0020, 0x0024, 0x0028, 0x002C, 0x0030, 0x03FC,
      0x0400, 0x07FC, 0x0800, 0x0BFC, 0x0C00, 0x0FFC, 0x1000, 0x13FC, 0x1400, 0x1FFC].map fun a =>
        (portRead (BitVec.ofNat 13 a) portState).toNat) =
    [0xB32E0107, 0, 0x0A, 0x0B, 0x0C, 0x0D, 0x0E, 0x0F, 0x10, 0x11, 0x12, 0x13, 0, 0,
      0x20, 0x21, 0x22, 0x23, 4, 5, 0x26, 0x27, 0, 0] := by decide

theorem test_portWrite_widths :
    ends (portWrite 0x0014#13 0xFFFFFFFF#32 State.reset) (fun t => decide (t.chk = 0x3FFFFFFF#30)) = true ∧
    ends (portWrite 0x0018#13 0x1FF#32 State.reset) (fun t => decide (t.tlen = 0xFF#8)) = true ∧
    ends (portWrite 0x0C00#13 0xFF#32 State.reset) (fun t => decide (t.mem.sym = [(0, 31#5)])) = true ∧
    ends (portWrite 0x07FC#13 0x1FF#32 State.reset) (fun t => decide (t.mem.txt = [(255, 0xFF#8)])) = true := by decide

/-- Writing 0, what an unlisted cell reads as, leaves no entry. -/
theorem test_portWrite_canonical :
    ends (portWrite 0x1000#13 0#32 (State.loadByt State.reset [0xAB#8])) (fun t => decide (t.mem = Memory.reset)) = true := by
  decide

/-! ## Host events and procedures -/

/-- withFetchWord places the word so that the next step runs it. -/
theorem test_step_runs_fetch_word :
    ends (step (State.reset.withFetchWord 32 0x1100001F)) (fun t => decide (t = State.reset.setChk 0x3F#30)) = true := by
  decide

theorem test_step_idle : ends (step State.reset) (fun t => decide (t = State.reset)) = true := by decide

theorem test_step_reset :
    ends (step ((withHrp tx).setHost ⟨[.reset, .reset], none, [7#32], []⟩))
      (fun t => decide (t = scheduled [.reset])) = true := by decide

theorem test_step_read :
    ends (step (scheduled [.access (.read 32 0x0000#13)])) (fun t => decide (t.host.reads = [0xB32E0107#32])) = true := by
  decide

/-- R225: the vector "tx1:rqqq-qqqq-qmhu-qhp", from "tx1rqqqqqqqqmhuqhp". -/
theorem test_formatTxRef :
    formatTxRef tx ([0x74#8, 0x78#8, 0x31#8, 0x72#8] ++ List.replicate 8 0x71#8 ++
      [0x6D#8, 0x68#8, 0x75#8, 0x71#8, 0x68#8, 0x70#8]) =
    [0x74#8, 0x78#8, 0x31#8, 0x3A#8, 0x72#8, 0x71#8, 0x71#8, 0x71#8, 0x2D#8, 0x71#8, 0x71#8, 0x71#8, 0x71#8, 0x2D#8,
      0x71#8, 0x6D#8, 0x68#8, 0x75#8, 0x2D#8, 0x71#8, 0x68#8, 0x70#8] := by decide

/-- R227: " tx1..." and "tx:..." have no known prefix, and the punctuation after the prefix is dropped. -/
theorem test_txref_prefix :
    txrefNetwork [0x20#8, 0x74#8, 0x78#8, 0x31#8] = none ∧ txrefNetwork [0x74#8, 0x78#8, 0x3A#8] = none ∧
    txrefText .mainnet [0x74#8, 0x78#8, 0x31#8, 0x3A#8, 0x72#8, 0x2D#8, 0x71#8, 0x62#8] =
      [0x74#8, 0x78#8, 0x31#8, 0x72#8, 0x71#8] := by decide

/-- R103's and R104's syntax: "CMD CV_CONVERT 8to5, pad, 0, 1". -/
theorem test_assemble_cmd :
    assembleLine "CMD CV_CONVERT 8to5, pad, 0, 1".toList = some (.cmd (.cvConvert .to5 true 0 1)) := by decide

/-- Log entry 25: a line with a comment is no line of R103. -/
theorem test_assemble_comment : assembleLine "CHECK ; done".toList = none := by decide

/-! ## Witnesses: states and operands that meet the hypotheses of the statements -/

theorem test_witness_DecodeOfEncodeIsIdentity : (Instr.cvConvert .to8 true 255 255).wf = true := by decide

theorem test_witness_DecodedWordIsItsEncoding : decode 0x48FFFF03#32 = .ok (.cvConvert .to8 true 255 255) := rfl

theorem test_witness_WordsThatAreNoCommand :
    decode 0x49000000#32 = .error .unassignedOpcode ∧ decode 0x48000004#32 = .error .reservedBitSet := ⟨rfl, rfl⟩

theorem test_witness_StepRunsDecodedCommand :
    (State.reset.withFetchWord 32 0x1100001F).host.schedule = [.access (.write 32 0x0004#13 0x1100001F#32)] ∧
    (State.reset.withFetchWord 32 0x1100001F).host.running = none ∧ decode 0x1100001F#32 = .ok (.pmStep 31#5) :=
  ⟨rfl, rfl, rfl⟩

theorem test_witness_StepOfIllegalWordSetsStatus :
    (State.reset.withFetchWord 32 0x01000100).host.schedule = [.access (.write 32 0x0004#13 0x01000100#32)] ∧
    (State.reset.withFetchWord 32 0x01000100).host.running = none ∧
    decode 0x01000100#32 = .error .reservedBitSet := ⟨rfl, rfl, rfl⟩

theorem test_witness_ResetStateValues : (scheduled [.reset]).host.schedule = .reset :: [] := rfl

theorem test_witness_EveryStepKeepsInvariant :
    Inv State.reset ∧ step State.reset = .next State.reset := ⟨by decide, rfl⟩

/-- segwit_encode of (1, 751e) with `hrp`, its first 13 accesses made, one access before its end. -/
def selfVerifyState (hrp : List Byte) : State :=
  (State.reset.setStatus 0x04#8).setHost
    ⟨[.proceed], some ⟨.segwitEncode hrp 1 [0x75#8, 0x1E#8], List.replicate 13 0#32⟩, [], []⟩

theorem test_witness_OnlyFaultIsSegwitSelfVerify :
    step (selfVerifyState [0x61#8]) = .fault .segwitSelfVerify := rfl

theorem test_witness_PortReadReturnsMapContent :
    (0x1FFC#13).toNat % 4 = 0 ∧
    (scheduled [.access (.read 32 0x1FFC#13)]).host.schedule = .access (.read 32 0x1FFC#13) :: [] ∧
    (scheduled [.access (.read 32 0x1FFC#13)]).host.running = none := ⟨by decide, rfl, rfl⟩

/-- The boundary values of PortReadReturnsMapContent's and PortWriteToCell's ranges: cells 0 and 255 of each window,
and both reserved ranges; the windows do not meet. -/
theorem test_witness_port_ranges :
    (0x03FC#13).toNat < 0x0400 ∧ 0x0030 ≤ (0x0030#13).toNat ∧ (0x0400#13).toNat = 0x0400 + 4 * 0 ∧
    (0x07FC#13).toNat = 0x0400 + 4 * 255 ∧ (0x0800#13).toNat = 0x0800 + 4 * 0 ∧
    (0x0BFC#13).toNat = 0x0800 + 4 * 255 ∧ (0x0C00#13).toNat = 0x0C00 + 4 * 0 ∧
    (0x0FFC#13).toNat = 0x0C00 + 4 * 255 ∧ (0x1000#13).toNat = 0x1000 + 4 * 0 ∧
    (0x13FC#13).toNat = 0x1000 + 4 * 255 ∧ 0x1400 ≤ (0x1400#13).toNat := by decide

/-- A step whose access is a write ends in the port write's state: to a register, a read-only register, the last
reserved word, and the last cell of SYM. -/
theorem test_witness_PortWrite_step :
    ends (step (scheduled [.access (.write 32 0x0014#13 0xFFFFFFFF#32)]))
      (fun t => decide (t = State.reset.setChk 0x3FFFFFFF#30)) = true ∧
    ends (step (scheduled [.access (.write 32 0x0008#13 5#32)])) (fun t => decide (t = State.reset)) = true ∧
    ends (step (scheduled [.access (.write 32 0x1FFC#13 1#32)])) (fun t => decide (t = State.reset)) = true ∧
    ends (step (scheduled [.access (.write 32 0x0FFC#13 0xFF#32)]))
      (fun t => decide (t = State.reset.setSym [(255, 31#5)])) = true := by decide

/-- PortWriteToRegister's reserved ranges at their ends. -/
theorem test_witness_PortWriteToRegister :
    ∀ a ∈ [0x0030#13, 0x03FC#13, 0x1400#13, 0x1FFC#13], a.toNat % 4 = 0 ∧
      ((0x0030 ≤ a.toNat ∧ a.toNat < 0x0400) ∨ 0x1400 ≤ a.toNat) := by simp

theorem test_witness_OnlyAlignedWordAccessesComplete :
    refusedWith (step (scheduled [.access (.read 8 0x0000#13)])) .accessWidth = true ∧
    refusedWith (step (scheduled [.access (.write 64 0x0004#13 0#32)])) .accessWidth = true ∧
    refusedWith (step (scheduled [.access (.read 32 0x1FFD#13)])) .misaligned = true ∧
    ends (step (scheduled [.access (.write 32 0x1FFC#13 1#32)])) (fun _ => true) = true := by decide

theorem test_witness_InterleavedAccessIsRefused :
    refusedWith (step (State.reset.setHost ⟨[.access (.read 32 0#13)], some ⟨.program [.check], []⟩, [], []⟩))
      .interleaved = true ∧
    refusedWith (step (State.reset.setHost ⟨[.call (.program [])], some ⟨.program [.check], []⟩, [], []⟩))
      .interleaved = true := by decide

theorem test_witness_ErrorChangesOnlyStatus :
    ends (executeCommand 0x46000001#32 State.reset) (fun t => decide (t.status ≠ 0x00#8)) = true := by decide

theorem test_witness_StatusCodesRaisedByEachCommand :
    exec .nop State.reset = .next State.reset ∧
    executeCommand 0xFF000000#32 State.reset = .next (State.reset.setStatus 0x80#8) := ⟨rfl, rfl⟩

/-- AG_APPEND with n = 0 inside a unit, and with n = 1. -/
theorem test_witness_EachCommandOverwritesOnlyItsRow :
    exec (.agAppendL 0) ((State.reset.setStatus 1#8).setWcur 3#11) = .next (State.reset.setWcur 3#11) ∧
    exec (.agAppendM 1) State.reset = .next ((State.reset.setWcur 1#11).setSlen 1#8) := ⟨rfl, rfl⟩

theorem test_witness_CanonicalBuffersThatReadAlikeAreEqual :
    Buffer.wf ([(0, 1), (255, 31)] : Buffer 5) = true ∧ Buffer.wf ([(1, 0)] : Buffer 5) = false ∧
    Buffer.wf ([(1, 1), (1, 2)] : Buffer 5) = false := by decide

theorem test_witness_PolymodIsLinear : [1#5, 2#5].length = [3#5, 4#5].length := rfl

theorem test_witness_PmSymsFeedsRange : 256 < 250 + 7 ∧ 250 + 6 ≤ 256 ∧ 255 + 1 ≤ 256 ∧ 256 < 255 + 2 := by decide

theorem test_witness_PmEmitAppendsSlices :
    249 < (State.reset.setSlen 250#8).slen.toNat ∧ (State.reset.setSlen 249#8).slen.toNat ≤ 249 := by decide

theorem test_witness_CkCreateAppendsChecksum :
    ends (exec (.ckCreate .bis) (State.reset.setSlen 250#8)) (fun t => decide (t.status = 0x82#8)) = true ∧
    ends (exec (.ckCreate .bis) (withHrp [0x61#8])) (fun t => decide (t.symbols = [21, 3, 6, 0, 11, 1])) = true := by
  decide

/-- "a" with the classic checksum "2uel5l". -/
def checkedA : State := State.loadSym (withHrp [0x61#8]) [10, 28, 25, 31, 20, 31]

theorem test_witness_CkVerifyChecksResidue :
    polymod (expand (rangeOf checkedA.mem.hrp 0 checkedA.hlen.toNat) ++
      rangeOf checkedA.mem.sym 0 checkedA.slen.toNat) = target .classic ∧ target .classic ≠ target .bis ∧
    ends (exec (.ckVerify .classic) checkedA) (fun t => decide (t.status = 0x00#8)) = true ∧
    ends (exec (.ckVerify .bis) checkedA) (fun t => decide (t.status = 0x01#8)) = true := by decide

theorem test_witness_CompositesEqualPrimitiveSequences :
    (State.reset.setSlen 249#8).slen.toNat ≤ 249 ∧
    ends (exec (.ckVerify .classic) checkedA) (fun t => decide (t.status = 0x00#8)) = true ∧
    ends (exec (.ckVerify .classic) State.reset) (fun t => decide (t.status ≠ 0x00#8)) = true := by decide

theorem test_witness_CreatedChecksumVerifies :
    ends (exec (.ckCreate .classic) (withHrp [0x61#8])) (fun t => decide (t.status = 0x00#8 ∧
      ends (exec (.ckVerify .classic) t) (fun u => decide (u.status = 0x00#8)) = true)) = true := by decide

theorem test_witness_AlEncMapsSymbol :
    31 < (State.reset.setArg 32#32).arg.toNat ∧ (State.reset.setArg 31#32).arg.toNat ≤ 31 := by decide

theorem test_witness_AlDecMapsCharacter :
    255 < (State.reset.setArg 256#32).arg.toNat ∧
    ends (exec .alDec (State.reset.setArg 255#32)) (fun t => decide (t.status = 0x05#8)) = true ∧
    ends (exec .alDec (State.reset.setArg 32#32)) (fun t => decide (t.status = 0x05#8)) = true ∧
    rev (BitVec.ofNat 8 33) = none ∧ rev (BitVec.ofNat 8 126) = none ∧ rev (BitVec.ofNat 8 0x51) = some 0 := by decide

theorem test_witness_BcEncodeRendersString :
    255 < ((State.reset.setHlen 10#8).setSlen 239#8).hlen.toNat + 1 + 239 + 6 ∧ 10 + 1 + 238 + 6 ≤ 255 := by decide

/-- The status BC_DECODE leaves for a string. -/
def decodeStatus (str : List Byte) : Byte :=
  match exec (.bcDecode .classic) (withTxt str) with
  | .next t => t.status
  | .fault _ => 0xFF#8
  | .refused _ => 0xFF#8

/-- One string for each clause of R186: a space, mixed case, no separator, an empty HRP, five characters after the
separator, a data character outside the alphabet, a wrong checksum, and an accepted string. -/
theorem test_witness_BcDecodeParsesString :
    decodeStatus [0x20#8] = 0x05#8 ∧ decodeStatus [0x61#8, 0x41#8] = 0x03#8 ∧ decodeStatus [] = 0x04#8 ∧
    decodeStatus [0x31#8, 0x71#8] = 0x07#8 ∧ decodeStatus ([0x61#8, 0x31#8] ++ List.replicate 5 0x71#8) = 0x08#8 ∧
    decodeStatus ([0x61#8, 0x31#8] ++ List.replicate 6 0x62#8) = 0x02#8 ∧
    decodeStatus ([0x61#8, 0x31#8] ++ List.replicate 6 0x71#8) = 0x01#8 ∧ decodeStatus lowerA = 0x00#8 := by decide

/-- R186's length clauses where they meet: 90 and 91 characters `a`, printable, of one case, without a separator. -/
theorem test_witness_BcDecodeParsesString_length :
    (∀ n, n = 90 ∨ n = 91 → rangeOf (withTxt (List.replicate n 0x61#8)).mem.txt 0 n = List.replicate n 0x61#8) ∧
    (∀ n, ∀ ch ∈ List.replicate n 0x61#8, 33 ≤ ch.toNat ∧ ch.toNat ≤ 126 ∧ ch ≠ 0x31#8 ∧
      ¬ (0x41 ≤ ch.toNat ∧ ch.toNat ≤ 0x5A)) ∧
    (withTxt (List.replicate 90 0x61#8)).tlen.toNat = 90 ∧ (withTxt (List.replicate 91 0x61#8)).tlen.toNat = 91 := by
  refine ⟨?_, ?_, by simp [withTxt], by simp [withTxt]⟩
  · intro n hn
    have h := rangeOf_writeList ([] : Buffer 8) 0 (List.replicate n 0x61#8)
      (by rw [List.length_replicate]; show 0 + n ≤ 256; omega)
    rwa [List.length_replicate] at h
  · intro n ch h
    rw [List.eq_of_mem_replicate h]
    decide

theorem test_witness_AcceptedStringBounds :
    ends (exec (.bcDecode .classic) (withTxt lowerA)) (fun t => decide (t.status = 0x00#8)) = true := by decide

theorem test_witness_EncodedStringDecodesBack :
    (withHrp [0x61#8]).hlen.toNat ≠ 0 ∧
    (∀ ch ∈ rangeOf (withHrp [0x61#8]).mem.hrp 0 (withHrp [0x61#8]).hlen.toNat,
      33 ≤ ch.toNat ∧ ch.toNat ≤ 126 ∧ ¬ (0x41 ≤ ch.toNat ∧ ch.toNat ≤ 0x5A)) ∧
    (withHrp [0x61#8]).hlen.toNat + (withHrp [0x61#8]).slen.toNat + 7 ≤ 90 := by decide

/-- The append's three clauses where they meet: WCUR = 1271 with n = 5, 4 and 0. -/
theorem test_witness_AgAppendWritesField :
    1275 < (State.reset.setWcur 1271#11).wcur.toNat + 5 ∧ (State.reset.setWcur 1271#11).wcur.toNat + 4 ≤ 1275 ∧
    (State.reset.setWcur 1275#11).wcur.toNat + 0 ≤ 1275 ∧
    ends (exec (.agAppendL 4) ((State.reset.setWcur 1271#11).setArg 0xF#32))
      (fun t => decide (t.wcur = 1275#11 ∧ t.slen = 255#8)) = true ∧
    ends (exec (.agAppendM 5) (State.reset.setWcur 1271#11)) (fun t => decide (t.status = 0x82#8)) = true := by decide

/-- The enumerator's two clauses where they meet: two symbols, RCUR = 8 with n = 2 and 3. -/
theorem test_witness_EnNextReadsField :
    ends (exec (.enNextL 2) ((State.loadSym State.reset [22, 5]).setRcur 8#11))
      (fun t => decide (t.res = 0#32 ∧ t.rcur = 10#11)) = true ∧
    ends (exec (.enNextL 3) ((State.loadSym State.reset [22, 5]).setRcur 8#11))
      (fun t => decide (t.status = 0x0A#8 ∧ t.rcur = 8#11)) = true ∧
    ends (exec (.enNextM 3) ((State.loadSym State.reset [22, 5]).setRcur 8#11))
      (fun t => decide (t.status = 0x0A#8)) = true := by decide

theorem test_witness_AppendedFieldsReadBack :
    (∀ f ∈ [(5, 3#32), (1, 0#32), (24, 466793#32), (15, 2205#32), (0, 0#32), (31, 1#32)], f.1 < 32) ∧
    ([(5, 3#32), (1, 0#32), (24, 466793#32), (15, 2205#32), (0, 0#32), (31, 1#32)].map (·.1)).sum ≤ 1275 := by decide

/-- RANGE, CAPACITY at dst + outlen = 256, the failing leftover, and success at 255, in both directions. -/
theorem test_witness_CvConvert :
    ends (exec (.cvConvert .to5 true 2 0) (State.loadByt State.reset [1#8])) (fun t => decide (t.status = 0x81#8)) ∧
    ends (exec (.cvConvert .to5 true 0 254) (State.loadByt State.reset [1#8])) (fun t => decide (t.status = 0x82#8)) ∧
    ends (exec (.cvConvert .to5 true 0 253) (State.loadByt State.reset [1#8])) (fun t => decide (t.slen = 255#8)) ∧
    ends (exec (.cvConvert .to5 false 0 0) (State.loadByt State.reset [1#8])) (fun t => decide (t.status = 0x09#8)) ∧
    ends (exec (.cvConvert .to8 false 1 0) State.reset) (fun t => decide (t.status = 0x81#8)) ∧
    ends (exec (.cvConvert .to8 true 0 255) (State.loadSym State.reset [1])) (fun t => decide (t.status = 0x82#8)) ∧
    ends (exec (.cvConvert .to8 true 0 254) (State.loadSym State.reset [1])) (fun t => decide (t.blen = 255#8)) ∧
    ends (exec (.cvConvert .to8 false 0 0) (State.loadSym State.reset [0])) (fun t => decide (t.status = 0x09#8)) := by
  decide

theorem test_witness_ConvertedBytesConvertBack :
    (8 * (State.reset.setBlen 159#8).blen.toNat + 4) / 5 ≤ 255 ∧
    8 * (5 * 2 / 8) ≤ 8 ∧ 8 < 5 * (State.loadSym State.reset [31, 31]).slen.toNat ∧
    bigEndianBit5 (rangeOf (State.loadSym State.reset [31, 31]).mem.sym 0 2) 8 = true := by decide

theorem test_witness_AppendedBytesMatchConversion : 8 * (State.reset.setBlen 159#8).blen.toNat ≤ 1275 := by decide

theorem test_witness_ProcedurePreconditionsAreRefused :
    refusedWith (step (scheduled [.call (.txrefEncode ⟨.mainnet, 2 ^ 24, 0, 0⟩ .classic)])) .txrefRange = true ∧
    refusedWith (step (scheduled [.call (.txrefEncode ⟨.mainnet, 0, 0, 2 ^ 15⟩ .classic)])) .txrefRange = true ∧
    refusedWith (step (scheduled [.call (.segwitEncode tx 17 [1#8, 2#8])])) .segwitPrecondition = true ∧
    refusedWith (step (scheduled [.call (.segwitEncode tx 0 [1#8, 2#8])])) .segwitPrecondition = true := by decide

theorem test_witness_ProcedureStepsReachItsRun :
    State.reset.host.running = none ∧
    (Procedure.program [.cmd (.pmStep 31#5), .check]).prog.run State.reset =
      .next (.programEnded, State.reset.setChk 0x3F#30) := ⟨rfl, rfl⟩

end Sys2Proof.Machine.Tests
end

section
/-! The machine's state (spec/10_state.md): memory as data, the port's writes, reset, STATUS, and the invariant every
step keeps. In each part the facts about the model's functions stand before the theorems that settle obligations. -/

namespace Sys2Proof.Machine

/-! ## Canonical buffers as data (R36, R39) -/

section
variable {w : Nat}

theorem Buffer.wfFrom_cons {lo i : Nat} {v : BitVec w} {rest : Buffer w} :
    Buffer.wfFrom lo ((i, v) :: rest) = true ↔
      lo ≤ i ∧ i < Config.memCells ∧ v ≠ 0 ∧ Buffer.wfFrom (i + 1) rest = true := by
  simp [Buffer.wfFrom, and_assoc]

@[simp] theorem Buffer.read_cons_same (i : Nat) (v : BitVec w) (rest : Buffer w) :
    Buffer.read ((i, v) :: rest) i = v := by simp [Buffer.read]

theorem Buffer.read_cons_other {i k : Nat} (h : k ≠ i) (v : BitVec w) (rest : Buffer w) :
    Buffer.read ((i, v) :: rest) k = Buffer.read rest k := by simp [Buffer.read, h]

/-- A cell below the first index the form allows is unlisted. -/
theorem Buffer.read_eq_zero_of_lt {lo k : Nat} {b : Buffer w} (h : Buffer.wfFrom lo b = true) (hk : k < lo) :
    Buffer.read b k = 0 := by
  induction b generalizing lo with
  | nil => rfl
  | cons c rest ih =>
    obtain ⟨i, v⟩ := c
    obtain ⟨hlo, -, -, hrest⟩ := Buffer.wfFrom_cons.mp h
    rw [Buffer.read_cons_other (by omega)]
    exact ih hrest (by omega)

/-- The head of a canonical list is the lowest cell that does not read 0: a list that reads like another at the
other's head does not begin above it. -/
theorem Buffer.head_le_of_read_eq {lo i j : Nat} {v u : BitVec w} {as bs : Buffer w}
    (ha : Buffer.wfFrom lo ((i, v) :: as) = true) (hb : Buffer.wfFrom lo ((j, u) :: bs) = true)
    (hread : Buffer.read ((i, v) :: as) i = Buffer.read ((j, u) :: bs) i) : j ≤ i := by
  obtain ⟨-, -, hv, -⟩ := Buffer.wfFrom_cons.mp ha
  obtain ⟨-, hj, hu, hbs⟩ := Buffer.wfFrom_cons.mp hb
  by_contra hlt
  have hzero : Buffer.read ((j, u) :: bs) i = 0 :=
    Buffer.read_eq_zero_of_lt (Buffer.wfFrom_cons.mpr ⟨le_rfl, hj, hu, hbs⟩) (not_le.mp hlt)
  rw [Buffer.read_cons_same, hzero] at hread
  exact hv hread

/-- Canonical lists with the same head cell that read alike have tails that read alike. -/
theorem Buffer.read_tail_eq {i : Nat} {v : BitVec w} {as bs : Buffer w} (ha : Buffer.wfFrom (i + 1) as = true)
    (hb : Buffer.wfFrom (i + 1) bs = true)
    (hread : ∀ k, Buffer.read ((i, v) :: as) k = Buffer.read ((i, v) :: bs) k) (k : Nat) :
    Buffer.read as k = Buffer.read bs k := by
  by_cases hk : k = i
  · subst hk
    rw [Buffer.read_eq_zero_of_lt ha k.lt_succ_self, Buffer.read_eq_zero_of_lt hb k.lt_succ_self]
  · simpa only [Buffer.read_cons_other hk] using hread k

/-- A list that begins with a cell reads that cell's value there, and no canonical value is 0. -/
theorem Buffer.read_head_ne_read_nil {lo i : Nat} {v : BitVec w} {rest : Buffer w}
    (h : Buffer.wfFrom lo ((i, v) :: rest) = true) :
    Buffer.read ((i, v) :: rest) i ≠ Buffer.read ([] : Buffer w) i := by
  obtain ⟨-, -, hv, -⟩ := Buffer.wfFrom_cons.mp h
  rw [Buffer.read_cons_same]
  exact hv

theorem Buffer.eq_of_read_eq {lo : Nat} {a b : Buffer w} (ha : Buffer.wfFrom lo a = true)
    (hb : Buffer.wfFrom lo b = true) (hread : ∀ k, Buffer.read a k = Buffer.read b k) : a = b := by
  induction a generalizing lo b with
  | nil =>
    cases b with
    | nil => rfl
    | cons d bs => exact absurd (hread d.1).symm (Buffer.read_head_ne_read_nil hb)
  | cons c as ih =>
    obtain ⟨i, v⟩ := c
    cases b with
    | nil => exact absurd (hread i) (Buffer.read_head_ne_read_nil ha)
    | cons d bs =>
      obtain ⟨j, u⟩ := d
      obtain rfl : j = i :=
        le_antisymm (Buffer.head_le_of_read_eq ha hb (hread i)) (Buffer.head_le_of_read_eq hb ha (hread j).symm)
      obtain rfl : v = u := by simpa using hread j
      obtain ⟨-, -, -, has⟩ := Buffer.wfFrom_cons.mp ha
      obtain ⟨-, -, -, hbs⟩ := Buffer.wfFrom_cons.mp hb
      rw [ih has hbs (Buffer.read_tail_eq has hbs hread)]

end

/-- Settles O21: induction on the first list; the lists' heads are each the lowest cell that does not read 0. -/
theorem canonicalBuffersThatReadAlikeAreEqual : Obligations.CanonicalBuffersThatReadAlikeAreEqual :=
  fun _ _ _ ha hb hread => Buffer.eq_of_read_eq ha hb hread

/-! ## Steps and port writes (R19, R34, R64) -/

theorem step_of_schedule {s : State} {e : HostEvent} {rest : List HostEvent} (h : s.host.schedule = e :: rest) :
    step s = hostEvent e (s.setSchedule rest) := by
  simp only [step, h]

/-- With no procedure under way, taking an event off the schedule leaves the host side's other fields. -/
theorem setSchedule_of_not_running {s : State} (rest : List HostEvent) (h : s.host.running = none) :
    s.setSchedule rest = s.setHost ⟨rest, none, s.host.reads, s.host.outcomes⟩ := by
  rw [← h]; rfl

/-- A completed write access answers what the port write answers, with the value 0 beside a next state. -/
theorem hostEvent_write {s : State} {a : PortAddr} {d : Word} (hr : s.host.running = none)
    (ha : a.toNat % 4 = 0) : hostEvent (.access (.write 32 a d)) s = portWrite a d s := by
  have hacc : accessRefusal 32 a = none := accessRefusal_eq_none.mpr ⟨rfl, ha⟩
  simp only [hostEvent, hr, hostAccess, accessPort, hacc]
  cases portWrite a d s <;> rfl

/-- A step whose access is an aligned 32-bit write is that port write, the event taken off the schedule (R64). -/
theorem step_write {s : State} {a : PortAddr} {d : Word} {rest : List HostEvent} (ha : a.toNat % 4 = 0)
    (hs : s.host.schedule = .access (.write 32 a d) :: rest) (hr : s.host.running = none) :
    step s = portWrite a d (s.setHost ⟨rest, none, s.host.reads, s.host.outcomes⟩) := by
  rw [step_of_schedule hs, setSchedule_of_not_running rest hr]
  exact hostEvent_write rfl ha

theorem portWrite_reg (r : Reg) (d : Word) (s : State) : portWrite r.addr d s = writeReg r d s := by
  simp only [portWrite, locate_reg]

theorem portWrite_cell (b : BufName) {i : Nat} (hi : i < Config.memCells) (d : Word) (s : State) :
    portWrite (Loc.cell b i).addr d s = .next (s.setMem (s.mem.writeCell b i d)) := by
  simp only [portWrite, locate_cell b hi]

theorem executeCommand_of_decode {w : Word} {i : Instr} (h : decode w = .ok i) (s : State) :
    executeCommand w s = exec i s := by
  simp only [executeCommand, h]

/-- Settles O5: the step is the port write at CMD, and that executes the decoded command. -/
theorem stepRunsDecodedCommand : Obligations.StepRunsDecodedCommand := by
  intro s w i rest hs hr hw
  calc step s = portWrite Reg.cmd.addr w (s.setHost ⟨rest, none, s.host.reads, s.host.outcomes⟩) :=
        step_write (by decide) hs hr
    _ = executeCommand w (s.setHost ⟨rest, none, s.host.reads, s.host.outcomes⟩) := portWrite_reg .cmd w _
    _ = exec i (s.setHost ⟨rest, none, s.host.reads, s.host.outcomes⟩) := executeCommand_of_decode hw _

/-! ## Cell writes through the port (R37, R61) -/

theorem BufName.base_add_lt (b : BufName) {i : Nat} (hi : i < 256) : b.base + 4 * i < 2 ^ 13 := by
  cases b <;> simp only [BufName.base] <;> omega

theorem eq_cellAddr {a : PortAddr} (b : BufName) {i : Nat} (hi : i < 256) (ha : a.toNat = b.base + 4 * i) :
    a = (Loc.cell b i).addr := by
  apply BitVec.eq_of_toNat_eq
  rw [ha]
  exact (Nat.mod_eq_of_lt (b.base_add_lt hi)).symm

theorem aligned_of_eq_cell {a : PortAddr} (b : BufName) {i : Nat} (ha : a.toNat = b.base + 4 * i) :
    a.toNat % 4 = 0 := by
  cases b <;> simp only [BufName.base] at ha <;> omega

theorem portWrite_at_cell {a : PortAddr} (b : BufName) {i : Nat} (hi : i < 256) (ha : a.toNat = b.base + 4 * i)
    (d : Word) (s : State) : portWrite a d s = .next (s.setMem (s.mem.writeCell b i d)) := by
  rw [eq_cellAddr b hi ha]
  exact portWrite_cell b hi d s

@[simp] theorem readReg_setMem (s : State) (m : Memory) (r : Reg) : readReg (s.setMem m) r = readReg s r := by
  cases r <;> rfl

/-- A cell write leaves every other cell of every buffer. -/
theorem Memory.readCell_writeCell_other (m : Memory) {b b' : BufName} {i k : Nat} (d : Word)
    (h : ¬ (b' = b ∧ k = i)) : (m.writeCell b i d).readCell b' k = m.readCell b' k := by
  by_cases hb : b' = b
  · subst hb
    have hk : k ≠ i := fun hk => h ⟨rfl, hk⟩
    cases b' <;> simp [Memory.writeCell, Memory.readCell, Buffer.read_write_other _ hk]
  · cases b <;> cases b' <;> simp [Memory.writeCell, Memory.readCell] at hb ⊢

theorem frame_writeCell (s : State) (b : BufName) (i : Nat) (d : Word) :
    frame [] (cellsOf b i 1) s (s.setMem (s.mem.writeCell b i d)) := by
  refine ⟨fun r _ => readReg_setMem .., fun b' k hk => ?_, rfl⟩
  apply Memory.readCell_writeCell_other
  rintro ⟨rfl, rfl⟩
  exact hk ⟨rfl, le_rfl, k.lt_succ_self⟩

/-- A cell write reads back as the low bits of the data that the cell's width holds. -/
theorem toNat_read_write {w i : Nat} (hi : i < 256) (b : Buffer w) (d : Word) :
    (Buffer.read (Buffer.write b i (d.setWidth w)) i).toNat = d.toNat % 2 ^ w := by
  rw [Buffer.read_write_same b hi, BitVec.toNat_setWidth]

/-- Settles O14: a cell's address is located as that cell, and the write is `Buffer.write` of the data cut to the
cell's width. -/
theorem portWriteToCell : Obligations.PortWriteToCell := by
  refine ⟨fun s d i a rest hi ha hs hr => ?_, fun s d i a hi => ⟨fun ha => ?_, fun ha => ?_, fun ha => ?_,
    fun ha => ?_⟩⟩
  · obtain ⟨b, hb⟩ : ∃ b : BufName, a.toNat = b.base + 4 * i := by
      simp only [List.mem_cons, List.not_mem_nil, or_false] at ha
      obtain ha | ha | ha | ha := ha
      · exact ⟨.txt, ha⟩
      · exact ⟨.hrp, ha⟩
      · exact ⟨.sym, ha⟩
      · exact ⟨.byt, ha⟩
    have h := portWrite_at_cell b hi hb d (s.setHost ⟨rest, none, s.host.reads, s.host.outcomes⟩)
    exact ⟨_, h, (step_write (aligned_of_eq_cell b hb) hs hr).trans h⟩
  · exact ⟨_, portWrite_at_cell .txt hi ha d s, toNat_read_write hi .., frame_writeCell ..⟩
  · exact ⟨_, portWrite_at_cell .hrp hi ha d s, toNat_read_write hi .., frame_writeCell ..⟩
  · exact ⟨_, portWrite_at_cell .sym hi ha d s, toNat_read_write hi .., frame_writeCell ..⟩
  · exact ⟨_, portWrite_at_cell .byt hi ha d s, toNat_read_write hi .., frame_writeCell ..⟩

/-! ## Reset (R39, R280, R121) -/

@[simp] theorem readReg_setHost (s : State) (h : HostSide) (r : Reg) : readReg (s.setHost h) r = readReg s r := by
  cases r <;> rfl

@[simp] theorem Memory.readCell_reset (b : BufName) (i : Nat) : Memory.reset.readCell b i = 0#32 := by
  cases b <;> rfl

theorem step_of_reset {s : State} {rest : List HostEvent} (h : s.host.schedule = .reset :: rest) :
    step s = .next (State.reset.setSchedule rest) := step_of_schedule h

theorem exec_softReset (s : State) : exec .softReset s = .next (State.reset.setHost s.host) := rfl

/-- Settles O8: the reset state's fields, and that both resets answer it but for the host side. -/
theorem resetStateValues : Obligations.ResetStateValues := by
  refine ⟨⟨rfl, rfl, rfl, rfl, rfl, rfl, rfl, rfl, rfl, rfl, Memory.readCell_reset⟩, fun s rest h => ?_, fun s => ?_⟩
  · exact ⟨_, step_of_reset h, fun r => readReg_setHost .., rfl⟩
  · exact ⟨_, exec_softReset s, fun r => readReg_setHost .., rfl⟩

/-! ## STATUS is written and never read (R35, R255) -/

/-- Every command's conditions and values come from the other fields, and its last write is to STATUS. -/
theorem exec_setStatus (i : Instr) (s : State) (c : Byte) : exec i (s.setStatus c) = exec i s := by
  cases i with
  | cvConvert d pad src dst => cases d <;> rfl
  | _ => rfl

/-- Settles O19: a word that decodes is its command, and any other word only sets STATUS. -/
theorem noCommandReadsStatus : Obligations.NoCommandReadsStatus := by
  intro w s c
  unfold executeCommand
  cases decode w with
  | ok i => exact exec_setStatus i s c
  | error e => rfl

/-! ## Memory and cursors within their bounds (R30, R31) -/

/-- The invariant's share that STATUS has no part in: canonical memory, and both cursors within CURSOR_MAX. -/
structure Bounded (s : State) : Prop where
  txt : Buffer.wf s.mem.txt = true
  hrp : Buffer.wf s.mem.hrp = true
  sym : Buffer.wf s.mem.sym = true
  byt : Buffer.wf s.mem.byt = true
  wcur : s.wcur.toNat ≤ Config.cursorMax
  rcur : s.rcur.toNat ≤ Config.cursorMax

theorem inv_iff {s : State} : Inv s ↔ Bounded s ∧ s.statusLegal := by
  rw [Inv, Memory.wf_iff]
  constructor
  · rintro ⟨⟨h1, h2, h3, h4⟩, h5, h6, h7⟩
    exact ⟨⟨h1, h2, h3, h4, h5, h6⟩, h7⟩
  · rintro ⟨⟨h1, h2, h3, h4, h5, h6⟩, h7⟩
    exact ⟨⟨h1, h2, h3, h4⟩, h5, h6, h7⟩

theorem bounded_reset : Bounded State.reset := ⟨rfl, rfl, rfl, rfl, Nat.zero_le _, Nat.zero_le _⟩

/-- Settles O9: memory is empty, both cursors are 0 and STATUS is OK's code. -/
theorem resetKeepsInvariant : Obligations.ResetKeepsInvariant :=
  inv_iff.mpr ⟨bounded_reset, StatusCode.code_mem .ok⟩

theorem wf_appendBit (o : BitOrder) (sym : Buffer 5) (q : Nat) (b : Bool) (h : Buffer.wf sym = true) :
    Buffer.wf (appendBit o sym q b) = true := by
  unfold appendBit
  split
  · exact Buffer.wf_write _ _ _ (Buffer.wf_write _ _ _ h)
  · exact Buffer.wf_write _ _ _ h

theorem wf_appendBits (o : BitOrder) (sym : Buffer 5) (q : Nat) (bits : List Bool) (h : Buffer.wf sym = true) :
    Buffer.wf (appendBits o sym q bits) = true := by
  induction bits generalizing sym q with
  | nil => exact h
  | cons b bs ih => exact ih _ _ (wf_appendBit o sym q b h)

/-- A cursor set to a position within CURSOR_MAX stays within it. -/
theorem toNat_cursor_le {q : Nat} (h : q ≤ Config.cursorMax) : (BitVec.ofNat 11 q).toNat ≤ Config.cursorMax :=
  (Nat.mod_le ..).trans h

/-- The bits a buffer of SLEN symbols holds are no more than CURSOR_MAX. -/
theorem five_mul_slen_le (s : State) : 5 * s.slen.toNat ≤ Config.cursorMax := by
  have := s.slen.isLt
  unfold Config.cursorMax
  omega

/-! ## How a command ends (R14, R250, R252) -/

/-- The outcome `o` of a command at `s`: one of the listed codes is raised, or the command finishes, after writes that
leave the host side as it is and stay within the bounds. -/
def EndsWith (codes : List StatusCode) (s : State) (o : Host.Outcome State Fault Refusal) : Prop :=
  (∃ c ∈ codes, o = raise c s) ∨ ∃ u, o = finish u ∧ u.host = s.host ∧ (Bounded s → Bounded u)

section
variable {codes : List StatusCode} {s u : State}

theorem endsWith_raise {c : StatusCode} (h : c ∈ codes) : EndsWith codes s (raise c s) := .inl ⟨c, h, rfl⟩

theorem endsWith_finish (hhost : u.host = s.host) (hb : Bounded s → Bounded u) : EndsWith codes s (finish u) :=
  .inr ⟨u, rfl, hhost, hb⟩

/-- A command that checks `p` first ends as the branch taken does. -/
theorem endsWith_ite {p : Prop} [Decidable p] {a b : Host.Outcome State Fault Refusal}
    (ha : EndsWith codes s a) (hb : ¬ p → EndsWith codes s b) : EndsWith codes s (if p then a else b) := by
  split
  · exact ha
  · next h => exact hb h

end

theorem execPmSyms_ends (start len : Nat) (s : State) : EndsWith [.range] s (execPmSyms start len s) :=
  endsWith_ite (endsWith_raise (by simp)) fun _ => endsWith_finish rfl fun hs => { hs with }

theorem execPmCmpm_ends (v : Variant) (s : State) : EndsWith [.checksumMismatch] s (execPmCmpm v s) :=
  endsWith_ite (endsWith_raise (by simp)) fun _ => endsWith_finish rfl id

/-- Appending a checksum writes SYM and SLEN. -/
theorem Bounded.appendChecksum {s : State} (hs : Bounded s) (c : Chk) : Bounded (appendChecksum c s) :=
  { hs with sym := Buffer.wf_writeList _ _ _ hs.sym }

theorem execPmEmit_ends (s : State) : EndsWith [.capacity] s (execPmEmit s) :=
  endsWith_ite (endsWith_raise (by simp)) fun _ => endsWith_finish rfl fun hs => hs.appendChecksum _

theorem execCkCreate_ends (v : Variant) (s : State) : EndsWith [.capacity] s (execCkCreate v s) :=
  endsWith_ite (endsWith_raise (by simp)) fun _ => endsWith_finish rfl fun hs => { hs.appendChecksum _ with }

theorem execCkVerify_ends (v : Variant) (s : State) : EndsWith [.checksumMismatch] s (execCkVerify v s) :=
  endsWith_ite (endsWith_raise (by simp)) fun _ => endsWith_finish rfl fun hs => { hs with }

theorem execAlEnc_ends (s : State) : EndsWith [.range] s (execAlEnc s) :=
  endsWith_ite (endsWith_raise (by simp)) fun _ => endsWith_finish rfl fun hs => { hs with }

theorem execAlDec_ends (s : State) :
    EndsWith [.range, .nonPrintableCharacter, .invalidCharacter] s (execAlDec s) := by
  refine endsWith_ite (endsWith_raise (by simp)) fun _ => endsWith_ite (endsWith_raise (by simp)) fun _ => ?_
  cases rev (s.arg.setWidth 8) with
  | none => exact endsWith_raise (by simp)
  | some i => exact endsWith_finish rfl fun hs => { hs with }

theorem execBcEncode_ends (v : Variant) (s : State) : EndsWith [.capacity] s (execBcEncode v s) :=
  endsWith_ite (endsWith_raise (by simp)) fun _ => endsWith_finish rfl fun hs =>
    { hs with hrp := Buffer.wf_writeList _ _ _ hs.hrp, txt := Buffer.wf_writeList _ _ _ hs.txt }

/-- The eight checks of BC_DECODE raise the codes its row lists (R186, R250). -/
theorem parseString_error_mem {v : Variant} {x : List Byte} {c : StatusCode} (h : parseString v x = .error c) :
    c ∈ raisedBy (.bcDecode v) := by
  simp only [parseString] at h
  repeat' split at h
  all_goals cases h <;> simp [raisedBy]

theorem execBcDecode_ends (v : Variant) (s : State) : EndsWith (raisedBy (.bcDecode v)) s (execBcDecode v s) := by
  unfold execBcDecode
  cases h : parseString v s.txtText with
  | error c => exact endsWith_raise (parseString_error_mem h)
  | ok r =>
    exact endsWith_finish rfl fun hs =>
      { hs with hrp := Buffer.wf_writeList _ _ _ hs.hrp, sym := Buffer.wf_writeList _ _ _ hs.sym }

/-- A field that ends within CURSOR_MAX leaves WCUR within it. -/
theorem Bounded.appendField {s : State} (hs : Bounded s) (o : BitOrder) {bits : List Bool}
    (h : s.wcur.toNat + bits.length ≤ Config.cursorMax) : Bounded (appendField o bits s) :=
  { hs with sym := wf_appendBits _ _ _ _ hs.sym, wcur := toNat_cursor_le h }

@[simp] theorem length_fieldBitsL (n : Nat) (x : Word) : (fieldBitsL n x).length = n := by simp [fieldBitsL]

@[simp] theorem length_fieldBitsM (n : Nat) (x : Word) : (fieldBitsM n x).length = n := by simp [fieldBitsM]

theorem execAgAppendL_ends (n : Nat) (s : State) : EndsWith [.capacity] s (execAgAppendL n s) :=
  endsWith_ite (endsWith_raise (by simp)) fun hn => endsWith_ite (endsWith_finish rfl id) fun _ =>
    endsWith_finish rfl fun hs => hs.appendField _ (by simpa using hn)

theorem execAgAppendM_ends (n : Nat) (s : State) : EndsWith [.capacity] s (execAgAppendM n s) :=
  endsWith_ite (endsWith_raise (by simp)) fun hn => endsWith_ite (endsWith_finish rfl id) fun _ =>
    endsWith_finish rfl fun hs => hs.appendField _ (by simpa using hn)

/-- A field read within SLEN's units leaves RCUR within CURSOR_MAX, whatever it leaves in RES. -/
theorem Bounded.advanceRcur {s : State} (hs : Bounded s) (x : Word) {n : Nat}
    (h : ¬ s.rcur.toNat + n > 5 * s.slen.toNat) :
    Bounded ((s.setRes x).setRcur (BitVec.ofNat 11 (s.rcur.toNat + n))) :=
  { hs with rcur := toNat_cursor_le ((not_lt.mp h).trans (five_mul_slen_le s)) }

theorem execEnNextL_ends (n : Nat) (s : State) : EndsWith [.underflow] s (execEnNextL n s) :=
  endsWith_ite (endsWith_raise (by simp)) fun hn => endsWith_finish rfl fun hs => hs.advanceRcur _ hn

theorem execEnNextM_ends (n : Nat) (s : State) : EndsWith [.underflow] s (execEnNextM n s) :=
  endsWith_ite (endsWith_raise (by simp)) fun hn => endsWith_finish rfl fun hs => hs.advanceRcur _ hn

theorem convertTo5_ends (pad : Bool) (src dst : Nat) (s : State) :
    EndsWith [.range, .capacity, .bitsConversionFailed] s (convertTo5 pad src dst s) := by
  refine endsWith_ite (endsWith_raise (by simp)) fun _ => endsWith_ite (endsWith_raise (by simp)) fun _ => ?_
  split
  · exact endsWith_raise (by simp)
  · exact endsWith_finish rfl fun hs => { hs with sym := Buffer.wf_writeList _ _ _ hs.sym }

theorem convertTo8_ends (pad : Bool) (src dst : Nat) (s : State) :
    EndsWith [.range, .capacity, .bitsConversionFailed] s (convertTo8 pad src dst s) := by
  refine endsWith_ite (endsWith_raise (by simp)) fun _ => endsWith_ite (endsWith_raise (by simp)) fun _ => ?_
  split
  · exact endsWith_raise (by simp)
  · exact endsWith_finish rfl fun hs => { hs with byt := Buffer.wf_writeList _ _ _ hs.byt }

/-- What each command can do, said once: it raises a code of its row of R250's table and changes nothing else, or it
finishes with the host side kept and within the bounds. -/
theorem exec_ends (i : Instr) (s : State) : EndsWith (raisedBy i) s (exec i s) := by
  cases i with
  | nop => exact endsWith_finish rfl id
  | softReset => exact endsWith_finish rfl fun _ => { bounded_reset with }
  | pmInit => exact endsWith_finish rfl fun hs => { hs with }
  | pmStep imm5 => exact endsWith_finish rfl fun hs => { hs with }
  | pmHrp => exact endsWith_finish rfl fun hs => { hs with }
  | pmSyms start len => exact execPmSyms_ends start len s
  | pmZeros cnt => exact endsWith_finish rfl fun hs => { hs with }
  | pmXorm v => exact endsWith_finish rfl fun hs => { hs with }
  | pmCmpm v => exact execPmCmpm_ends v s
  | pmEmit => exact execPmEmit_ends s
  | ckCreate v => exact execCkCreate_ends v s
  | ckVerify v => exact execCkVerify_ends v s
  | alEnc => exact execAlEnc_ends s
  | alDec => exact execAlDec_ends s
  | bcEncode v => exact execBcEncode_ends v s
  | bcDecode v => exact execBcDecode_ends v s
  | agClear => exact endsWith_finish rfl fun hs => { hs with wcur := Nat.zero_le _ }
  | agAppendL n => exact execAgAppendL_ends n s
  | agAppendM n => exact execAgAppendM_ends n s
  | enStart => exact endsWith_finish rfl fun hs => { hs with rcur := Nat.zero_le _ }
  | enNextL n => exact execEnNextL_ends n s
  | enNextM n => exact execEnNextM_ends n s
  | cvConvert d pad src dst =>
    cases d with
    | to5 => exact convertTo5_ends pad src dst s
    | to8 => exact convertTo8_ends pad src dst s

/-! ## The invariant along a step -/

theorem inv_of_setStatus {s : State} (hs : Bounded s) (c : StatusCode) : Inv (s.setStatus c.code) :=
  inv_iff.mpr ⟨{ hs with }, c.code_mem⟩

theorem EndsWith.inv {codes : List StatusCode} {s t : State} {o : Host.Outcome State Fault Refusal}
    (h : EndsWith codes s o) (hs : Bounded s) (ho : o = .next t) : Inv t := by
  obtain ⟨c, -, rfl⟩ | ⟨u, rfl, -, hu⟩ := h
  · rw [raise_next ho]
    exact inv_of_setStatus hs c
  · rw [finish_next ho]
    exact inv_of_setStatus (hu hs) .ok

/-- A command word, decodable or not, keeps the invariant (R91, R122). -/
theorem executeCommand_keeps_inv {w : Word} {s t : State} (hs : Inv s) (h : executeCommand w s = .next t) : Inv t := by
  have hb : Bounded s := (inv_iff.mp hs).1
  unfold executeCommand at h
  split at h
  · next i _ => exact (exec_ends i s).inv hb h
  · exact (endsWith_raise (List.mem_singleton_self _)).inv hb h

/-- No writable register but CMD has a share in the invariant, so a write to it keeps it; STATUS and the cursors are
read-only (R62). -/
theorem writeReg_keeps_inv {r : Reg} {d : Word} {s t : State} (hs : Inv s) (h : writeReg r d s = .next t) : Inv t := by
  cases r with
  | cmd => exact executeCommand_keeps_inv hs h
  | _ => cases h; exact hs

theorem portWrite_keeps_inv {a : PortAddr} {d : Word} {s t : State} (hs : Inv s) (h : portWrite a d s = .next t) :
    Inv t := by
  unfold portWrite at h
  split at h
  · exact writeReg_keeps_inv hs h
  · cases h
    obtain ⟨hmem, hrest⟩ := hs
    exact ⟨Memory.wf_writeCell _ _ _ _ hmem, hrest⟩
  · cases h
    exact hs

/-- A completed access: a read leaves the engine as it is, a write is the port write. -/
theorem hostAccess_next {acc : Access} {s t : State} {v : Word} (h : hostAccess acc s = .next (v, t)) :
    (∃ v', t = s.observe v') ∨ ∃ a d, portWrite a d s = .next t := by
  unfold hostAccess at h
  split at h
  · next v' u hacc =>
    cases acc with
    | read width a =>
      obtain ⟨-, -, -, rfl⟩ := accessPort_read_next.mp hacc
      cases h
      exact .inl ⟨_, rfl⟩
    | write width a d =>
      obtain ⟨-, -, -, hw⟩ := accessPort_write_next.mp hacc
      cases h
      exact .inr ⟨a, d, hw⟩
  · cases h
  · cases h

theorem hostAccess_keeps_inv {acc : Access} {s t : State} {v : Word} (hs : Inv s)
    (h : hostAccess acc s = .next (v, t)) : Inv t := by
  obtain ⟨v', rfl⟩ | ⟨a, d, hw⟩ := hostAccess_next h
  · exact hs
  · exact portWrite_keeps_inv hs hw

/-- Where a procedure stands changes only the host side. -/
theorem settleProcedure_next {p : Procedure} {answers : List Word} {s t : State}
    (h : settleProcedure p answers s = .next t) : ∃ host, t = s.setHost host := by
  unfold settleProcedure at h
  split at h <;> cases h <;> exact ⟨_, rfl⟩

theorem settleProcedure_keeps_inv {p : Procedure} {answers : List Word} {s t : State} (hs : Inv s)
    (h : settleProcedure p answers s = .next t) : Inv t := by
  obtain ⟨host, rfl⟩ := settleProcedure_next h
  exact hs

theorem proceedProcedure_keeps_inv {r : ProcRun} {s t : State} (hs : Inv s) (h : proceedProcedure r s = .next t) :
    Inv t := by
  unfold proceedProcedure at h
  split at h
  · exact settleProcedure_keeps_inv hs h
  · split at h
    · next hacc => exact settleProcedure_keeps_inv (hostAccess_keeps_inv hs hacc) h
    · cases h
    · cases h

theorem hostEvent_keeps_inv {e : HostEvent} {s t : State} (hs : Inv s) (h : hostEvent e s = .next t) : Inv t := by
  cases e with
  | reset =>
    cases h
    exact resetKeepsInvariant
  | access acc =>
    simp only [hostEvent] at h
    split at h
    · cases h
    · split at h
      · next hacc =>
        cases h
        exact hostAccess_keeps_inv hs hacc
      · cases h
      · cases h
  | call p =>
    simp only [hostEvent] at h
    split at h
    · cases h
    · exact settleProcedure_keeps_inv hs h
  | proceed =>
    simp only [hostEvent] at h
    split at h
    · cases h
      exact hs
    · exact proceedProcedure_keeps_inv hs h

/-- Settles O10: a step is idle or one host event, and every event keeps the invariant; the engine's share of an event
is a port write, which reaches memory, or the cursors and STATUS through a command. -/
theorem everyStepKeepsInvariant : Obligations.EveryStepKeepsInvariant := by
  intro s t hs h
  unfold step at h
  split at h
  · cases h
    exact hs
  · next e rest _ => exact hostEvent_keeps_inv (s := s.setSchedule rest) hs h

end Sys2Proof.Machine
end

section
/-! The host port (spec/20_memory.md): which accesses complete, what a read observes, and what a write to a register or
a reserved word leaves. -/

namespace Sys2Proof.Machine

/-! ## The address map (R62) -/

theorem regAt_of_twelve_le {n : Nat} (h : 12 ≤ n) : regAt n = none := by
  obtain ⟨k, rfl⟩ := Nat.exists_eq_add_of_le' h
  rfl

/-- Nothing stands in the two reserved ranges. -/
theorem locate_reserved {a : PortAddr} (h : (0x0030 ≤ a.toNat ∧ a.toNat < 0x0400) ∨ 0x1400 ≤ a.toNat) :
    locate a = none := by
  unfold locate
  obtain ⟨hlo, hhi⟩ | h := h
  · rw [if_pos hhi, regAt_of_twelve_le (by omega)]
    rfl
  · rw [if_neg (by omega), if_neg (by omega), if_neg (by omega), if_neg (by omega), if_neg (by omega)]

/-! ## Reads (R33, R37, R63) -/

theorem portRead_at_reg {a : PortAddr} (r : Reg) (s : State) (ha : a = r.addr) : portRead a s = readReg s r := by
  simp only [portRead, ha, locate_reg]

theorem portRead_at_cell {a : PortAddr} (b : BufName) (s : State) {i : Nat} (hi : i < 256)
    (ha : a.toNat = b.base + 4 * i) : portRead a s = s.mem.readCell b i := by
  simp only [portRead, eq_cellAddr b hi ha, locate_cell b hi]

theorem portRead_reserved {a : PortAddr} (s : State)
    (h : (0x0030 ≤ a.toNat ∧ a.toNat < 0x0400) ∨ 0x1400 ≤ a.toNat) : portRead a s = 0#32 := by
  simp only [portRead, locate_reserved h]

/-- A read depends on the engine alone. -/
@[simp] theorem portRead_setHost (a : PortAddr) (s : State) (h : HostSide) :
    portRead a (s.setHost h) = portRead a s := by
  unfold portRead
  cases locate a with
  | none => rfl
  | some l =>
    cases l with
    | reg r => exact readReg_setHost ..
    | cell b i => rfl

/-! ## Accesses by a host with no procedure under way (R66) -/

section
variable {s : State} {a : PortAddr} {rest : List HostEvent}

theorem step_access {acc : Access} (hs : s.host.schedule = .access acc :: rest) (hr : s.host.running = none) :
    step s = hostEvent (.access acc) (s.setHost ⟨rest, none, s.host.reads, s.host.outcomes⟩) := by
  rw [step_of_schedule hs, setSchedule_of_not_running rest hr]

/-- A step whose access is an aligned 32-bit read observes the port's value, and the engine stays as it is (R63). -/
theorem step_read (ha : a.toNat % 4 = 0) (hs : s.host.schedule = .access (.read 32 a) :: rest)
    (hr : s.host.running = none) :
    step s = .next (s.setHost ⟨rest, none, s.host.reads ++ [portRead a s], s.host.outcomes⟩) := by
  have hacc : accessRefusal 32 a = none := accessRefusal_eq_none.mpr ⟨rfl, ha⟩
  rw [step_access hs hr]
  simp only [hostEvent, hostAccess, accessPort, hacc, State.setHost_host, portRead_setHost]
  rfl

/-- An access that R66 refuses ends the step, whether it reads or writes. -/
theorem step_of_accessRefusal {width : Nat} {d : Word} {acc : Access} {x : Refusal}
    (hacc : acc = .read width a ∨ acc = .write width a d) (hx : accessRefusal width a = some x)
    (hs : s.host.schedule = .access acc :: rest) (hr : s.host.running = none) : step s = .refused x := by
  rw [step_access hs hr]
  obtain rfl | rfl := hacc <;> simp only [hostEvent, hostAccess, accessPort, hx, State.setHost_host]

end

theorem accessRefusal_of_width_ne {width : Nat} (a : PortAddr) (h : width ≠ 32) :
    accessRefusal width a = some .accessWidth := if_pos h

theorem accessRefusal_of_misaligned {a : PortAddr} (h : a.toNat % 4 ≠ 0) : accessRefusal 32 a = some .misaligned :=
  if_pos h

/-! ## A port read returns what the map puts at the address (R62, R63) -/

/-- Settles O12: the observed value is `portRead`'s, and the address map locates each address as the register or cell
the statement names, or as reserved. -/
theorem portReadReturnsMapContent : Obligations.PortReadReturnsMapContent := fun s a _ ha hs hr =>
  ⟨portRead a s, step_read ha hs hr, portRead_at_reg .id s, portRead_at_reg .cmd s, portRead_at_reg .status s,
    portRead_at_reg .arg s, portRead_at_reg .res s, portRead_at_reg .chk s, portRead_at_reg .tlen s,
    portRead_at_reg .hlen s, portRead_at_reg .slen s, portRead_at_reg .blen s, portRead_at_reg .wcur s,
    portRead_at_reg .rcur s, fun h => portRead_reserved s (.inl h), fun _ => portRead_at_cell .txt s,
    fun _ => portRead_at_cell .hrp s, fun _ => portRead_at_cell .sym s, fun _ => portRead_at_cell .byt s,
    fun h => portRead_reserved s (.inr h)⟩

/-! ## Port writes complete (R66, R266) -/

theorem EndsWith.exists_next {codes : List StatusCode} {s : State} {o : Host.Outcome State Fault Refusal}
    (h : EndsWith codes s o) : ∃ t, o = .next t := by
  obtain ⟨c, -, rfl⟩ | ⟨u, rfl, -, -⟩ := h
  · exact ⟨_, raise_eq c s⟩
  · exact ⟨_, finish_eq u⟩

theorem executeCommand_exists_next (w : Word) (s : State) : ∃ t, executeCommand w s = .next t := by
  unfold executeCommand
  cases decode w with
  | ok i => exact (exec_ends i s).exists_next
  | error e => exact ⟨_, illegalCommand_eq s⟩

theorem writeReg_exists_next (r : Reg) (d : Word) (s : State) : ∃ t, writeReg r d s = .next t := by
  cases r with
  | cmd => exact executeCommand_exists_next d s
  | _ => exact ⟨_, rfl⟩

theorem portWrite_exists_next (a : PortAddr) (d : Word) (s : State) : ∃ t, portWrite a d s = .next t := by
  unfold portWrite
  cases locate a with
  | none => exact ⟨_, rfl⟩
  | some l =>
    cases l with
    | reg r => exact writeReg_exists_next r d s
    | cell b i => exact ⟨_, rfl⟩

/-- Settles O15: the access's width and then its alignment refuse it; an aligned read observes a value, and an aligned
write is a port write, which always completes. -/
theorem onlyAlignedWordAccessesComplete : Obligations.OnlyAlignedWordAccessesComplete := by
  intro s width a d rest acc hacc hs hr
  refine ⟨fun hw => ?_, fun hw ha => ?_, fun hw ha => ?_⟩
  · exact step_of_accessRefusal hacc (accessRefusal_of_width_ne a hw) hs hr
  · subst hw
    exact step_of_accessRefusal hacc (accessRefusal_of_misaligned ha) hs hr
  · subst hw
    obtain rfl | rfl := hacc
    · exact ⟨_, step_read ha hs hr⟩
    · rw [step_write ha hs hr]
      exact portWrite_exists_next ..

/-! ## Register writes (R25 to R29, R63, R64) -/

/-- A write to a register other than CMD changes at most that register. -/
theorem writeReg_frame {r : Reg} {d : Word} {s t : State} (hr : r ≠ .cmd) (h : writeReg r d s = .next t) :
    frame [r] noCells s t := by
  cases r with
  | cmd => exact absurd rfl hr
  | _ =>
    cases h
    refine ⟨fun r' hr' => ?_, fun _ _ _ => rfl, rfl⟩
    cases r' <;> simp [readReg] at hr' ⊢

theorem portWrite_reserved {a : PortAddr} (d : Word) (s : State)
    (h : (0x0030 ≤ a.toNat ∧ a.toNat < 0x0400) ∨ 0x1400 ≤ a.toNat) : portWrite a d s = .next s := by
  simp only [portWrite, locate_reserved h]

theorem portWrite_readOnly {a : PortAddr} (d : Word) (s : State)
    (h : a ∈ [Reg.id, .status, .res, .wcur, .rcur].map Reg.addr) : portWrite a d s = .next s := by
  obtain ⟨r, hr, rfl⟩ := List.mem_map.mp h
  rw [portWrite_reg]
  simp only [List.mem_cons, List.not_mem_nil, or_false] at hr
  obtain rfl | rfl | rfl | rfl | rfl := hr <;> rfl

/-- Settles O13: a register's address is located as that register, and `writeReg` cuts the data to its width. -/
theorem portWriteToRegister : Obligations.PortWriteToRegister := by
  refine ⟨fun s a d rest ha _ hs hr => ?_, fun s d => ⟨portWrite_reg .arg d s, ?_, ?_, ?_, ?_, ?_, fun a =>
    portWrite_readOnly d s, fun a _ => portWrite_reserved d s⟩⟩
  · obtain ⟨t, ht⟩ := portWrite_exists_next a d (s.setHost ⟨rest, none, s.host.reads, s.host.outcomes⟩)
    exact ⟨t, ht, (step_write ha hs hr).trans ht⟩
  · exact ⟨_, portWrite_reg .chk d s, BitVec.toNat_setWidth .., writeReg_frame (d := d) (by decide) rfl⟩
  · exact ⟨_, portWrite_reg .tlen d s, BitVec.toNat_setWidth .., writeReg_frame (d := d) (by decide) rfl⟩
  · exact ⟨_, portWrite_reg .hlen d s, BitVec.toNat_setWidth .., writeReg_frame (d := d) (by decide) rfl⟩
  · exact ⟨_, portWrite_reg .slen d s, BitVec.toNat_setWidth .., writeReg_frame (d := d) (by decide) rfl⟩
  · exact ⟨_, portWrite_reg .blen d s, BitVec.toNat_setWidth .., writeReg_frame (d := d) (by decide) rfl⟩

end Sys2Proof.Machine
end

section
/-! The encoding of the commands (spec/30_encoding.md). A word is read as a number: a field of it is a remainder of a
quotient, and the reserved bits of a format are one such field, clear exactly where it is 0. In each part the facts
about the model's functions stand before the theorems that settle obligations. -/

namespace Sys2Proof
open Machine

/-! ## Fields of a word as numbers (R90) -/

theorem toNat_append_eq_add {m n : Nat} (x : BitVec m) (y : BitVec n) :
    (x ++ y).toNat = x.toNat * 2 ^ n + y.toNat := by
  rw [BitVec.toNat_append, ← Nat.shiftLeft_add_eq_or_of_lt y.isLt, Nat.shiftLeft_eq]

theorem toNat_zero_append {k n : Nat} (x : BitVec n) : (0#k ++ x).toNat = x.toNat := by
  rw [toNat_append_eq_add, BitVec.toNat_ofNat, Nat.zero_mod, Nat.zero_mul, Nat.zero_add]

theorem toNat_extractLsb'_eq (w : Word) (lo len : Nat) :
    (w.extractLsb' lo len).toNat = w.toNat / 2 ^ lo % 2 ^ len := by
  rw [BitVec.extractLsb'_toNat, Nat.shiftRight_eq_div_pow]

theorem field8_eq (w : Word) (lo : Nat) : field8 w lo = w.toNat / 2 ^ lo % 256 := toNat_extractLsb'_eq w lo 8

theorem fieldN_eq (w : Word) : fieldN w = w.toNat % 32 := by
  rw [fieldN, BitVec.extractLsb'_toNat, Nat.shiftRight_zero]

theorem opField_eq (w : Word) : opField w = w.toNat / 2 ^ 24 :=
  (toNat_extractLsb'_eq w 24 8).trans (by omega)

theorem toNat_getLsbD {n : Nat} (w : BitVec n) (k : Nat) : (w.getLsbD k).toNat = w.toNat / 2 ^ k % 2 := by
  rw [BitVec.getLsbD, Nat.toNat_testBit]

theorem getLsbD_eq_of_toNat {n : Nat} {w : BitVec n} {k : Nat} {b : Bool} (h : w.toNat / 2 ^ k % 2 = b.toNat) :
    w.getLsbD k = b :=
  Function.LeftInverse.injective Bool.ofNat_toNat ((toNat_getLsbD w k).trans h)

@[simp] theorem bit_variantOfBit (b : Bool) : (variantOfBit b).bit = b := by cases b <;> rfl

@[simp] theorem variantOfBit_bit (v : Variant) : variantOfBit v.bit = v := by cases v <;> rfl

@[simp] theorem bit_directionOfBit (b : Bool) : (directionOfBit b).bit = b := by cases b <;> rfl

@[simp] theorem directionOfBit_bit (d : Direction) : directionOfBit d.bit = d := by cases d <;> rfl

/-! ## The operand bits of each format as a number (R93 to R98) -/

theorem toNat_operands_v (b : Bool) : (0#23 ++ BitVec.ofBool b : BitVec 24).toNat = b.toNat :=
  (toNat_zero_append _).trans (BitVec.toNat_ofBool b)

/-- The formats I5 and B. -/
theorem toNat_operands_low5 (x : BitVec 5) : (0#19 ++ x : BitVec 24).toNat = x.toNat := toNat_zero_append x

theorem toNat_operands_i8 (x : BitVec 8) : (0#16 ++ x : BitVec 24).toNat = x.toNat := toNat_zero_append x

theorem toNat_operands_r (x y : BitVec 8) : (0#8 ++ x ++ y : BitVec 24).toNat = x.toNat * 2 ^ 8 + y.toNat :=
  calc (0#8 ++ x ++ y : BitVec 24).toNat = (0#8 ++ x).toNat * 2 ^ 8 + y.toNat := toNat_append_eq_add (0#8 ++ x) y
    _ = x.toNat * 2 ^ 8 + y.toNat := by rw [toNat_zero_append]

theorem toNat_operands_c (x y : BitVec 8) (p d : Bool) :
    (x ++ y ++ 0#6 ++ BitVec.ofBool p ++ BitVec.ofBool d : BitVec 24).toNat =
      x.toNat * 2 ^ 16 + y.toNat * 2 ^ 8 + p.toNat * 2 + d.toNat := by
  have hx := toNat_append_eq_add x y
  have hy := toNat_append_eq_add (x ++ y) 0#6
  have hp := toNat_append_eq_add (x ++ y ++ 0#6) (BitVec.ofBool p)
  have hd := toNat_append_eq_add (x ++ y ++ 0#6 ++ BitVec.ofBool p) (BitVec.ofBool d)
  simp only [hd, hp, hy, hx, BitVec.toNat_ofBool, BitVec.toNat_ofNat]
  omega

theorem getLsbD_operands_v (b : Bool) : (0#23 ++ BitVec.ofBool b : BitVec 24).getLsbD 0 = b :=
  getLsbD_eq_of_toNat (by rw [toNat_operands_v]; cases b <;> rfl)

theorem getLsbD_zero_operands_c (x y : BitVec 8) (p d : Bool) :
    (x ++ y ++ 0#6 ++ BitVec.ofBool p ++ BitVec.ofBool d : BitVec 24).getLsbD 0 = d :=
  getLsbD_eq_of_toNat (by rw [toNat_operands_c]; have := d.toNat_lt; omega)

theorem getLsbD_one_operands_c (x y : BitVec 8) (p d : Bool) :
    (x ++ y ++ 0#6 ++ BitVec.ofBool p ++ BitVec.ofBool d : BitVec 24).getLsbD 1 = p :=
  getLsbD_eq_of_toNat (by rw [toNat_operands_c]; have := d.toNat_lt; have := p.toNat_lt; omega)

/-! ## The opcodes (R100, R101) -/

theorem Opcode.ofNat?_code (op : Opcode) : Opcode.ofNat? op.code.toNat = some op := by cases op <;> rfl

theorem Opcode.ofNat?_eq_some_iff {n : Nat} {op : Opcode} : Opcode.ofNat? n = some op ↔ n = op.code.toNat := by
  constructor
  · intro h
    unfold Opcode.ofNat? at h
    split at h <;> cases h <;> rfl
  · rintro rfl
    exact op.ofNat?_code

theorem Opcode.toNat_code_lt (op : Opcode) : op.code.toNat < 0x49 := by cases op <;> decide

/-- The unassigned OP bytes, as R101 lists them. -/
theorem Opcode.ofNat?_eq_none_iff {n : Nat} : Opcode.ofNat? n = none ↔
    (0x02 ≤ n ∧ n ≤ 0x0F) ∨ (0x18 ≤ n ∧ n ≤ 0x1F) ∨ (0x22 ≤ n ∧ n ≤ 0x2F) ∨ (0x34 ≤ n ∧ n ≤ 0x3F) ∨
      n = 0x41 ∨ n = 0x45 ∨ 0x49 ≤ n := by
  by_cases hn : n < 0x49
  · revert n
    decide
  · have hnone : Opcode.ofNat? n = none := Option.eq_none_iff_forall_ne_some.mpr fun op h =>
      hn (Opcode.ofNat?_eq_some_iff.mp h ▸ op.toNat_code_lt)
    simp only [hnone, true_iff]
    omega

/-! ## The reserved bits of each format (R90, R92 to R98) -/

/-- The lowest reserved bit of a format. -/
def Format.reservedLo : Format → Nat
  | .n => 0
  | .v => 1
  | .i5 | .b => 5
  | .i8 => 8
  | .r => 16
  | .c => 2

/-- The bit above the highest reserved bit of a format. -/
def Format.reservedHi : Format → Nat
  | .c => 8
  | _ => 24

/-- The reserved bits of a word in a format, as one number. -/
def Format.reserved (f : Format) (w : Word) : Nat := w.toNat % 2 ^ f.reservedHi / 2 ^ f.reservedLo

/-- The reserved bits of a format run from `reservedLo` up to but not `reservedHi`. -/
theorem Format.getLsbD_reservedMask (f : Format) {k : Nat} (hk : k < 32) :
    (0xFFFFFF#32 &&& ~~~f.fieldMask).getLsbD k = decide (f.reservedLo ≤ k ∧ k < f.reservedHi) := by
  revert k
  cases f <;> decide

theorem mod_div_two_pow_eq_zero_iff {x lo hi : Nat} :
    x % 2 ^ hi / 2 ^ lo = 0 ↔ ∀ k, lo ≤ k → k < hi → x.testBit k = false := by
  simp only [Nat.eq_iff_testBit_eq, Nat.testBit_div_two_pow, Nat.testBit_mod_two_pow, Nat.zero_testBit,
    Bool.and_eq_false_imp, decide_eq_true_eq]
  constructor
  · intro h k hlo hhi
    have hk := h (k - lo)
    rw [Nat.sub_add_cancel hlo] at hk
    exact hk hhi
  · exact fun h j hj => h (j + lo) (Nat.le_add_left ..) hj

/-- The decoder's test of the reserved bits (R91). -/
theorem Format.and_reservedMask_eq_zero_iff (f : Format) (w : Word) :
    w &&& 0xFFFFFF#32 &&& ~~~f.fieldMask = 0#32 ↔ f.reserved w = 0 := by
  have hhi : f.reservedHi ≤ 32 := by cases f <;> decide
  have hbit {k : Nat} (hk : k < 32) : (w &&& (0xFFFFFF#32 &&& ~~~f.fieldMask)).getLsbD k =
      (w.toNat.testBit k && decide (f.reservedLo ≤ k ∧ k < f.reservedHi)) := by
    rw [BitVec.getLsbD_and, f.getLsbD_reservedMask hk, BitVec.testBit_toNat]
  rw [BitVec.and_assoc, Format.reserved, mod_div_two_pow_eq_zero_iff]
  constructor
  · intro h k hlo hk
    have hz := hbit (Nat.lt_of_lt_of_le hk hhi)
    simpa [h, hlo, hk] using hz
  · intro h
    refine BitVec.eq_of_getLsbD_eq fun k hk => ?_
    rw [hbit hk, BitVec.getLsbD_zero, Bool.and_eq_false_imp]
    intro hset
    rw [decide_eq_false_iff_not]
    rintro ⟨hlo, hlt⟩
    exact Bool.false_ne_true ((h k hlo hlt).symm.trans hset)

/-! ## The decoder's two steps (R91) -/

theorem decode_eq_ok_iff_instr {w : Word} {i : Instr} :
    decode w = .ok i ↔ ∃ op : Opcode, opField w = op.code.toNat ∧ op.format.reserved w = 0 ∧ op.instr w = i := by
  simp only [← Opcode.ofNat?_eq_some_iff, ← Format.and_reservedMask_eq_zero_iff, decode]
  cases Opcode.ofNat? (opField w) with
  | none => simp
  | some op => simp [ite_eq_iff]

theorem exists_decode_eq_error_iff {w : Word} :
    (∃ e, decode w = .error e) ↔
      Opcode.ofNat? (opField w) = none ∨ ∃ op, Opcode.ofNat? (opField w) = some op ∧ op.format.reserved w ≠ 0 := by
  simp only [ne_eq, ← Format.and_reservedMask_eq_zero_iff, decode]
  cases Opcode.ofNat? (opField w) with
  | none => simp
  | some op => simp [ite_eq_iff]

/-! ## The command an opcode and a word stand for (R92 to R98) -/

@[simp] theorem Opcode.opcode_instr (op : Opcode) (w : Word) : (op.instr w).opcode = op := by cases op <;> rfl

theorem fieldN_lt (w : Word) : fieldN w < 32 := BitVec.isLt _

theorem field8_lt (w : Word) (lo : Nat) : field8 w lo < 256 := BitVec.isLt _

theorem Opcode.wf_instr (op : Opcode) (w : Word) : (op.instr w).wf = true := by
  cases op <;> simp [Opcode.instr, Instr.wf, field8_lt, fieldN_lt]

/-- A word's low 24 bits are the operand bits of the command read from it, and the reserved bits besides. -/
theorem Opcode.toNat_operandBits_instr (op : Opcode) (w : Word) :
    (op.instr w).operandBits.toNat + op.format.reserved w * 2 ^ op.format.reservedLo = w.toNat % 2 ^ 24 := by
  cases op <;>
    simp only [Opcode.instr, Instr.operandBits, Opcode.format, Format.reserved, Format.reservedHi, Format.reservedLo,
      toNat_operands_v, toNat_operands_low5, toNat_operands_i8, toNat_operands_r, toNat_operands_c, field8_eq,
      fieldN_eq, toNat_extractLsb'_eq, toNat_getLsbD, bit_variantOfBit, bit_directionOfBit, BitVec.toNat_ofNat] <;>
    omega

/-! ## What the decoder reads from an encoded command (R90 to R98) -/

theorem toNat_encode (i : Instr) : (encode i).toNat = i.opcode.code.toNat * 2 ^ 24 + i.operandBits.toNat :=
  toNat_append_eq_add ..

theorem toNat_encode_mod (i : Instr) : (encode i).toNat % 2 ^ 24 = i.operandBits.toNat := by
  rw [toNat_encode]
  omega

theorem opField_encode (i : Instr) : opField (encode i) = i.opcode.code.toNat := by
  rw [opField_eq, toNat_encode]
  omega

theorem extractLsb'_encode (i : Instr) {lo len : Nat} (h : lo + len ≤ 24) :
    (encode i).extractLsb' lo len = i.operandBits.extractLsb' lo len :=
  BitVec.extractLsb'_append_eq_of_add_le h

theorem field8_encode (i : Instr) {lo : Nat} (h : lo + 8 ≤ 24) :
    field8 (encode i) lo = i.operandBits.toNat / 2 ^ lo % 256 := by
  rw [field8, extractLsb'_encode i h, BitVec.extractLsb'_toNat, Nat.shiftRight_eq_div_pow]

theorem fieldN_encode (i : Instr) : fieldN (encode i) = i.operandBits.toNat % 32 := by
  rw [fieldN, extractLsb'_encode i (by decide), BitVec.extractLsb'_toNat, Nat.shiftRight_zero]

theorem getLsbD_encode (i : Instr) {k : Nat} (h : k < 24) : (encode i).getLsbD k = i.operandBits.getLsbD k :=
  BitVec.getLsbD_append.trans (if_pos h)

/-- Each field of an encoded well-formed command reads as the operand placed there. -/
theorem Instr.instr_encode {i : Instr} (h : i.wf = true) : i.opcode.instr (encode i) = i := by
  cases i with
  | nop | softReset | pmInit | pmHrp | pmEmit | alEnc | alDec | agClear | enStart => rfl
  | pmXorm v | pmCmpm v | ckCreate v | ckVerify v | bcEncode v | bcDecode v =>
    simp (disch := decide) only [Instr.opcode, Opcode.instr, getLsbD_encode, Instr.operandBits, getLsbD_operands_v,
      variantOfBit_bit]
  | pmStep x =>
    simp (disch := decide) only [Instr.opcode, Opcode.instr, extractLsb'_encode, Instr.operandBits]
    exact congrArg _ BitVec.extractLsb'_append_eq_right
  | pmZeros cnt =>
    simp only [Instr.wf, decide_eq_true_eq] at h
    simp (disch := decide) only [Instr.opcode, Opcode.instr, field8_encode, Instr.operandBits, toNat_operands_i8,
      BitVec.toNat_ofNat, pmZeros.injEq]
    omega
  | agAppendL n | agAppendM n | enNextL n | enNextM n =>
    simp only [Instr.wf, decide_eq_true_eq] at h
    simp (disch := decide) only [Instr.opcode, Opcode.instr, fieldN_encode, Instr.operandBits, toNat_operands_low5,
      BitVec.toNat_ofNat, Nat.mod_eq_of_lt h]
  | pmSyms start len =>
    simp only [Instr.wf, Bool.and_eq_true, decide_eq_true_eq] at h
    simp (disch := decide) only [Instr.opcode, Opcode.instr, field8_encode, Instr.operandBits, toNat_operands_r,
      BitVec.toNat_ofNat, pmSyms.injEq]
    omega
  | cvConvert d pad src dst =>
    simp only [Instr.wf, Bool.and_eq_true, decide_eq_true_eq] at h
    have hd := d.bit.toNat_lt
    have hp := pad.toNat_lt
    simp (disch := decide) only [Instr.opcode, Opcode.instr, field8_encode, getLsbD_encode, Instr.operandBits,
      toNat_operands_c, getLsbD_zero_operands_c, getLsbD_one_operands_c, directionOfBit_bit, BitVec.toNat_ofNat,
      cvConvert.injEq, true_and]
    omega

theorem Instr.reserved_encode {i : Instr} (h : i.wf = true) : i.opcode.format.reserved (encode i) = 0 := by
  have hsum := i.opcode.toNat_operandBits_instr (encode i)
  rw [i.instr_encode h, toNat_encode_mod] at hsum
  have hzero : i.opcode.format.reserved (encode i) * 2 ^ i.opcode.format.reservedLo = 0 := by omega
  exact (Nat.mul_eq_zero.mp hzero).resolve_right (Nat.two_pow_pos _).ne'

theorem decode_encode {i : Instr} (h : i.wf = true) : decode (encode i) = .ok i :=
  decode_eq_ok_iff_instr.mpr ⟨i.opcode, opField_encode i, i.reserved_encode h, i.instr_encode h⟩

theorem Opcode.encode_instr {op : Opcode} {w : Word} (hop : opField w = op.code.toNat)
    (hres : op.format.reserved w = 0) : encode (op.instr w) = w := by
  have hsum := op.toNat_operandBits_instr w
  rw [hres] at hsum
  rw [opField_eq] at hop
  refine BitVec.eq_of_toNat_eq ?_
  rw [toNat_encode, op.opcode_instr]
  omega

/-- The words of a command: none where an operand does not fit its field, and its encoding otherwise. -/
theorem decode_eq_ok_iff {w : Word} {i : Instr} : decode w = .ok i ↔ i.wf = true ∧ encode i = w := by
  constructor
  · intro h
    obtain ⟨op, hop, hres, rfl⟩ := decode_eq_ok_iff_instr.mp h
    exact ⟨op.wf_instr w, op.encode_instr hop hres⟩
  · rintro ⟨hwf, rfl⟩
    exact decode_encode hwf

/-- Settles O1: the OP byte names the command's opcode, the reserved bits are clear, and each field holds its
operand. -/
theorem decodeOfEncodeIsIdentity : Obligations.DecodeOfEncodeIsIdentity := fun _ => decode_encode

/-- Settles O2: what a word's fields spell fits them, and with the reserved bits clear the OP byte and the fields are
the whole word. -/
theorem decodedWordIsItsEncoding : Obligations.DecodedWordIsItsEncoding := fun _ _ => decode_eq_ok_iff.mp

/-! ## Illegal words (R101, R122) -/

theorem executeCommand_of_decode_error {w : Word} {e : DecodeError} (h : decode w = .error e) (s : State) :
    executeCommand w s = .next (s.setStatus 0x80#8) := by
  simp only [executeCommand, h, illegalCommand_eq]

/-- R101's conditions on W[23:0], under one opcode. -/
theorem Opcode.reserved_ne_zero_iff (op : Opcode) (w : Word) {n rest : Nat} (hn : n = op.code.toNat)
    (hr : rest = w.toNat % 2 ^ 24) :
    op.format.reserved w ≠ 0 ↔
      (n ∈ [0x00, 0x01, 0x10, 0x12, 0x17, 0x30, 0x31, 0x40, 0x44] ∧ rest ≠ 0) ∨
      (n ∈ [0x15, 0x16, 0x20, 0x21, 0x32, 0x33] ∧ 2 ≤ rest) ∨
      (n ∈ [0x11, 0x42, 0x43, 0x46, 0x47] ∧ 32 ≤ rest) ∨
      (n = 0x14 ∧ 256 ≤ rest) ∨ (n = 0x13 ∧ 65536 ≤ rest) ∨
      (n = 0x48 ∧ rest % 256 / 4 ≠ 0) := by
  subst hn hr
  cases op <;>
    simp [Opcode.code, Opcode.format, Format.reserved, Format.reservedHi, Format.reservedLo] <;>
    omega

/-- Settles O3: an unassigned OP byte is one R101 lists, and under an assigned opcode only the reserved bits are left
to refuse the word. -/
theorem wordsThatAreNoCommand : Obligations.WordsThatAreNoCommand := by
  refine ⟨fun w e s h => executeCommand_of_decode_error h s, fun w => ?_⟩
  intro op rest
  rw [exists_decode_eq_error_iff, opField_eq]
  change Opcode.ofNat? op = none ∨ _ ↔ _
  cases hop : Opcode.ofNat? op with
  | none =>
    have hunassigned := Opcode.ofNat?_eq_none_iff.mp hop
    exact iff_of_true (.inl rfl) (by tauto)
  | some o =>
    have hassigned := Opcode.ofNat?_eq_none_iff.not.mp (hop ▸ Option.some_ne_none o)
    have hreserved := o.reserved_ne_zero_iff w (Opcode.ofNat?_eq_some_iff.mp hop) (rfl : rest = _)
    simp only [reduceCtorEq, Option.some.injEq, exists_eq_left', false_or]
    rw [hreserved]
    simpa only [or_assoc] using (or_iff_right hassigned).symm

/-- Settles O4: each word is decoded by evaluation. -/
theorem sampleWordsDecode : Obligations.SampleWordsDecode := by
  unfold Obligations.SampleWordsDecode
  decide

end Sys2Proof
end

section
/-! The control commands (spec/40_control.md): NOP, SOFT_RESET, and what a word that is no command does when it is
written to CMD. -/

namespace Sys2Proof.Machine

/-! ## The words of a command (R91) -/

/-- A command whose operands fit their fields has one word, its encoding. -/
theorem decode_eq_ok_iff_eq_encode {w : Word} {i : Instr} (hwf : i.wf = true) : decode w = .ok i ↔ w = encode i := by
  rw [decode_eq_ok_iff, and_iff_right hwf, eq_comm]

/-! ## The frame of a write to STATUS (R35) -/

theorem readReg_setStatus_of_ne {r : Reg} (h : r ≠ .status) (s : State) (c : Byte) :
    readReg (s.setStatus c) r = readReg s r := by
  cases r with
  | status => exact absurd rfl h
  | _ => rfl

theorem regsKept_setStatus (s : State) (c : Byte) : regsKept [.status] s (s.setStatus c) :=
  fun _ hr => readReg_setStatus_of_ne (List.ne_of_not_mem_cons hr) s c

theorem frame_setStatus (s : State) (c : Byte) : frame [.status] noCells s (s.setStatus c) :=
  ⟨regsKept_setStatus s c, fun _ _ _ => rfl, rfl⟩

/-! ## Illegal words (R122) -/

/-- A step whose access is a write to CMD executes the word written, the event taken off the schedule (R34). -/
theorem step_write_cmd {s : State} {w : Word} {rest : List HostEvent}
    (hs : s.host.schedule = .access (.write 32 0x0004#13 w) :: rest) (hr : s.host.running = none) :
    step s = executeCommand w (s.setHost ⟨rest, none, s.host.reads, s.host.outcomes⟩) :=
  (step_write (by decide) hs hr).trans (portWrite_reg .cmd w _)

/-- Settles O6: the step executes the word, and a word that does not decode writes ILLEGAL_COMMAND's code to STATUS and
nothing else. -/
theorem stepOfIllegalWordSetsStatus : Obligations.StepOfIllegalWordSetsStatus := by
  intro s w e rest hs hr hw
  refine ⟨_, (step_write_cmd hs hr).trans (executeCommand_of_decode_error hw _), rfl, fun r hne => ?_, rfl, rfl⟩
  exact (regsKept_setStatus _ _ r hne).trans (readReg_setHost s _ r)

/-! ## NOP (R120) -/

theorem exec_nop (s : State) : exec .nop s = .next (s.setStatus 0x00#8) := finish_eq s

/-- Settles O22: NOP's encoding is the zero word, and NOP only completes. -/
theorem nopChangesOnlyStatus : Obligations.NopChangesOnlyStatus :=
  ⟨fun _ => decode_eq_ok_iff_eq_encode rfl, fun s => ⟨_, exec_nop s, rfl, frame_setStatus s _⟩⟩

/-! ## SOFT_RESET (R121) -/

/-- Settles O23: SOFT_RESET answers the reset state with the host side kept. -/
theorem softResetGivesResetState : Obligations.SoftResetGivesResetState :=
  ⟨fun _ => decode_eq_ok_iff_eq_encode rfl, fun s => ⟨_, exec_softReset s, rfl, rfl, rfl, rfl, rfl, rfl, rfl, rfl, rfl,
    rfl, Memory.readCell_reset, rfl, rfl⟩⟩

end Sys2Proof.Machine
end

section
/-! The bit-stream aggregator and enumerator over SYM (spec/41_bitstream.md). The two bit orders are one argument: each
lemma is about a `BitOrder`, and what it says of the order it is given holds of that order's command. In each part the
facts about the model's functions stand before the theorems that settle obligations. -/

namespace Sys2Proof.Machine

/-! ## The words of the format-B commands (R97) -/

theorem append_zeros_append (c : Byte) (x : BitVec 5) : (c ++ (0#19 ++ x : BitVec 24) : Word) = c ++ 0#19 ++ x := by
  have hx := toNat_append_eq_add (c ++ 0#19) x
  refine BitVec.eq_of_toNat_eq ?_
  rw [hx, toNat_append_eq_add, toNat_append_eq_add, toNat_append_eq_add, BitVec.toNat_ofNat]
  omega

theorem decode_eq_ok_iff_formatB {w : Word} {i : Instr} {n : Nat} {c : Byte} (hwf : i.wf = decide (n < 32))
    (henc : encode i = c ++ (0#19 ++ BitVec.ofNat 5 n : BitVec 24)) :
    decode w = .ok i ↔ n < 32 ∧ w = c ++ 0#19 ++ BitVec.ofNat 5 n := by
  rw [decode_eq_ok_iff, hwf, henc, append_zeros_append, decide_eq_true_eq, eq_comm (b := w)]

/-! ## The stream as bits (R130) -/

theorem BitOrder.place_lt (o : BitOrder) {p : Nat} (hp : p < 5) : o.place p < 5 := by
  cases o <;> (simp only [BitOrder.place]; omega)

theorem BitOrder.place_eq_iff (o : BitOrder) {p p' : Nat} (hp : p < 5) (hp' : p' < 5) :
    o.place p = o.place p' ↔ p = p' := by
  cases o with
  | lsbFirst => rfl
  | msbFirst => simp only [BitOrder.place]; omega

theorem BitOrder.place_place (o : BitOrder) {p : Nat} (hp : p < 5) : o.place (o.place p) = p := by
  cases o with
  | lsbFirst => rfl
  | msbFirst => simp only [BitOrder.place]; omega

/-- A unit is its five stream bits, in either order. -/
theorem read_eq_of_streamBit_eq (o : BitOrder) {a b : Buffer 5} {i : Nat}
    (h : ∀ k, k / 5 = i → streamBit o a k = streamBit o b k) : Buffer.read a i = Buffer.read b i := by
  refine BitVec.eq_of_getLsbD_eq fun j hj => ?_
  have hp := o.place_lt hj
  have hdiv : (5 * i + o.place j) / 5 = i := by omega
  have hmod : (5 * i + o.place j) % 5 = o.place j := by omega
  simpa only [streamBit, hdiv, hmod, o.place_place hj] using h _ hdiv

/-! ## One bit enters the stream (R132, R133) -/

theorem read_appendBit (o : BitOrder) (sym : Buffer 5) {q : Nat} (hq : q / 5 < Config.memCells) (b : Bool) (i : Nat) :
    Buffer.read (appendBit o sym q b) i =
      if i = q / 5 then
        (if q % 5 = 0 then 0#5 else Buffer.read sym i) ||| ((BitVec.ofBool b).setWidth 5 <<< o.place (q % 5))
      else Buffer.read sym i := by
  by_cases hi : i = q / 5 <;> by_cases h0 : q % 5 = 0 <;> simp [appendBit, Buffer.read_write, hi, h0, hq]

theorem getLsbD_bit_shiftLeft (b : Bool) {i j : Nat} (hi : i < 5) :
    ((BitVec.ofBool b).setWidth 5 <<< j).getLsbD i = (decide (i = j) && b) := by
  simp only [BitVec.getLsbD_shiftLeft, BitVec.getLsbD_setWidth, BitVec.getLsbD_ofBool]
  obtain hlt | rfl | hgt := lt_trichotomy i j
  · simp [hlt, hlt.ne]
  · simp [hi]
  · simp [hgt.ne', show i - j ≠ 0 by omega]

/-- The bit is ORed into its position, and a unit entered at offset 0 loses its old bits. -/
theorem streamBit_appendBit (o : BitOrder) (sym : Buffer 5) {q : Nat} (hq : q / 5 < Config.memCells) (b : Bool)
    (k : Nat) :
    streamBit o (appendBit o sym q b) k =
      ((!decide (k / 5 * 5 = q) && streamBit o sym k) || (decide (k = q) && b)) := by
  have hk := Nat.mod_lt k (show 0 < 5 by decide)
  have hp := o.place_eq_iff hk (Nat.mod_lt q (show 0 < 5 by decide))
  simp only [streamBit, read_appendBit o sym hq]
  by_cases hu : k / 5 = q / 5
  · have hpos : k % 5 = q % 5 ↔ k = q := by omega
    have hzero : k / 5 * 5 = q ↔ q % 5 = 0 := by omega
    rw [if_pos hu, BitVec.getLsbD_or, getLsbD_bit_shiftLeft b (o.place_lt hk)]
    simp only [hp, hpos, hzero]
    by_cases h0 : q % 5 = 0 <;> simp [h0]
  · have hkq : k ≠ q := fun h => hu (h ▸ rfl)
    have hzero : k / 5 * 5 ≠ q := by omega
    simp [hu, hkq, hzero]

/-! ## A list of bits enters the stream -/

/-- The bits stand at their positions, ORed with the old bits of the units that were not entered at offset 0. -/
theorem streamBit_appendBits (o : BitOrder) (sym : Buffer 5) (q : Nat) (bits : List Bool)
    (hq : q + bits.length ≤ Config.cursorMax) (k : Nat) :
    streamBit o (appendBits o sym q bits) k =
      ((!decide (q ≤ k / 5 * 5 ∧ k / 5 * 5 < q + bits.length) && streamBit o sym k) ||
        (decide (q ≤ k) && bits.getD (k - q) false)) := by
  induction bits generalizing sym q with
  | nil =>
    have hnone : ¬ (q ≤ k / 5 * 5 ∧ k / 5 * 5 < q) := by omega
    simp [appendBits, hnone]
  | cons b bs ih =>
    simp only [List.length_cons, Config.cursorMax] at hq ih ⊢
    have hunit : q / 5 < Config.memCells := by simp only [Config.memCells]; omega
    rw [appendBits, ih _ _ (by omega), streamBit_appendBit o sym hunit]
    obtain hbefore | rfl | hafter := lt_trichotomy k q
    · simp [hbefore.ne, hbefore.not_ge, show k / 5 * 5 ≠ q by omega, show ¬ q ≤ k / 5 * 5 by omega,
        show ¬ q + 1 ≤ k / 5 * 5 by omega, show ¬ q + 1 ≤ k by omega]
    · have hentered : (k ≤ k / 5 * 5 ∧ k / 5 * 5 < k + (bs.length + 1)) ↔ k / 5 * 5 = k := by omega
      simp [hentered, show ¬ k + 1 ≤ k / 5 * 5 by omega]
    · have hentered : (q ≤ k / 5 * 5 ∧ k / 5 * 5 < q + (bs.length + 1)) ↔
          k / 5 * 5 = q ∨ (q + 1 ≤ k / 5 * 5 ∧ k / 5 * 5 < q + 1 + bs.length) := by omega
      have hnext : q + 1 ≤ k := hafter
      have hidx : k - q = k - (q + 1) + 1 := by omega
      simp only [hentered, hnext, hidx, List.getD_cons_succ, hafter.ne', hafter.le, decide_true, decide_false,
        Bool.true_and, Bool.false_and, Bool.or_false, Bool.decide_or, Bool.not_or, Bool.and_assoc, Bool.and_left_comm]

/-! ## Fields and the commands of an order -/

/-- Which bit of an n-bit field is its i-th in the stream (R132, R133). -/
def BitOrder.fieldPlace : BitOrder → Nat → Nat → Nat
  | .lsbFirst, _, i => i
  | .msbFirst, n, i => n - 1 - i

/-- The bits of an n-bit field in the order they enter the stream (R132, R133). -/
def BitOrder.fieldBits : BitOrder → Nat → Word → List Bool
  | .lsbFirst => fieldBitsL
  | .msbFirst => fieldBitsM

/-- AG_APPEND in an order (R132, R133). -/
def BitOrder.appendInstr : BitOrder → Nat → Instr
  | .lsbFirst => .agAppendL
  | .msbFirst => .agAppendM

/-- EN_NEXT in an order (R135, R136). -/
def BitOrder.nextInstr : BitOrder → Nat → Instr
  | .lsbFirst => .enNextL
  | .msbFirst => .enNextM

/-- What EN_NEXT reads at a position, in an order (R135, R136). -/
def BitOrder.nextField : BitOrder → Buffer 5 → Nat → Nat → Word
  | .lsbFirst => nextFieldL
  | .msbFirst => nextFieldM

theorem BitOrder.fieldPlace_lt (o : BitOrder) {n i : Nat} (hi : i < n) : o.fieldPlace n i < n := by
  cases o <;> (simp only [BitOrder.fieldPlace]; omega)

theorem BitOrder.fieldPlace_fieldPlace (o : BitOrder) {n i : Nat} (hi : i < n) :
    o.fieldPlace n (o.fieldPlace n i) = i := by
  cases o with
  | lsbFirst => rfl
  | msbFirst => simp only [BitOrder.fieldPlace]; omega

@[simp] theorem BitOrder.length_fieldBits (o : BitOrder) (n : Nat) (x : Word) : (o.fieldBits n x).length = n := by
  cases o <;> simp [BitOrder.fieldBits]

theorem BitOrder.getD_fieldBits (o : BitOrder) (n : Nat) (x : Word) (i : Nat) :
    (o.fieldBits n x).getD i false = (decide (i < n) && x.getLsbD (o.fieldPlace n i)) := by
  by_cases hi : i < n <;> cases o <;>
    simp [BitOrder.fieldBits, BitOrder.fieldPlace, fieldBitsL, fieldBitsM, List.getD, hi]

/-! ## AG_CLEAR (R131) -/

theorem exec_agClear (s : State) : exec .agClear s = .next (((s.setWcur 0#11).setSlen 0#8).setStatus 0x00#8) :=
  finish_eq _

/-- Settles O47: AG_CLEAR's encoding is its one word, and it writes WCUR, SLEN and STATUS. -/
theorem agClearStartsStream : Obligations.AgClearStartsStream := by
  refine ⟨fun _ => decode_eq_ok_iff_eq_encode rfl, fun s => ⟨_, exec_agClear s, rfl, rfl, rfl, fun r hr => ?_,
    fun _ _ _ => rfl, rfl⟩⟩
  cases r <;> simp [readReg] at hr ⊢

/-! ## AG_APPEND (R132, R133) -/

section
variable (o : BitOrder) {n : Nat} {s : State}

theorem exec_appendInstr (n : Nat) (s : State) :
    exec (o.appendInstr n) s =
      if s.wcur.toNat + n > Config.cursorMax then raise .capacity s
      else if n = 0 then finish s
      else finish (appendField o (o.fieldBits n s.arg) s) := by
  cases o <;> rfl

theorem exec_appendInstr_of_full (h : 1275 < s.wcur.toNat + n) :
    exec (o.appendInstr n) s = .next (s.setStatus 0x82#8) :=
  (exec_appendInstr o n s).trans (if_pos h)

theorem exec_appendInstr_zero (h : s.wcur.toNat + n ≤ 1275) (hn : n = 0) :
    exec (o.appendInstr n) s = .next (s.setStatus 0x00#8) :=
  (exec_appendInstr o n s).trans ((if_neg (not_lt.mpr h)).trans (if_pos hn))

theorem exec_appendInstr_pos (h : s.wcur.toNat + n ≤ 1275) (hn : 0 < n) :
    exec (o.appendInstr n) s = .next ((appendField o (o.fieldBits n s.arg) s).setStatus 0x00#8) :=
  (exec_appendInstr o n s).trans ((if_neg (not_lt.mpr h)).trans (if_neg hn.ne'))

@[simp] theorem appendField_sym (bits : List Bool) :
    (appendField o bits s).mem.sym = appendBits o s.mem.sym s.wcur.toNat bits := rfl

variable {bits : List Bool}

theorem appendField_wcur (h : s.wcur.toNat + bits.length ≤ 1275) :
    (appendField o bits s).wcur.toNat = s.wcur.toNat + bits.length :=
  (BitVec.toNat_ofNat ..).trans (Nat.mod_eq_of_lt (by omega))

theorem appendField_slen (h : s.wcur.toNat + bits.length ≤ 1275) :
    (appendField o bits s).slen.toNat = (s.wcur.toNat + bits.length + 4) / 5 :=
  (BitVec.toNat_ofNat ..).trans (Nat.mod_eq_of_lt (by omega))

/-- In the units a field touches, R132's rule: the unit the cursor stood inside keeps its bits, and the field's bits are
ORed in. -/
theorem streamBit_appendField_of_mem (h : s.wcur.toNat + bits.length ≤ 1275) {q : Nat}
    (hlo : s.wcur.toNat / 5 ≤ q / 5) (hhi : q / 5 < (s.wcur.toNat + bits.length + 4) / 5) :
    streamBit o (appendField o bits s).mem.sym q =
      ((decide (q / 5 = s.wcur.toNat / 5 ∧ s.wcur.toNat % 5 ≠ 0) && streamBit o s.mem.sym q) ||
        (decide (s.wcur.toNat ≤ q) && bits.getD (q - s.wcur.toNat) false)) := by
  have hkept : ¬ (s.wcur.toNat ≤ q / 5 * 5 ∧ q / 5 * 5 < s.wcur.toNat + bits.length) ↔
      q / 5 = s.wcur.toNat / 5 ∧ s.wcur.toNat % 5 ≠ 0 := by omega
  rw [appendField_sym, streamBit_appendBits o _ _ _ h, ← decide_not, decide_eq_decide.mpr hkept]

/-- Every unit outside the touched ones reads as it did. -/
theorem read_appendField_of_not_mem (h : s.wcur.toNat + bits.length ≤ 1275) {i : Nat}
    (hi : ¬ (s.wcur.toNat / 5 ≤ i ∧ i < (s.wcur.toNat + bits.length + 4) / 5)) :
    Buffer.read (appendField o bits s).mem.sym i = Buffer.read s.mem.sym i := by
  refine read_eq_of_streamBit_eq o fun k hk => ?_
  have hnew : ¬ (s.wcur.toNat ≤ k / 5 * 5 ∧ k / 5 * 5 < s.wcur.toNat + bits.length) := by omega
  have hbit : (decide (s.wcur.toNat ≤ k) && bits.getD (k - s.wcur.toNat) false) = false := by
    rw [Bool.and_eq_false_imp, decide_eq_true_eq]
    exact fun hle => List.getD_eq_default _ _ (by omega)
  rw [appendField_sym, streamBit_appendBits o _ _ _ h, decide_eq_false hnew, hbit]
  simp

theorem frame_appendField (h : s.wcur.toNat + bits.length ≤ 1275) :
    frame [.status, .wcur, .slen] (unitsOf s.wcur.toNat bits.length) s
      ((appendField o bits s).setStatus 0x00#8) := by
  refine ⟨fun r hr => ?_, fun b i hi => ?_, rfl⟩
  · cases r <;> simp [readReg, appendField] at hr ⊢
  · cases b with
    | sym =>
      exact congrArg (BitVec.setWidth 32) (read_appendField_of_not_mem o h fun hmem => hi ⟨rfl, hmem⟩)
    | txt | hrp | byt => rfl

/-- R132 and R133 where the field fits, in either order. -/
theorem appendInstr_writesField (h : s.wcur.toNat + n ≤ 1275) (hn : 0 < n) :
    ∃ t, exec (o.appendInstr n) s = .next t ∧ t.status = 0x00#8 ∧
      t.wcur.toNat = s.wcur.toNat + n ∧ t.slen.toNat = (s.wcur.toNat + n + 4) / 5 ∧
      (∀ q, s.wcur.toNat / 5 ≤ q / 5 → q / 5 < (s.wcur.toNat + n + 4) / 5 →
        streamBit o t.mem.sym q =
          ((decide (q / 5 = s.wcur.toNat / 5 ∧ s.wcur.toNat % 5 ≠ 0) && streamBit o s.mem.sym q) ||
            (decide (s.wcur.toNat ≤ q ∧ q < s.wcur.toNat + n) &&
              s.arg.getLsbD (o.fieldPlace n (q - s.wcur.toNat))))) ∧
      frame [.status, .wcur, .slen] (unitsOf s.wcur.toNat n) s t := by
  have hlen : (o.fieldBits n s.arg).length = n := o.length_fieldBits n s.arg
  have hfit : s.wcur.toNat + (o.fieldBits n s.arg).length ≤ 1275 := by rwa [hlen]
  refine ⟨_, exec_appendInstr_pos o h hn, rfl, ?_, ?_, fun q hlo hhi => ?_, ?_⟩
  · exact (appendField_wcur o hfit).trans (by rw [hlen])
  · exact (appendField_slen o hfit).trans (by rw [hlen])
  · have hpos : (decide (s.wcur.toNat ≤ q) && decide (q - s.wcur.toNat < n)) =
        decide (s.wcur.toNat ≤ q ∧ q < s.wcur.toNat + n) := by
      rw [← Bool.decide_and, decide_eq_decide]
      omega
    rw [State.setStatus_mem, streamBit_appendField_of_mem o hfit hlo (by rwa [hlen]), o.getD_fieldBits,
      ← Bool.and_assoc, hpos]
  · have hframe := frame_appendField o hfit
    rwa [hlen] at hframe

end

/-- Settles O48: the append of either order, LSB-first. -/
theorem agAppendLWritesField : Obligations.AgAppendLWritesField :=
  ⟨fun _ _ => decode_eq_ok_iff_formatB rfl rfl, fun _ _ => ⟨exec_appendInstr_of_full .lsbFirst,
    exec_appendInstr_zero .lsbFirst, appendInstr_writesField .lsbFirst⟩⟩

/-- Settles O49: the append of either order, MSB-first. -/
theorem agAppendMWritesField : Obligations.AgAppendMWritesField :=
  ⟨fun _ _ => decode_eq_ok_iff_formatB rfl rfl, fun _ _ => ⟨exec_appendInstr_of_full .msbFirst,
    exec_appendInstr_zero .msbFirst, appendInstr_writesField .msbFirst⟩⟩

/-! ## EN_START (R134) -/

theorem exec_enStart (s : State) : exec .enStart s = .next ((s.setRcur 0#11).setStatus 0x00#8) := finish_eq _

/-- Settles O50: EN_START's encoding is its one word, and it writes RCUR and STATUS. -/
theorem enStartResetsReadCursor : Obligations.EnStartResetsReadCursor := by
  refine ⟨fun _ => decode_eq_ok_iff_eq_encode rfl, fun s => ⟨_, exec_enStart s, rfl, rfl, fun r hr => ?_,
    fun _ _ _ => rfl, rfl⟩⟩
  cases r <;> simp [readReg] at hr ⊢

/-! ## EN_NEXT (R135, R136) -/

theorem getLsbD_ofBool_setWidth (b : Bool) (i : Nat) :
    ((BitVec.ofBool b).setWidth 32).getLsbD i = (decide (i = 0) && b) := by
  rw [BitVec.getLsbD_setWidth, BitVec.getLsbD_ofBool]
  by_cases hi : i = 0 <;> simp [hi]

theorem getLsbD_nextFieldL (sym : Buffer 5) (q n i : Nat) (hn : n ≤ 32) :
    (nextFieldL sym q n).getLsbD i = (decide (i < n) && streamBit .lsbFirst sym (q + i)) := by
  induction n with
  | zero => simp [nextFieldL]
  | succ n ih =>
    rw [nextFieldL, BitVec.getLsbD_or, ih (by omega), BitVec.getLsbD_shiftLeft, getLsbD_ofBool_setWidth]
    obtain hlt | rfl | hgt := lt_trichotomy i n
    · simp [hlt, Nat.lt_succ_of_lt hlt]
    · simp [show i < 32 by omega]
    · simp [hgt.not_gt, show ¬ i < n + 1 by omega, show i - n ≠ 0 by omega]

theorem getLsbD_nextFieldM (sym : Buffer 5) (q n i : Nat) (hn : n ≤ 32) :
    (nextFieldM sym q n).getLsbD i = (decide (i < n) && streamBit .msbFirst sym (q + (n - 1 - i))) := by
  induction n generalizing i with
  | zero => simp [nextFieldM]
  | succ n ih =>
    rw [nextFieldM, BitVec.getLsbD_or, BitVec.getLsbD_shiftLeft, getLsbD_ofBool_setWidth, ih _ (by omega)]
    cases i with
    | zero => simp
    | succ i =>
      by_cases hi : i < n
      · simp [hi, show i + 1 < 32 by omega, show n - 1 - i = n - (i + 1) by omega]
      · simp [hi]

theorem BitOrder.getLsbD_nextField (o : BitOrder) (sym : Buffer 5) (q i : Nat) {n : Nat} (hn : n ≤ 32) :
    (o.nextField sym q n).getLsbD i = (decide (i < n) && streamBit o sym (q + o.fieldPlace n i)) := by
  cases o with
  | lsbFirst => exact getLsbD_nextFieldL sym q n i hn
  | msbFirst => exact getLsbD_nextFieldM sym q n i hn

section
variable (o : BitOrder) {n : Nat} {s : State}

theorem exec_nextInstr (n : Nat) (s : State) :
    exec (o.nextInstr n) s =
      if s.rcur.toNat + n > 5 * s.slen.toNat then raise .underflow s
      else finish ((s.setRes (o.nextField s.mem.sym s.rcur.toNat n)).setRcur (BitVec.ofNat 11 (s.rcur.toNat + n))) := by
  cases o <;> rfl

theorem exec_nextInstr_of_short (h : 5 * s.slen.toNat < s.rcur.toNat + n) :
    exec (o.nextInstr n) s = .next (s.setStatus 0x0A#8) :=
  (exec_nextInstr o n s).trans (if_pos h)

theorem exec_nextInstr_of_room (h : s.rcur.toNat + n ≤ 5 * s.slen.toNat) :
    exec (o.nextInstr n) s = .next (((s.setRes (o.nextField s.mem.sym s.rcur.toNat n)).setRcur
      (BitVec.ofNat 11 (s.rcur.toNat + n))).setStatus 0x00#8) :=
  (exec_nextInstr o n s).trans (if_neg (not_lt.mpr h))

/-- A cursor within SLEN's units fits its 11 bits. -/
theorem toNat_ofNat_of_le_slen {q : Nat} (h : q ≤ 5 * s.slen.toNat) : (BitVec.ofNat 11 q).toNat = q :=
  (BitVec.toNat_ofNat ..).trans (Nat.mod_eq_of_lt (by have := s.slen.isLt; omega))

/-- R135 and R136 where n bits remain, in either order. -/
theorem nextInstr_readsField (hn : n < 32) (h : s.rcur.toNat + n ≤ 5 * s.slen.toNat) :
    ∃ t, exec (o.nextInstr n) s = .next t ∧ t.status = 0x00#8 ∧ t.rcur.toNat = s.rcur.toNat + n ∧
      (∀ i, t.res.getLsbD i = (decide (i < n) && streamBit o s.mem.sym (s.rcur.toNat + o.fieldPlace n i))) ∧
      frame [.status, .res, .rcur] noCells s t := by
  refine ⟨_, exec_nextInstr_of_room o h, rfl, toNat_ofNat_of_le_slen h,
    fun i => o.getLsbD_nextField _ _ i hn.le, fun r hr => ?_, fun _ _ _ => rfl, rfl⟩
  cases r <;> simp [readReg] at hr ⊢

end

/-- Settles O51: the read of either order, LSB-first. -/
theorem enNextLReadsField : Obligations.EnNextLReadsField :=
  ⟨fun _ _ => decode_eq_ok_iff_formatB rfl rfl, fun _ _ hn =>
    ⟨exec_nextInstr_of_short .lsbFirst, nextInstr_readsField .lsbFirst hn⟩⟩

/-- Settles O52: the read of either order, MSB-first. -/
theorem enNextMReadsField : Obligations.EnNextMReadsField :=
  ⟨fun _ _ => decode_eq_ok_iff_formatB rfl rfl, fun _ _ hn =>
    ⟨exec_nextInstr_of_short .msbFirst, nextInstr_readsField .msbFirst hn⟩⟩

/-! ## Appending and reading back (R138) -/

/-- The stream of SYM[0..SLEN) is the bits written since AG_CLEAR, then the pad of the last unit, which is 0. -/
structure WrittenStream (o : BitOrder) (bits : List Bool) (s : State) : Prop where
  wcur : s.wcur.toNat = bits.length
  slen : s.slen.toNat = (bits.length + 4) / 5
  bit : ∀ k, k < 5 * s.slen.toNat → streamBit o s.mem.sym k = bits.getD k false

/-- The stream from RCUR to the end of SLEN's units is the given bits, then 0. -/
structure UnreadStream (o : BitOrder) (bits : List Bool) (s : State) : Prop where
  fits : s.rcur.toNat + bits.length ≤ 5 * s.slen.toNat
  bit : ∀ k, s.rcur.toNat + k < 5 * s.slen.toNat → streamBit o s.mem.sym (s.rcur.toNat + k) = bits.getD k false

/-- The bits of fields one after another. -/
def BitOrder.fieldsBits (o : BitOrder) (fields : List (Nat × Word)) : List Bool :=
  fields.flatMap fun f => o.fieldBits f.1 f.2

section
variable (o : BitOrder)

theorem BitOrder.fieldsBits_cons (n : Nat) (x : Word) (fields : List (Nat × Word)) :
    o.fieldsBits ((n, x) :: fields) = o.fieldBits n x ++ o.fieldsBits fields := List.flatMap_cons

@[simp] theorem BitOrder.length_fieldsBits (fields : List (Nat × Word)) :
    (o.fieldsBits fields).length = (fields.map (·.1)).sum := by
  simp [BitOrder.fieldsBits, List.length_flatMap]

theorem getD_append_false (xs ys : List Bool) (k : Nat) :
    (xs ++ ys).getD k false = (xs.getD k false || (decide (xs.length ≤ k) && ys.getD (k - xs.length) false)) := by
  by_cases hk : k < xs.length
  · rw [List.getD_append _ _ _ _ hk]
    simp [hk.not_ge]
  · have hle : xs.length ≤ k := not_lt.mp hk
    rw [List.getD_append_right _ _ _ _ hle, List.getD_eq_default _ _ hle]
    simp [hle]

variable {o} {bits rest : List Bool} {n : Nat} {x : Word} {s t : State}

theorem writtenStream_clear : WrittenStream o [] (((s.setWcur 0#11).setSlen 0#8).setStatus 0x00#8) where
  wcur := rfl
  slen := rfl
  bit k hk := absurd hk (Nat.not_lt_zero k)

/-- A field appended to a stream follows what was written: the unit it begins in is kept with its pad of zeros, and the
units after that one are zeroed. -/
theorem WrittenStream.appendField (h : WrittenStream o bits s) {new : List Bool}
    (hfit : bits.length + new.length ≤ 1275) : WrittenStream o (bits ++ new) (appendField o new s) := by
  have hw := h.wcur
  have hsl := h.slen
  have hfit' : s.wcur.toNat + new.length ≤ 1275 := by rwa [hw]
  have hslen := appendField_slen o hfit'
  rw [hw] at hslen
  refine ⟨?_, ?_, fun k hk => ?_⟩
  · rw [appendField_wcur o hfit', hw, List.length_append]
  · rw [hslen, List.length_append]
  · rw [hslen] at hk
    rw [appendField_sym, streamBit_appendBits o _ _ _ hfit', getD_append_false, hw]
    congr 1
    by_cases hnew : bits.length ≤ k / 5 * 5
    · rw [List.getD_eq_default _ _ (by omega)]
      simp [hnew, show k / 5 * 5 < bits.length + new.length by omega]
    · rw [h.bit k (by omega)]
      simp [hnew]

theorem WrittenStream.exec_appendInstr (h : WrittenStream o bits s) (hfit : bits.length + n ≤ 1275) (x : Word) :
    ∃ t, exec (o.appendInstr n) (s.setArg x) = .next t ∧ WrittenStream o (bits ++ o.fieldBits n x) t := by
  have hs : WrittenStream o bits (s.setArg x) := { h with }
  have hfit' : (s.setArg x).wcur.toNat + n ≤ 1275 := by rwa [hs.wcur]
  obtain rfl | hn := Nat.eq_zero_or_pos n
  · refine ⟨_, exec_appendInstr_zero o hfit' rfl, ?_⟩
    rw [List.eq_nil_of_length_eq_zero (o.length_fieldBits 0 x), List.append_nil]
    exact { hs with }
  · have happ := hs.appendField (new := o.fieldBits n x) (by rwa [o.length_fieldBits])
    exact ⟨_, exec_appendInstr_pos o hfit' hn, { happ with }⟩

theorem WrittenStream.appendAll {fields : List (Nat × Word)} (h : WrittenStream o bits s)
    (hfit : bits.length + (fields.map (·.1)).sum ≤ 1275) :
    ∃ t, appendAll o.appendInstr fields s = .next t ∧ WrittenStream o (bits ++ o.fieldsBits fields) t := by
  induction fields generalizing bits s with
  | nil => exact ⟨s, rfl, by simpa [BitOrder.fieldsBits] using h⟩
  | cons f fields ih =>
    obtain ⟨n, x⟩ := f
    simp only [List.map_cons, List.sum_cons] at hfit
    obtain ⟨t, ht, hwt⟩ := h.exec_appendInstr (n := n) (by omega) x
    obtain ⟨u, hu, hwu⟩ := ih hwt (by rw [List.length_append, o.length_fieldBits]; omega)
    refine ⟨u, by simp only [Machine.appendAll, ht, hu], ?_⟩
    rwa [o.fieldsBits_cons, ← List.append_assoc]

/-- EN_START makes the whole written stream unread. -/
theorem WrittenStream.unread_of_enStart (h : WrittenStream o bits s) :
    UnreadStream o bits ((s.setRcur 0#11).setStatus 0x00#8) where
  fits := by
    have hs := h.slen
    simp only [State.setStatus_rcur, State.setRcur_rcur, State.setStatus_slen, State.setRcur_slen, BitVec.toNat_zero]
    omega
  bit k hk := by simpa using h.bit k (by simpa using hk)

/-- Moving the read cursor past the front of the unread stream leaves the rest unread. -/
theorem UnreadStream.advance {front : List Bool} (h : UnreadStream o (front ++ rest) s)
    (hcur : t.rcur.toNat = s.rcur.toNat + front.length) (hslen : t.slen = s.slen) (hsym : t.mem.sym = s.mem.sym) :
    UnreadStream o rest t := by
  refine ⟨?_, fun k hk => ?_⟩
  · have hfits := h.fits
    rw [List.length_append] at hfits
    rw [hcur, hslen]
    omega
  · rw [hcur, hslen, Nat.add_assoc] at hk
    rw [hcur, hsym, Nat.add_assoc, h.bit _ hk, List.getD_append_right _ _ _ _ (Nat.le_add_right ..),
      Nat.add_sub_cancel_left]

/-- The command reads the field at the front of the unread stream: each bit returns to the place it came from. -/
theorem UnreadStream.nextField_eq (h : UnreadStream o (o.fieldBits n x ++ rest) s)
    (hroom : s.rcur.toNat + n ≤ 5 * s.slen.toNat) (hn : n < 32) :
    o.nextField s.mem.sym s.rcur.toNat n = BitVec.ofNat 32 (x.toNat % 2 ^ n) := by
  refine BitVec.eq_of_getLsbD_eq fun i hi => ?_
  rw [o.getLsbD_nextField _ _ _ hn.le, BitVec.getLsbD_ofNat, Nat.testBit_mod_two_pow, BitVec.testBit_toNat,
    decide_eq_true hi, Bool.true_and]
  by_cases hin : i < n
  · have hp := o.fieldPlace_lt hin
    rw [h.bit _ (by omega), List.getD_append _ _ _ _ (by rwa [o.length_fieldBits]), o.getD_fieldBits,
      o.fieldPlace_fieldPlace hin, decide_eq_true hp, Bool.true_and]
  · rw [decide_eq_false hin, Bool.false_and, Bool.false_and]

theorem UnreadStream.exec_nextInstr (h : UnreadStream o (o.fieldBits n x ++ rest) s) (hn : n < 32) :
    ∃ u, exec (o.nextInstr n) s = .next u ∧ u.res = BitVec.ofNat 32 (x.toNat % 2 ^ n) ∧ UnreadStream o rest u ∧
      u.slen = s.slen ∧ u.rcur.toNat = s.rcur.toNat + n := by
  have hroom : s.rcur.toNat + n ≤ 5 * s.slen.toNat := by
    have hfits := h.fits
    rw [List.length_append, o.length_fieldBits] at hfits
    omega
  have hcur := toNat_ofNat_of_le_slen hroom
  refine ⟨_, exec_nextInstr_of_room o hroom, h.nextField_eq hroom hn, h.advance ?_ rfl rfl, rfl, hcur⟩
  rw [o.length_fieldBits]
  exact hcur

theorem UnreadStream.nextAll {fields : List (Nat × Word)} (h : UnreadStream o (o.fieldsBits fields) s)
    (hn : ∀ f ∈ fields, f.1 < 32) :
    ∃ u, nextAll o.nextInstr (fields.map (·.1)) s =
        .next (fields.map fun f => BitVec.ofNat 32 (f.2.toNat % 2 ^ f.1), u) ∧
      UnreadStream o [] u ∧ u.slen = s.slen ∧ u.rcur.toNat = s.rcur.toNat + (fields.map (·.1)).sum := by
  induction fields generalizing s with
  | nil => exact ⟨s, rfl, h, rfl, rfl⟩
  | cons f fields ih =>
    obtain ⟨n, x⟩ := f
    rw [o.fieldsBits_cons] at h
    obtain ⟨hn1, hn⟩ := List.forall_mem_cons.mp hn
    obtain ⟨t, ht, hres, hrest, htslen, htcur⟩ := h.exec_nextInstr hn1
    obtain ⟨u, hu, hend, huslen, hucur⟩ := ih hrest hn
    refine ⟨u, ?_, hend, huslen.trans htslen, ?_⟩
    · simp only [List.map_cons, Machine.nextAll, ht, hu, hres]
    · rw [hucur, htcur, List.map_cons, List.sum_cons, Nat.add_assoc]

/-- Past the last field only zeros of the pad are left to read. -/
theorem UnreadStream.exec_nextInstr_nil {m : Nat} (h : UnreadStream o [] s) (hm : m < 32) :
    ∃ u, exec (o.nextInstr m) s = .next u ∧ (u.status = 0x00#8 ↔ s.rcur.toNat + m ≤ 5 * s.slen.toNat) ∧
      (u.status = 0x00#8 → u.res = 0#32) := by
  by_cases hroom : s.rcur.toNat + m ≤ 5 * s.slen.toNat
  · refine ⟨_, exec_nextInstr_of_room o hroom, iff_of_true rfl hroom, fun _ => ?_⟩
    refine BitVec.eq_of_getLsbD_eq fun i _ => ?_
    rw [State.setStatus_res, State.setRcur_res, State.setRes_res, o.getLsbD_nextField _ _ _ hm.le]
    by_cases him : i < m
    · have hp := o.fieldPlace_lt him
      rw [h.bit _ (by omega)]
      simp
    · simp [him]
  · have hne : (0x0A#8 : Byte) ≠ 0x00#8 := by decide
    exact ⟨_, exec_nextInstr_of_short o (not_le.mp hroom), iff_of_false hne hroom, fun h0 => absurd h0 hne⟩

/-- R138 in either order. -/
theorem appendedFields_readBack (o : BitOrder) (fields : List (Nat × Word)) (s : State)
    (hn : ∀ f ∈ fields, f.1 < 32) (hsum : (fields.map (·.1)).sum ≤ 1275) :
    ∃ s0 t t0 u, exec .agClear s = .next s0 ∧ Machine.appendAll o.appendInstr fields s0 = .next t ∧
      exec .enStart t = .next t0 ∧
      Machine.nextAll o.nextInstr (fields.map (·.1)) t0 =
        .next (fields.map fun f => BitVec.ofNat 32 (f.2.toNat % 2 ^ f.1), u) ∧
      ∀ m, m < 32 → ∃ u', exec (o.nextInstr m) u = .next u' ∧
        (u'.status = 0x00#8 ↔ (fields.map (·.1)).sum + m ≤ 5 * t.slen.toNat) ∧
        (u'.status = 0x00#8 → u'.res = 0#32) := by
  obtain ⟨t, ht, hwritten⟩ := (writtenStream_clear (o := o) (s := s)).appendAll (fields := fields)
    (by simpa using hsum)
  obtain ⟨u, hu, hend, hslen, hcur⟩ := hwritten.unread_of_enStart.nextAll hn
  refine ⟨_, t, _, u, exec_agClear s, ht, exec_enStart t, hu, fun m hm => ?_⟩
  have hlast := hend.exec_nextInstr_nil hm
  rwa [hslen, hcur, State.setStatus_slen, State.setRcur_slen, State.setStatus_rcur, State.setRcur_rcur,
    BitVec.toNat_zero, Nat.zero_add] at hlast

end

/-- Settles O53: after EN_START all that was written is unread, and each read takes its field off the front. -/
theorem appendedFieldsReadBackL : Obligations.AppendedFieldsReadBackL := appendedFields_readBack .lsbFirst

/-- Settles O54: as O53, MSB-first. -/
theorem appendedFieldsReadBackM : Obligations.AppendedFieldsReadBackM := appendedFields_readBack .msbFirst

end Sys2Proof.Machine
end

section
/-! The widths of CV_CONVERT (spec/45_convert.md R200) as one big-endian stream of bits, which the MSB-first aggregator
writes as well (spec/41_bitstream.md R133). -/

namespace Sys2Proof.Machine

/-! ## Big-endian bits of a number -/

/-- The low `w` bits of `v`, bit w - 1 first. -/
def bigEndianBits (w v : Nat) : List Bool := (List.range w).map fun i => v.testBit (w - 1 - i)

@[simp] theorem length_bigEndianBits (w v : Nat) : (bigEndianBits w v).length = w := by simp [bigEndianBits]

@[simp] theorem bigEndianBits_zero (v : Nat) : bigEndianBits 0 v = [] := rfl

theorem bigEndianBits_congr {w v v' : Nat} (h : ∀ j, j < w → v.testBit j = v'.testBit j) :
    bigEndianBits w v = bigEndianBits w v' :=
  List.map_congr_left fun i hi => h _ (by have := List.mem_range.mp hi; omega)

theorem bigEndianBits_add (a b v : Nat) :
    bigEndianBits (a + b) v = bigEndianBits a (v >>> b) ++ bigEndianBits b v := by
  simp only [bigEndianBits, List.range_add, List.map_append, List.map_map, Nat.testBit_shiftRight]
  refine congrArg₂ _ (List.map_congr_left fun i hi => ?_) (List.map_congr_left fun i _ => ?_)
  · have := List.mem_range.mp hi
    rw [show a + b - 1 - i = b + (a - 1 - i) by omega]
  · rw [Function.comp_apply, show a + b - 1 - (a + i) = b - 1 - i by omega]

theorem bigEndianBits_mod_two_pow (w v : Nat) : bigEndianBits w (v % 2 ^ w) = bigEndianBits w v :=
  bigEndianBits_congr fun j hj => by simp [Nat.testBit_mod_two_pow, hj]

/-- An element shifted in below an accumulator. -/
theorem bigEndianBits_shiftLeft_or {w v : Nat} (hv : v < 2 ^ w) (n acc : Nat) :
    bigEndianBits (n + w) (acc <<< w ||| v) = bigEndianBits n acc ++ bigEndianBits w v := by
  have hlow : v >>> w = 0 := by rw [Nat.shiftRight_eq_div_pow, Nat.div_eq_of_lt hv]
  rw [bigEndianBits_add, Nat.shiftRight_or_distrib, Nat.shiftLeft_shiftRight, hlow, Nat.or_zero]
  refine congrArg _ (bigEndianBits_congr fun j hj => ?_)
  simp [hj.not_ge]

theorem bigEndianBits_shiftLeft (n k v : Nat) :
    bigEndianBits (n + k) (v <<< k) = bigEndianBits n v ++ List.replicate k false := by
  rw [bigEndianBits_add, Nat.shiftLeft_shiftRight]
  refine congrArg _ (List.eq_replicate_iff.mpr ⟨length_bigEndianBits .., fun b hb => ?_⟩)
  obtain ⟨i, hi, rfl⟩ := List.mem_map.mp hb
  have := List.mem_range.mp hi
  simp [show ¬ k ≤ k - 1 - i by omega]

theorem getD_bigEndianBits {w i : Nat} (hi : i < w) (v : Nat) :
    (bigEndianBits w v).getD i false = v.testBit (w - 1 - i) := by
  simp [bigEndianBits, List.getD, hi]

/-- Bit k of a list of w-bit elements is a bit of element k div w. -/
theorem getD_flatMap_bigEndianBits {w : Nat} (hw : 0 < w) (vs : List Nat) (k : Nat) :
    (vs.flatMap (bigEndianBits w)).getD k false = (vs.getD (k / w) 0).testBit (w - 1 - k % w) := by
  induction vs generalizing k with
  | nil => simp
  | cons v vs ih =>
    rw [List.flatMap_cons]
    by_cases hk : k < w
    · rw [List.getD_append _ _ _ _ (by rwa [length_bigEndianBits]), getD_bigEndianBits hk, Nat.div_eq_of_lt hk,
        Nat.mod_eq_of_lt hk, List.getD_cons_zero]
    · have hle : w ≤ k := not_lt.mp hk
      rw [List.getD_append_right _ _ _ _ (by rwa [length_bigEndianBits]), length_bigEndianBits, ih,
        Nat.div_eq_sub_div hw hle, List.getD_cons_succ, Nat.mod_eq_sub_mod hle]

theorem length_flatMap_bigEndianBits (w : Nat) (vs : List Nat) :
    (vs.flatMap (bigEndianBits w)).length = vs.length * w := by
  simp [List.length_flatMap]

/-! ## Regrouping keeps the stream (R200) -/

/-- The groups the inner loop emits, and the bits it leaves, are the accumulator's low bits. -/
theorem drainGroups_bits (toW acc fuel bits : Nat) :
    (drainGroups toW acc fuel bits).1.flatMap (bigEndianBits toW) ++
        bigEndianBits (drainGroups toW acc fuel bits).2 acc =
      bigEndianBits bits acc := by
  induction fuel generalizing bits with
  | zero => rfl
  | succ fuel ih =>
    unfold drainGroups
    split
    · next hle =>
      obtain ⟨k, rfl⟩ := Nat.exists_eq_add_of_le hle
      simp only [Nat.add_sub_cancel_left, List.flatMap_cons, List.append_assoc, ih, bigEndianBits_mod_two_pow]
      exact (bigEndianBits_add ..).symm
    · rfl

theorem drainGroups_left_lt {toW : Nat} (hto : 0 < toW) (acc : Nat) {fuel bits : Nat} (h : bits ≤ fuel) :
    (drainGroups toW acc fuel bits).2 < toW := by
  induction fuel generalizing bits with
  | zero => exact (Nat.le_zero.mp h).trans_lt hto
  | succ fuel ih =>
    unfold drainGroups
    split
    · exact ih (by omega)
    · next hlt => exact not_le.mp hlt

/-- The outer loop's groups and the bits left over are the bits held at its start, then those of the elements. -/
theorem regroup_bits {fromW : Nat} (toW acc bits : Nat) {data : List Nat} (hdata : ∀ v ∈ data, v < 2 ^ fromW) :
    (regroup fromW toW acc bits data).out.flatMap (bigEndianBits toW) ++
        bigEndianBits (regroup fromW toW acc bits data).bits (regroup fromW toW acc bits data).acc =
      bigEndianBits bits acc ++ data.flatMap (bigEndianBits fromW) := by
  induction data generalizing acc bits with
  | nil => simp [regroup]
  | cons v vs ih =>
    obtain ⟨hv, hvs⟩ := List.forall_mem_cons.mp hdata
    simp only [regroup, List.flatMap_append, List.flatMap_cons, List.append_assoc, ih _ _ hvs]
    rw [← List.append_assoc, drainGroups_bits, bigEndianBits_shiftLeft_or hv, List.append_assoc]

theorem regroup_left_lt {toW : Nat} (fromW acc bits : Nat) (data : List Nat) (hbits : bits < toW) :
    (regroup fromW toW acc bits data).bits < toW := by
  induction data generalizing acc bits with
  | nil => exact hbits
  | cons v vs ih => exact ih _ _ (drainGroups_left_lt (Nat.zero_lt_of_lt hbits) _ le_rfl)

/-- The leftover bits stand at the top of their group, zeros below them. -/
theorem bigEndianBits_leftoverGroup {toW : Nat} {r : Regrouped} (h : r.bits < toW) :
    bigEndianBits toW (leftoverGroup toW r) = bigEndianBits r.bits r.acc ++ List.replicate (toW - r.bits) false := by
  have hsplit := bigEndianBits_shiftLeft r.bits (toW - r.bits) r.acc
  rw [Nat.add_sub_cancel' h.le] at hsplit
  rw [leftoverGroup, bigEndianBits_mod_two_pow, hsplit]

theorem convertBits_true (fromW toW : Nat) (data : List Nat) :
    convertBits fromW toW true data =
      if 0 < (regroup fromW toW 0 0 data).bits then
        some ((regroup fromW toW 0 0 data).out ++ [leftoverGroup toW (regroup fromW toW 0 0 data)])
      else some (regroup fromW toW 0 0 data).out := rfl

/-- With pad, the output's bits are the input's, zero-padded to whole elements. -/
theorem convertBits_pad {fromW toW : Nat} (hto : 0 < toW) {data : List Nat} (hdata : ∀ v ∈ data, v < 2 ^ fromW) :
    ∃ out k, convertBits fromW toW true data = some out ∧ k < toW ∧
      out.flatMap (bigEndianBits toW) = data.flatMap (bigEndianBits fromW) ++ List.replicate k false := by
  have hbits := regroup_bits toW 0 0 hdata
  have hleft := regroup_left_lt fromW 0 0 data hto
  rw [bigEndianBits_zero, List.nil_append] at hbits
  by_cases hpos : 0 < (regroup fromW toW 0 0 data).bits
  · refine ⟨_, toW - (regroup fromW toW 0 0 data).bits, (convertBits_true ..).trans (if_pos hpos), by omega, ?_⟩
    rw [List.flatMap_append, List.flatMap_singleton, bigEndianBits_leftoverGroup hleft, ← List.append_assoc, hbits]
  · refine ⟨_, 0, (convertBits_true ..).trans (if_neg hpos), hto, ?_⟩
    rw [Nat.eq_zero_of_not_pos hpos, bigEndianBits_zero] at hbits
    simpa using hbits

/-! ## CV_CONVERT 8to5 with pad, from the first byte to the first symbol -/

/-- The bytes BYT[0..BLEN) as one big-endian stream of bits. -/
def State.bytBits (s : State) : List Bool :=
  ((rangeOf s.mem.byt 0 s.blen.toNat).map BitVec.toNat).flatMap (bigEndianBits 8)

theorem length_bytBits (s : State) : s.bytBits.length = s.blen.toNat * 8 := by
  rw [State.bytBits, length_flatMap_bigEndianBits, List.length_map, length_rangeOf]

theorem exec_convertTo5_pad {s : State} {out : List Nat}
    (hfit : convertedLength 8 5 true s.blen.toNat ≤ 255)
    (hout : convertBits 8 5 true ((rangeOf s.mem.byt 0 s.blen.toNat).map BitVec.toNat) = some out) :
    exec (.cvConvert .to5 true 0 0) s =
      .next (((s.setSym (Buffer.writeList s.mem.sym 0 (out.map (BitVec.ofNat 5)))).setSlen
        (BitVec.ofNat 8 (convertedLength 8 5 true s.blen.toNat))).setStatus 0x00#8) := by
  have hcap : ¬ Config.cap < convertedLength 8 5 true s.blen.toNat := not_lt.mpr hfit
  show convertTo5 true 0 0 s = _
  simp only [convertTo5, gt_iff_lt, Nat.not_lt_zero, if_false, Nat.sub_zero, Nat.zero_add, hcap,
    Buffer.slice_eq_rangeOf, hout, finish_eq]

/-- The symbols written are the stream of their big-endian bits. -/
theorem streamBit_writeList (sym : Buffer 5) {out : List Nat} (hfit : out.length ≤ Config.memCells) {k : Nat}
    (hk : k < 5 * out.length) :
    streamBit .msbFirst (Buffer.writeList sym 0 (out.map (BitVec.ofNat 5))) k =
      (out.flatMap (bigEndianBits 5)).getD k false := by
  have hlow : 4 - k % 5 < 5 := by omega
  have hfit' : 0 + (out.map (BitVec.ofNat 5)).length ≤ Config.memCells := by simpa using hfit
  have hidx : 0 ≤ k / 5 ∧ k / 5 < 0 + (out.map (BitVec.ofNat 5)).length := by rw [List.length_map]; omega
  have hsym : (out.map (BitVec.ofNat 5)).getD (k / 5) 0 = BitVec.ofNat 5 (out.getD (k / 5) 0) := List.getD_map ..
  rw [getD_flatMap_bigEndianBits (by decide), streamBit, Buffer.read_writeList _ _ _ hfit', if_pos hidx, Nat.sub_zero,
    hsym, BitOrder.place, BitVec.getLsbD_ofNat, decide_eq_true hlow, Bool.true_and]

/-- What CV_CONVERT 8to5 with pad leaves in SYM[0..SLEN): the bytes' bits, then zeros. -/
theorem exec_convertTo5_pad_stream {s : State} (hfit : 8 * s.blen.toNat ≤ 1275) :
    ∃ u, exec (.cvConvert .to5 true 0 0) s = .next u ∧ u.slen.toNat = (s.bytBits.length + 4) / 5 ∧
      ∀ k, k < 5 * u.slen.toNat → streamBit .msbFirst u.mem.sym k = s.bytBits.getD k false := by
  have hbyte : ∀ v ∈ (rangeOf s.mem.byt 0 s.blen.toNat).map BitVec.toNat, v < 2 ^ 8 := by
    rw [List.forall_mem_map]
    exact fun b _ => b.isLt
  obtain ⟨out, pad, hout, hpad, hbits⟩ := convertBits_pad (toW := 5) (by decide) hbyte
  change _ = s.bytBits ++ _ at hbits
  have hlen := congrArg List.length hbits
  rw [length_flatMap_bigEndianBits, List.length_append, List.length_replicate, length_bytBits] at hlen
  have hconv : convertedLength 8 5 true s.blen.toNat = out.length := by
    simp only [convertedLength, true_and]
    split <;> omega
  have hslen : (BitVec.ofNat 8 (convertedLength 8 5 true s.blen.toNat)).toNat = out.length := by
    rw [hconv, BitVec.toNat_ofNat, Nat.mod_eq_of_lt (by omega)]
  refine ⟨_, exec_convertTo5_pad (by omega) hout, ?_, fun k hk => ?_⟩
  · rw [State.setStatus_slen, State.setSlen_slen, hslen, length_bytBits]
    omega
  · rw [State.setStatus_slen, State.setSlen_slen, hslen] at hk
    have hcells : out.length ≤ Config.memCells := by simp only [Config.memCells]; omega
    refine (streamBit_writeList _ hcells hk).trans ?_
    rw [hbits, getD_append_false]
    simp

/-! ## A run of AG_APPEND_M 8 -/

/-- An 8-bit field of a zero-extended byte, MSB-first, is the byte's big-endian bits. -/
theorem fieldBitsM_setWidth (b : Byte) : fieldBitsM 8 (b.setWidth 32) = bigEndianBits 8 b.toNat :=
  List.map_congr_left fun i _ => by
    rw [BitVec.getLsbD_setWidth, decide_eq_true (by omega), Bool.true_and, BitVec.testBit_toNat]

theorem fieldsBits_bytes (bs : List Byte) :
    BitOrder.msbFirst.fieldsBits (bs.map fun b => (8, b.setWidth 32)) =
      (bs.map BitVec.toNat).flatMap (bigEndianBits 8) := by
  simp only [BitOrder.fieldsBits, List.flatMap_map]
  exact List.flatMap_congr fun b _ => fieldBitsM_setWidth b

theorem rangeOf_eq_of_streamBit_eq (o : BitOrder) {a b : Buffer 5} {len : Nat}
    (h : ∀ k, k < 5 * len → streamBit o a k = streamBit o b k) : rangeOf a 0 len = rangeOf b 0 len := by
  refine List.map_congr_left fun i hi => read_eq_of_streamBit_eq o fun k hk => h k ?_
  have := List.mem_range.mp hi
  omega

/-- Settles O58: both leave the bytes' big-endian bits, zero-padded to whole symbols. -/
theorem appendedBytesMatchConversion : Obligations.AppendedBytesMatchConversion := by
  intro s hfit
  have hsum : (((rangeOf s.mem.byt 0 s.blen.toNat).map fun b => ((8, b.setWidth 32) : Nat × Word)).map (·.1)).sum =
      s.blen.toNat * 8 := by
    rw [← BitOrder.length_fieldsBits .msbFirst, fieldsBits_bytes]
    exact length_bytBits s
  obtain ⟨t, ht, hwritten⟩ := (writtenStream_clear (o := .msbFirst) (s := s)).appendAll
    (fields := (rangeOf s.mem.byt 0 s.blen.toNat).map fun b => (8, b.setWidth 32))
    (by rw [hsum, List.length_nil]; omega)
  obtain ⟨u, hu, huslen, hubit⟩ := exec_convertTo5_pad_stream hfit
  rw [List.nil_append, fieldsBits_bytes] at hwritten
  have hslen : t.slen = u.slen := BitVec.eq_of_toNat_eq (hwritten.slen.trans huslen.symm)
  refine ⟨_, t, u, exec_agClear s, ht, hu, hslen, ?_⟩
  rw [hslen]
  refine rangeOf_eq_of_streamBit_eq .msbFirst fun k hk => ?_
  rw [hubit k hk]
  exact hwritten.bit k (hslen ▸ hk)

end Sys2Proof.Machine
end

section
/-! The polymod engine (spec/42_polymod.md): the step over GF(2), the expansion and the slicing, and the commands that
expose them. In each part the facts about the model's functions stand before the theorems that settle obligations. -/

namespace Sys2Proof.Machine

/-! ## The step, bit by bit (R150) -/

theorem getLsbD_selected (b : Bool) (g : Chk) (j : Nat) : (selected b g).getLsbD j = (b && g.getLsbD j) := by
  cases b with
  | false => exact BitVec.getLsbD_zero
  | true => rfl

/-- The captured bits select the generator's constants. -/
theorem getLsbD_feedback (c : Chk) (j : Nat) : (feedback c).getLsbD j =
    ((c.getLsbD 25 && (gen 0).getLsbD j) ^^ (c.getLsbD 26 && (gen 1).getLsbD j) ^^
      (c.getLsbD 27 && (gen 2).getLsbD j) ^^ (c.getLsbD 28 && (gen 3).getLsbD j) ^^
      (c.getLsbD 29 && (gen 4).getLsbD j)) := by
  simp only [feedback, BitVec.getLsbD_xor, getLsbD_selected]

/-- The 30-bit shift moves c[24:0] to bits 29:5. -/
theorem getLsbD_shiftLeft_five (c : Chk) {j : Nat} (hj : j < 30) :
    (c <<< 5).getLsbD j = (decide (5 ≤ j) && c.getLsbD (j - 5)) := by
  rw [BitVec.getLsbD_shiftLeft, decide_eq_true hj, Bool.true_and, ← decide_not, decide_eq_decide.mpr not_lt]

theorem getLsbD_setWidth_sym (v : Sym) {j : Nat} (hj : j < 30) :
    (v.setWidth 30).getLsbD j = (decide (j < 5) && v.getLsbD j) := by
  rw [BitVec.getLsbD_setWidth, decide_eq_true hj, Bool.true_and, eq_comm, Bool.and_eq_right_iff_imp]
  exact fun h => decide_eq_true (BitVec.lt_of_getLsbD h)

/-- Settles O24: the bits of the step's three terms. -/
theorem polymodStepBits : Obligations.PolymodStepBits := by
  intro c v j hj
  rw [polymodStep, BitVec.getLsbD_xor, BitVec.getLsbD_xor, getLsbD_shiftLeft_five c hj, getLsbD_setWidth_sym v hj,
    getLsbD_feedback]
  rfl

/-! ## Linearity (R162) -/

theorem feedback_xor (a b : Chk) : feedback (a ^^^ b) = feedback a ^^^ feedback b := by
  simp only [feedback, BitVec.getLsbD_xor, selected_xor]
  ac_rfl

/-- The step is linear in its two arguments together. -/
theorem polymodStep_xor (a b : Chk) (u v : Sym) :
    polymodStep (a ^^^ b) (u ^^^ v) = polymodStep a u ^^^ polymodStep b v := by
  simp only [polymodStep, BitVec.shiftLeft_xor_distrib, BitVec.setWidth_xor, feedback_xor]
  ac_rfl

theorem polymodFrom_xor (a b : Chk) {xs ys : List Sym} (h : xs.length = ys.length) :
    polymodFrom (a ^^^ b) (List.zipWith (· ^^^ ·) xs ys) = polymodFrom a xs ^^^ polymodFrom b ys := by
  induction xs generalizing a b ys with
  | nil =>
    obtain rfl := List.length_eq_zero_iff.mp h.symm
    rfl
  | cons x xs ih =>
    obtain ⟨y, ys, rfl⟩ := List.exists_cons_of_length_eq_add_one h.symm
    rw [List.zipWith_cons_cons, polymodFrom_cons, polymodStep_xor]
    exact ih _ _ (Nat.succ.inj h)

/-- Settles O25: induction on the lists; one step is linear. -/
theorem polymodIsLinear : Obligations.PolymodIsLinear := fun a b _ _ => polymodFrom_xor a b

/-! ## The expansion (R152) -/

theorem toNat_highBits (ch : Byte) : (ch >>> 5).toNat % 2 ^ 5 = ch.toNat / 32 := by
  rw [BitVec.toNat_ushiftRight, Nat.shiftRight_eq_div_pow]
  omega

theorem length_expand (h : List Byte) : (expand h).length = 2 * h.length + 1 := by
  simp only [expand, List.length_append, List.length_map, List.length_singleton]
  omega

/-- Settles O26: each byte's high and low bits as a quotient and a remainder. -/
theorem hrpExpansionValues : Obligations.HrpExpansionValues := by
  refine fun h => ⟨?_, length_expand h⟩
  simp only [expand, List.map_append, List.map_map, Function.comp_def, BitVec.toNat_setWidth, toNat_highBits]
  rfl

/-! ## The slicing (R153) -/

theorem slice6_eq_map (c : Chk) : slice6 c = (List.range 6).map fun j => c.extractLsb' (5 * (5 - j)) 5 := rfl

/-- Settles O27: a field of five bits is a remainder of a quotient. -/
theorem checksumSliceValues : Obligations.ChecksumSliceValues := by
  intro c
  rw [slice6_eq_map, List.map_map]
  refine List.map_congr_left fun j _ => ?_
  rw [Function.comp_apply, BitVec.extractLsb'_toNat, Nat.shiftRight_eq_div_pow]

/-! ## Frames -/

/-- STATUS may change as well, as it does when a command ends. -/
theorem frame.setStatus {rs : List Reg} {p : BufName → Nat → Prop} {s t : State} (h : frame rs p s t) (c : Byte) :
    frame (.status :: rs) p s (t.setStatus c) := by
  obtain ⟨hregs, hcells, hhost⟩ := h
  refine ⟨fun r hr => ?_, hcells, hhost⟩
  obtain ⟨hne, hr⟩ := not_or.mp (List.mem_cons.not.mp hr)
  exact (readReg_setStatus_of_ne hne t c).trans (hregs r hr)

theorem frame_setChk (s : State) (c : Chk) : frame [.chk] noCells s (s.setChk c) := by
  refine ⟨fun r hr => ?_, fun _ _ _ => rfl, rfl⟩
  cases r with
  | chk => exact absurd (List.mem_singleton_self _) hr
  | _ => rfl

/-- A command whose one write before it finishes is to CHK. -/
theorem finish_setChk (s : State) (c : Chk) :
    ∃ t, finish (s.setChk c) = .next t ∧ t.status = 0x00#8 ∧ t.chk = c ∧ frame [.status, .chk] noCells s t :=
  ⟨_, finish_eq _, rfl, rfl, (frame_setChk s c).setStatus _⟩

/-! ## PM_INIT (R154) -/

theorem exec_pmInit (s : State) : exec .pmInit s = finish (s.setChk 1#30) := rfl

/-- Settles O28: PM_INIT's encoding is its one word, and its one write is to CHK. -/
theorem pmInitSetsChkToOne : Obligations.PmInitSetsChkToOne :=
  ⟨fun _ => decode_eq_ok_iff_eq_encode rfl, fun s => by rw [exec_pmInit]; exact finish_setChk s _⟩

/-! ## PM_STEP (R155) -/

theorem exec_pmStep (v : Sym) (s : State) : exec (.pmStep v) s = finish (s.setChk (polymodStep s.chk v)) := rfl

theorem feedback_of_lt {c : Chk} (h : c.toNat < 2 ^ 25) : feedback c = 0#30 := by
  have hbit {k : Nat} (hk : 25 ≤ k) : c.getLsbD k = false :=
    Nat.testBit_lt_two_pow (h.trans_le (Nat.pow_le_pow_right (by decide) hk))
  rw [feedback, hbit (by decide), hbit (by decide), hbit (by decide), hbit (by decide), hbit (by decide)]
  rfl

/-- With no bit captured, the step shifts the value in below the accumulator. -/
theorem polymodStep_of_lt {c : Chk} (h : c.toNat < 2 ^ 25) (v : Sym) : polymodStep c v = c <<< 5 ||| v.setWidth 30 := by
  apply BitVec.eq_of_getLsbD_eq
  intro j hj
  rw [polymodStep, feedback_of_lt h, BitVec.xor_zero, BitVec.getLsbD_xor, BitVec.getLsbD_or,
    getLsbD_shiftLeft_five c hj, getLsbD_setWidth_sym v hj]
  by_cases hlow : j < 5
  · simp [hlow, not_le.mpr hlow]
  · simp [hlow]

/-- Settles O29: PM_STEP's one write is to CHK; the corner cases are steps with no bit captured, or with literal
arguments. -/
theorem pmStepFeedsOneValue : Obligations.PmStepFeedsOneValue := by
  refine ⟨fun w v => ?_, fun v s => ?_, fun v => ⟨?_, ?_⟩, by decide, by decide, by decide, by decide, by decide,
    by decide⟩
  · rw [decode_eq_ok_iff_eq_encode rfl, ← append_zeros_append]
    rfl
  · rw [exec_pmStep]
    exact finish_setChk s _
  · exact (polymodStep_of_lt (by decide) v).trans BitVec.zero_or
  · exact polymodStep_of_lt (by decide) v

/-! ## PM_HRP (R156) -/

theorem exec_pmHrp (s : State) :
    exec .pmHrp s = finish (s.setChk (polymodFrom s.chk (expand (rangeOf s.mem.hrp 0 s.hlen.toNat)))) := by
  rw [← State.hrpText_eq]
  rfl

/-- Settles O30: PM_HRP's one write is to CHK, and R151's fold is the statement's. -/
theorem pmHrpFeedsExpansion : Obligations.PmHrpFeedsExpansion :=
  ⟨fun _ => decode_eq_ok_iff_eq_encode rfl, fun s => by rw [exec_pmHrp]; exact finish_setChk s _⟩

/-! ## PM_SYMS (R157) -/

/-- The OP byte and three fields, as an encoding groups them and as R96 writes them. -/
theorem append_append_append (c x y z : Byte) : (c ++ (x ++ y ++ z : BitVec 24) : Word) = c ++ x ++ y ++ z :=
  calc (c ++ (x ++ y ++ z : BitVec 24) : Word) = c ++ (x ++ y) ++ z := BitVec.append_assoc'
    _ = c ++ x ++ y ++ z := congrArg (· ++ z) BitVec.append_assoc'

theorem exec_pmSyms (start len : Nat) (s : State) : exec (.pmSyms start len) s =
    if 256 < start + len then raise .range s
    else finish (s.setChk (polymodFrom s.chk (rangeOf s.mem.sym start len))) := by
  rw [← Buffer.slice_eq_rangeOf]
  rfl

/-- Settles O31: the range check decides between RANGE and one write to CHK. -/
theorem pmSymsFeedsRange : Obligations.PmSymsFeedsRange := by
  refine ⟨fun w start len => ?_, fun start len s => ⟨fun h => ?_, fun h => ?_⟩⟩
  · have hwf : (Instr.pmSyms start len).wf = true ↔ start < 256 ∧ len < 256 := by simp [Instr.wf]
    rw [decode_eq_ok_iff, hwf, and_assoc, eq_comm (b := w), ← append_append_append]
    rfl
  · rw [exec_pmSyms, if_pos h]
    rfl
  · rw [exec_pmSyms, if_neg (not_lt.mpr h)]
    exact finish_setChk s _

/-! ## PM_ZEROS (R158) -/

theorem polymodFrom_zeros (c : Chk) (k : Nat) : polymodFrom c (zeros k) = (fun c => polymodStep c 0#5)^[k] c := by
  induction k generalizing c with
  | zero => rfl
  | succ k ih => exact ih (polymodStep c 0#5)

theorem exec_pmZeros (cnt : Nat) (s : State) :
    exec (.pmZeros cnt) s = finish (s.setChk ((fun c => polymodStep c 0#5)^[cnt] s.chk)) := by
  rw [← polymodFrom_zeros]
  rfl

/-- Settles O32: the fold over zeros is the iterated step. -/
theorem pmZerosFeedsZeros : Obligations.PmZerosFeedsZeros := by
  refine ⟨fun w cnt => ?_, fun cnt s => ?_, by decide⟩
  · have hwf : (Instr.pmZeros cnt).wf = true ↔ cnt < 256 := decide_eq_true_iff
    have henc : encode (.pmZeros cnt) = 0x14#8 ++ 0#16 ++ BitVec.ofNat 8 cnt := BitVec.append_assoc'
    rw [decode_eq_ok_iff, hwf, henc, eq_comm (b := w)]
  · rw [exec_pmZeros]
    exact finish_setChk s _

/-! ## PM_XORM (R159) -/

theorem exec_pmXorm (v : Variant) (s : State) : exec (.pmXorm v) s = finish (s.setChk (s.chk ^^^ target v)) := rfl

theorem xor_target_bis (c : Chk) : c ^^^ target .bis = ~~~c := BitVec.xor_allOnes

theorem execAll_pmXorm_pmXorm (v : Variant) (s : State) :
    execAll [.pmXorm v, .pmXorm v] s = .next (s.setStatus 0x00#8) := by
  have hcancel : s.chk ^^^ target v ^^^ target v = s.chk := by rw [BitVec.xor_assoc, BitVec.xor_self, BitVec.xor_zero]
  calc execAll [.pmXorm v, .pmXorm v] s
      = .next ((s.setChk (s.chk ^^^ target v ^^^ target v)).setStatus 0x00#8) := rfl
    _ = .next (s.setStatus 0x00#8) := by rw [hcancel]; rfl

/-- Settles O33: the one write is to CHK; the second target is all ones, and exclusive-or cancels. -/
theorem pmXormXorsTarget : Obligations.PmXormXorsTarget := by
  refine ⟨⟨fun _ => decode_eq_ok_iff_eq_encode rfl, fun _ => decode_eq_ok_iff_eq_encode rfl⟩, fun s => ?_, fun s => ?_,
    execAll_pmXorm_pmXorm⟩
  · rw [exec_pmXorm]
    exact finish_setChk s _
  · obtain ⟨t, hnext, hstatus, hchk, hframe⟩ := finish_setChk s (s.chk ^^^ target .bis)
    exact ⟨t, hnext, hstatus, hchk.trans (xor_target_bis _), hchk, hframe⟩

/-! ## PM_CMPM (R160) -/

theorem exec_pmCmpm (v : Variant) (s : State) :
    exec (.pmCmpm v) s = .next (s.setStatus (if s.chk = target v then 0x00#8 else 0x01#8)) := by
  show execPmCmpm v s = _
  by_cases h : s.chk = target v
  · rw [execPmCmpm, if_neg (not_not.mpr h), if_pos h, finish_eq]
  · rw [execPmCmpm, if_pos h, if_neg h]
    rfl

/-- Settles O34: the comparison decides STATUS, for each of the two targets. -/
theorem pmCmpmComparesTarget : Obligations.PmCmpmComparesTarget :=
  ⟨⟨fun _ => decode_eq_ok_iff_eq_encode rfl, fun _ => decode_eq_ok_iff_eq_encode rfl⟩, fun s =>
    ⟨exec_pmCmpm .classic s, exec_pmCmpm .bis s⟩⟩

/-! ## PM_EMIT (R161) -/

section
variable (c : Chk) {s : State}

theorem toNat_appendChecksum_slen (h : s.slen.toNat ≤ 249) :
    (appendChecksum c s).slen.toNat = s.slen.toNat + 6 :=
  (BitVec.toNat_ofNat ..).trans (Nat.mod_eq_of_lt (by simp only [Config.checksumSymbols]; omega))

theorem slice6_fits (h : s.slen.toNat ≤ 249) : s.slen.toNat + (slice6 c).length ≤ Config.memCells := by
  simp only [length_slice6, Config.memCells]
  omega

theorem rangeOf_appendChecksum (h : s.slen.toNat ≤ 249) :
    rangeOf (appendChecksum c s).mem.sym s.slen.toNat 6 = slice6 c :=
  rangeOf_writeList s.mem.sym s.slen.toNat (slice6 c) (slice6_fits c h)

/-- Only SLEN and the six cells from SLEN up change. -/
theorem frame_appendChecksum (h : s.slen.toNat ≤ 249) :
    frame [.slen] (cellsOf .sym s.slen.toNat 6) s (appendChecksum c s) := by
  refine ⟨fun r hr => ?_, fun b i hi => ?_, rfl⟩
  · cases r with
    | slen => exact absurd (List.mem_singleton_self _) hr
    | _ => rfl
  · cases b with
    | sym =>
      have hread := Buffer.read_writeList s.mem.sym s.slen.toNat (slice6 c) (slice6_fits c h) i
      exact congrArg (BitVec.setWidth 32) (hread.trans (if_neg fun hmem => hi ⟨rfl, hmem⟩))
    | txt | hrp | byt => rfl

end

theorem exec_pmEmit (s : State) : exec .pmEmit s =
    if 255 < s.slen.toNat + 6 then raise .capacity s else finish (appendChecksum s.chk s) := rfl

/-- Settles O35: the capacity check decides between CAPACITY and the append of CHK's slices. -/
theorem pmEmitAppendsSlices : Obligations.PmEmitAppendsSlices := by
  refine ⟨fun _ => decode_eq_ok_iff_eq_encode rfl, fun s => ⟨fun h => ?_, fun h => ?_⟩⟩
  · rw [exec_pmEmit, if_pos (by omega)]
    rfl
  · rw [exec_pmEmit, if_neg (by omega)]
    exact ⟨_, finish_eq _, rfl, toNat_appendChecksum_slen s.chk h, rangeOf_appendChecksum s.chk h,
      (frame_appendChecksum s.chk h).setStatus _⟩

end Sys2Proof.Machine
end

section
/-! Checksum creation and verification (spec/43_checksum.md): the two commands' outcomes, their sequences of primitives,
and that a created checksum verifies. In each part the facts about the model's functions stand before the theorems that
settle obligations. -/

namespace Sys2Proof.Machine

/-! ## CK_CREATE (R170) -/

/-- CHK may change as well, after the writes already made. -/
theorem frame.setChk {rs : List Reg} {p : BufName → Nat → Prop} {s t : State} (h : frame rs p s t) (c : Chk) :
    frame (rs ++ [.chk]) p s (t.setChk c) := by
  obtain ⟨hregs, hcells, hhost⟩ := h
  refine ⟨fun r hr => ?_, hcells, hhost⟩
  obtain ⟨hr, hne⟩ := not_or.mp (List.mem_append.not.mp hr)
  obtain ⟨hchk, -, -⟩ := frame_setChk t c
  exact (hchk r hne).trans (hregs r hr)

theorem exec_ckCreate_of_full {s : State} (v : Variant) (h : 249 < s.slen.toNat) :
    exec (.ckCreate v) s = .next (s.setStatus 0x82#8) :=
  if_pos (show Config.cap < s.slen.toNat + Config.checksumSymbols from Nat.add_lt_add_right h 6)

theorem exec_ckCreate_of_room {s : State} (v : Variant) (h : s.slen.toNat ≤ 249) :
    exec (.ckCreate v) s = .next (((appendChecksum (checksumOf v s.hrpText s.symbols) s).setChk
      (checksumOf v s.hrpText s.symbols)).setStatus 0x00#8) :=
  if_neg (show ¬ Config.cap < s.slen.toNat + Config.checksumSymbols from not_lt.mpr (Nat.add_le_add_right h 6))

/-- Settles O36: the capacity check decides between CAPACITY and the append of the checksum, which CHK takes too. -/
theorem ckCreateAppendsChecksum : Obligations.CkCreateAppendsChecksum := by
  refine ⟨⟨fun _ => decode_eq_ok_iff_eq_encode rfl, fun _ => decode_eq_ok_iff_eq_encode rfl⟩, fun v s => ?_⟩
  rw [← State.hrpText_eq, ← State.symbols_eq]
  refine ⟨exec_ckCreate_of_full v, fun h => ⟨_, exec_ckCreate_of_room v h, rfl, rfl, ?_, ?_, ?_⟩⟩
  · exact toNat_appendChecksum_slen (checksumOf v s.hrpText s.symbols) h
  · exact rangeOf_appendChecksum (checksumOf v s.hrpText s.symbols) h
  · exact ((frame_appendChecksum (checksumOf v s.hrpText s.symbols) h).setChk _).setStatus _

/-! ## CK_VERIFY (R171) -/

section
variable {v : Variant} {s t : State}

theorem exec_ckVerify_of_ne (h : residueOf s.hrpText s.symbols ≠ target v) :
    exec (.ckVerify v) s = .next (s.setStatus 0x01#8) := if_pos h

theorem exec_ckVerify_of_eq (h : residueOf s.hrpText s.symbols = target v) :
    exec (.ckVerify v) s = .next ((s.setChk (target v)).setStatus 0x00#8) :=
  (if_neg (not_not.mpr h)).trans (by rw [h, finish_eq])

theorem residue_eq_target_of_verified (h : exec (.ckVerify v) s = .next t) (hok : t.status = 0x00#8) :
    residueOf s.hrpText s.symbols = target v := by
  by_contra hne
  cases (exec_ckVerify_of_ne hne).symm.trans h
  exact absurd hok (show 0x01#8 ≠ 0x00#8 by decide)

theorem residue_ne_target_of_rejected (h : exec (.ckVerify v) s = .next t) (hbad : t.status ≠ 0x00#8) :
    residueOf s.hrpText s.symbols ≠ target v := by
  intro heq
  cases (exec_ckVerify_of_eq heq).symm.trans h
  exact hbad rfl

end

theorem target_injective : ∀ {v v' : Variant}, target v = target v' → v = v'
  | .classic, .classic, _ => rfl
  | .classic, .bis, h => absurd h (by decide)
  | .bis, .classic, h => absurd h (by decide)
  | .bis, .bis, _ => rfl

/-- Settles O37: the residue's comparison with the target decides STATUS, and the two targets differ. -/
theorem ckVerifyChecksResidue : Obligations.CkVerifyChecksResidue := by
  refine ⟨⟨fun _ => decode_eq_ok_iff_eq_encode rfl, fun _ => decode_eq_ok_iff_eq_encode rfl⟩, fun v s => ?_,
    fun v v' s t hne hnext hok => ?_, rfl, rfl⟩
  · rw [← State.hrpText_eq, ← State.symbols_eq]
    exact ⟨exec_ckVerify_of_ne, fun h => ⟨_, exec_ckVerify_of_eq h, rfl, rfl, (frame_setChk s _).setStatus _⟩⟩
  · have hres := residue_eq_target_of_verified hnext hok
    exact exec_ckVerify_of_ne fun hres' => hne (target_injective (hres.symm.trans hres'))

/-! ## The sequences of primitives (R172) -/

theorem execAll_cons_of_next {i : Instr} {s t : State} (h : exec i s = .next t) (is : List Instr) :
    execAll (i :: is) s = execAll is t := by
  rw [execAll, h]

/-- The common opening of the two sequences leaves the residue in CHK. -/
theorem execAll_residue (is : List Instr) (s : State) :
    execAll (.pmInit :: .pmHrp :: .pmSyms 0 s.slen.toNat :: is) s =
      execAll is ((s.setChk (residueOf s.hrpText s.symbols)).setStatus 0x00#8) := by
  have hfit : ¬ 256 < 0 + s.slen.toNat := by omega
  have hsyms (c : Chk) : exec (.pmSyms 0 s.slen.toNat) ((s.setChk c).setStatus 0x00#8) =
      .next ((s.setChk (polymodFrom c s.symbols)).setStatus 0x00#8) := by
    rw [exec_setStatus, exec_pmSyms, if_neg hfit, State.symbols_eq]
    rfl
  calc execAll (.pmInit :: .pmHrp :: .pmSyms 0 s.slen.toNat :: is) s
      = execAll (.pmSyms 0 s.slen.toNat :: is)
          ((s.setChk (polymodFrom 1#30 (expand s.hrpText))).setStatus 0x00#8) := rfl
    _ = execAll is ((s.setChk (polymodFrom (polymodFrom 1#30 (expand s.hrpText)) s.symbols)).setStatus 0x00#8) :=
        execAll_cons_of_next (hsyms _) is
    _ = execAll is ((s.setChk (residueOf s.hrpText s.symbols)).setStatus 0x00#8) := by
        rw [← polymodFrom_append]
        rfl

/-- Six zeros and the target turn the residue of a payload into its checksum. -/
theorem checksumOf_eq (v : Variant) (h : List Byte) (vals : List Sym) :
    checksumOf v h vals = polymodFrom (residueOf h vals) (zeros 6) ^^^ target v :=
  congrArg (· ^^^ target v) (polymodFrom_append 1#30 (expand h ++ vals) (zeros 6))

theorem execAll_createSequence {s : State} (v : Variant) (h : s.slen.toNat ≤ 249) :
    execAll [.pmInit, .pmHrp, .pmSyms 0 s.slen.toNat, .pmZeros 6, .pmXorm v, .pmEmit] s = exec (.ckCreate v) s := by
  have hemit (c : Chk) : exec .pmEmit ((s.setChk c).setStatus 0x00#8) =
      .next (((appendChecksum c s).setChk c).setStatus 0x00#8) := by
    rw [exec_setStatus, exec_pmEmit, if_neg (by simpa using h)]
    rfl
  rw [execAll_residue, exec_ckCreate_of_room v h, checksumOf_eq]
  exact execAll_cons_of_next (hemit _) []

theorem execAll_verifySequence (v : Variant) (s : State) :
    execAll [.pmInit, .pmHrp, .pmSyms 0 s.slen.toNat, .pmCmpm v] s =
      .next ((s.setChk (residueOf s.hrpText s.symbols)).setStatus
        (if residueOf s.hrpText s.symbols = target v then 0x00#8 else 0x01#8)) := by
  rw [execAll_residue]
  exact execAll_cons_of_next (exec_pmCmpm v _) []

/-- Settles O38: the sequences leave the composites' writes; a mismatch separates them only in CHK. -/
theorem compositesEqualPrimitiveSequences : Obligations.CompositesEqualPrimitiveSequences := by
  refine fun v s => ⟨execAll_createSequence v, fun t hnext hok => ?_, fun t hnext hbad => ?_⟩
  · have hres := residue_eq_target_of_verified hnext hok
    rw [execAll_verifySequence, hres, if_pos rfl, ← hnext, exec_ckVerify_of_eq hres]
  · have hres := residue_ne_target_of_rejected hnext hbad
    rw [execAll_verifySequence, if_neg hres, ← State.hrpText_eq, ← State.symbols_eq]
    cases (exec_ckVerify_of_ne hres).symm.trans hnext
    exact ⟨rfl, _, rfl, rfl, rfl⟩

/-! ## A created checksum verifies (R173) -/

/-- With the bits above them already fed, the next five bits of an accumulator extend it by their step. -/
theorem polymodStep_shiftRight (c : Chk) (k : Nat) :
    polymodStep (c >>> (k + 5)) (c.extractLsb' k 5) = c >>> k := by
  have hlt : (c >>> (k + 5)).toNat < 2 ^ 25 := by
    rw [BitVec.toNat_ushiftRight, Nat.shiftRight_eq_div_pow]
    refine Nat.div_lt_of_lt_mul (c.isLt.trans_le ?_)
    rw [← Nat.pow_add]
    exact Nat.pow_le_pow_right (by decide) (by omega)
  apply BitVec.eq_of_getLsbD_eq
  intro j hj
  rw [polymodStep_of_lt hlt, BitVec.getLsbD_or, getLsbD_shiftLeft_five _ hj, getLsbD_setWidth_sym _ hj,
    BitVec.getLsbD_ushiftRight, BitVec.getLsbD_ushiftRight, BitVec.getLsbD_extractLsb']
  by_cases hlow : j < 5
  · simp [hlow, not_le.mpr hlow]
  · have hplace : k + 5 + (j - 5) = k + j := by omega
    simp [hlow, not_lt.mp hlow, hplace]

/-- From 0, the six slices of an accumulator give it back: no step captures a bit. -/
theorem polymodFrom_zero_slice6 (c : Chk) : polymodFrom 0#30 (slice6 c) = c := by
  have hstart : c >>> (25 + 5) = 0#30 := BitVec.ushiftRight_eq_zero (le_refl 30)
  rw [← hstart, slice6]
  simp only [polymodFrom_cons, polymodFrom_nil, polymodStep_shiftRight c 25, polymodStep_shiftRight c 20,
    polymodStep_shiftRight c 15, polymodStep_shiftRight c 10, polymodStep_shiftRight c 5, polymodStep_shiftRight c 0,
    BitVec.ushiftRight_zero]

theorem zipWith_xor_zeros (vs : List Sym) : List.zipWith (· ^^^ ·) (zeros vs.length) vs = vs := by
  induction vs with
  | nil => rfl
  | cons v vs ih => exact congrArg₂ List.cons BitVec.zero_xor ih

/-- By linearity, feeding the slices of `c` is feeding six zeros and adding `c`. -/
theorem polymodFrom_slice6 (a c : Chk) : polymodFrom a (slice6 c) = polymodFrom a (zeros 6) ^^^ c :=
  calc polymodFrom a (slice6 c)
      = polymodFrom (a ^^^ 0#30) (List.zipWith (· ^^^ ·) (zeros 6) (slice6 c)) := by
        rw [BitVec.xor_zero, ← length_slice6 c, zipWith_xor_zeros]
    _ = polymodFrom a (zeros 6) ^^^ polymodFrom 0#30 (slice6 c) := polymodFrom_xor a 0#30 rfl
    _ = polymodFrom a (zeros 6) ^^^ c := by rw [polymodFrom_zero_slice6]

theorem residueOf_append_checksum (v : Variant) (h : List Byte) (vals : List Sym) :
    residueOf h (vals ++ slice6 (checksumOf v h vals)) = target v := by
  calc residueOf h (vals ++ slice6 (checksumOf v h vals))
      = polymodFrom (residueOf h vals) (slice6 (checksumOf v h vals)) := by
        rw [residueOf, polymod, ← List.append_assoc, polymodFrom_append]
        rfl
    _ = polymodFrom (residueOf h vals) (zeros 6) ^^^ checksumOf v h vals := polymodFrom_slice6 _ _
    _ = target v := by rw [checksumOf_eq, ← BitVec.xor_assoc, BitVec.xor_self, BitVec.zero_xor]

theorem rangeOf_add {w : Nat} (b : Buffer w) (start m n : Nat) :
    rangeOf b start (m + n) = rangeOf b start m ++ rangeOf b (start + m) n := by
  simp only [rangeOf, List.range_add, List.map_append, List.map_map, Function.comp_def, Nat.add_assoc]

/-- Cells below a written list keep what they hold. -/
theorem rangeOf_writeList_below {w : Nat} (b : Buffer w) (start : Nat) {vs : List (BitVec w)}
    (h : start + vs.length ≤ Config.memCells) : rangeOf (Buffer.writeList b start vs) 0 start = rangeOf b 0 start := by
  refine List.map_congr_left fun k hk => ?_
  rw [Buffer.read_writeList b start vs h, if_neg (by have := List.mem_range.mp hk; omega)]

theorem symbols_appendChecksum {s : State} (c : Chk) (h : s.slen.toNat ≤ 249) :
    (appendChecksum c s).symbols = s.symbols ++ slice6 c := by
  rw [State.symbols_eq, toNat_appendChecksum_slen c h, rangeOf_add, Nat.zero_add, rangeOf_appendChecksum c h,
    State.symbols_eq]
  exact congrArg (· ++ slice6 c) (rangeOf_writeList_below s.mem.sym s.slen.toNat (slice6_fits c h))

theorem room_of_created {v : Variant} {s t : State} (h : exec (.ckCreate v) s = .next t) (hok : t.status = 0x00#8) :
    s.slen.toNat ≤ 249 := by
  by_contra hfull
  cases (exec_ckCreate_of_full v (not_le.mp hfull)).symm.trans h
  exact absurd hok (show 0x82#8 ≠ 0x00#8 by decide)

/-- Settles O39: what CK_CREATE left in HRP and SYM has the target as its residue, and CK_VERIFY reads nothing else. -/
theorem createdChecksumVerifies : Obligations.CreatedChecksumVerifies := by
  intro v s t t' hcreate hok hhlen hhrp hslen hsym
  have hroom := room_of_created hcreate hok
  cases (exec_ckCreate_of_room v hroom).symm.trans hcreate
  have htext : t'.hrpText = s.hrpText := by
    rw [State.hrpText, hhrp, hhlen]
    rfl
  have hsymbols : t'.symbols = s.symbols ++ slice6 (checksumOf v s.hrpText s.symbols) := by
    rw [← symbols_appendChecksum _ hroom, State.symbols, hsym, hslen]
    rfl
  have hres : residueOf t'.hrpText t'.symbols = target v := by
    rw [htext, hsymbols, residueOf_append_checksum]
  exact ⟨_, exec_ckVerify_of_eq hres, rfl, rfl⟩

end Sys2Proof.Machine
end

section
/-! The alphabet codec (spec/44_codec.md R180 to R184): the alphabet and its inverse, and the commands that map one
character. In each part the facts about the model's functions stand before the theorems that settle obligations. -/

namespace Sys2Proof.Machine

/-! ## The alphabet and its inverse (R180, R181) -/

theorem lower_eq (ch : Byte) : lower ch = if 0x41 ≤ ch.toNat ∧ ch.toNat ≤ 0x5A then ch + 0x20#8 else ch := by
  simp only [lower, isUpper, decide_eq_true_eq]

theorem lower_eq_self {ch : Byte} (h : ¬ (0x41 ≤ ch.toNat ∧ ch.toNat ≤ 0x5A)) : lower ch = ch :=
  (lower_eq ch).trans (if_neg h)

/-- In a list without repetitions `indexIn` finds the one place of a code. -/
theorem indexIn_eq_some_iff {ch : Byte} {k : Nat} {codes : List Byte} (h : codes.Nodup) :
    indexIn ch codes = some k ↔ codes[k]? = some ch := by
  induction codes generalizing k with
  | nil => simp [indexIn]
  | cons c cs ih =>
    obtain ⟨hc, hcs⟩ := List.nodup_cons.mp h
    rw [indexIn]
    by_cases hch : ch = c
    · subst hch
      cases k with
      | zero => simp
      | succ k =>
        have hk : cs[k]? ≠ some ch := fun hk => hc (List.mem_of_getElem? hk)
        simp [hk]
    · cases k with
      | zero => simp [hch, Ne.symm hch]
      | succ k => simp [hch, ih hcs]

theorem nodup_alphabet : alphabet.Nodup := by decide

theorem alphabet_getElem? : ∀ i : Sym, alphabet[i.toNat]? = some (alpha i) := by decide

theorem rev_eq_some_iff {ch : Byte} {i : Sym} : rev ch = some i ↔ alpha i = lower ch := by
  rw [rev, Option.map_eq_some_iff]
  simp only [indexIn_eq_some_iff nodup_alphabet]
  constructor
  · rintro ⟨k, hk, rfl⟩
    obtain ⟨hlt, -⟩ := List.getElem?_eq_some_iff.mp hk
    have hidx : (BitVec.ofNat 5 k).toNat = k := Nat.mod_eq_of_lt hlt
    have halpha := alphabet_getElem? (BitVec.ofNat 5 k)
    rw [hidx, hk] at halpha
    exact (Option.some.inj halpha).symm
  · intro h
    exact ⟨i.toNat, h ▸ alphabet_getElem? i, BitVec.ofNat_toNat ..⟩

/-- Settles O40: the table is evaluated, and the alphabet lists no code twice. -/
theorem alphabetMapsInvert : Obligations.AlphabetMapsInvert :=
  ⟨rfl, fun ch _ => by rw [← lower_eq ch]; exact rev_eq_some_iff⟩

/-! ## AL_ENC and AL_DEC (R182, R183) -/

/-- A command whose one write before it finishes is to RES. -/
theorem finish_setRes (s : State) (x : Word) :
    ∃ t, finish (s.setRes x) = .next t ∧ t.status = 0x00#8 ∧ t.res = x ∧ frame [.status, .res] noCells s t := by
  refine ⟨_, finish_eq _, rfl, rfl, fun r hr => ?_, fun _ _ _ => rfl, rfl⟩
  cases r <;> simp [readReg] at hr ⊢

theorem exec_alEnc (s : State) : exec .alEnc s =
    if 31 < s.arg.toNat then raise .range s
    else finish (s.setRes ((alpha (BitVec.ofNat 5 s.arg.toNat)).setWidth 32)) := by
  rw [BitVec.ofNat_toNat]
  rfl

/-- Settles O41: the bound on ARG decides between RANGE and the alphabet's code, zero-extended. -/
theorem alEncMapsSymbol : Obligations.AlEncMapsSymbol := by
  refine ⟨fun _ => decode_eq_ok_iff_eq_encode rfl, fun s => ⟨fun h => ?_, fun h => ?_⟩⟩
  · rw [exec_alEnc, if_pos h, raise_eq]
    rfl
  · rw [exec_alEnc, if_neg (not_lt.mpr h)]
    obtain ⟨t, hnext, hstatus, hres, hframe⟩ :=
      finish_setRes s ((alpha (BitVec.ofNat 5 s.arg.toNat)).setWidth 32)
    exact ⟨t, hnext, hstatus, hres ▸ BitVec.toNat_setWidth_of_le (by decide), hframe⟩

section
variable {s : State}

theorem exec_alDec_of_range (h : 255 < s.arg.toNat) : exec .alDec s = .next (s.setStatus 0x81#8) := if_pos h

theorem printable_ofNat {n : Nat} (h : n ≤ 255) : printable (BitVec.ofNat 8 n) = decide (33 ≤ n ∧ n ≤ 126) := by
  rw [printable, BitVec.toNat_ofNat, Nat.mod_eq_of_lt (by omega)]

theorem exec_alDec_of_nonPrintable (h : s.arg.toNat ≤ 255) (hp : ¬ (33 ≤ s.arg.toNat ∧ s.arg.toNat ≤ 126)) :
    exec .alDec s = .next (s.setStatus 0x05#8) := by
  have hch : printable (s.arg.setWidth 8) = false := by
    rw [← BitVec.ofNat_toNat, printable_ofNat h, decide_eq_false hp]
  show execAlDec s = _
  rw [execAlDec, if_neg (not_lt.mpr h)]
  exact if_pos hch

/-- Where ARG is a printable character, the inverse alphabet decides. -/
theorem exec_alDec_of_printable (hlo : 33 ≤ s.arg.toNat) (hhi : s.arg.toNat ≤ 126) :
    exec .alDec s = (rev (BitVec.ofNat 8 s.arg.toNat)).elim (raise .invalidCharacter s)
      fun i => finish (s.setRes (i.setWidth 32)) := by
  have hle : s.arg.toNat ≤ 255 := by omega
  have hch : printable (s.arg.setWidth 8) = true := by
    rw [← BitVec.ofNat_toNat, printable_ofNat hle, decide_eq_true ⟨hlo, hhi⟩]
  show execAlDec s = _
  rw [execAlDec, if_neg (not_lt.mpr hle)]
  simp only [hch, Bool.true_eq_false, if_false, BitVec.ofNat_toNat]
  cases rev (s.arg.setWidth 8) <;> rfl

end

/-- Settles O42: the two bounds on ARG and the inverse alphabet are asked in turn. -/
theorem alDecMapsCharacter : Obligations.AlDecMapsCharacter := by
  refine ⟨fun _ => decode_eq_ok_iff_eq_encode rfl, fun s => ⟨exec_alDec_of_range, exec_alDec_of_nonPrintable,
    fun hlo hhi hrev => ?_, fun i hlo hhi hrev => ?_⟩⟩
  · rw [exec_alDec_of_printable hlo hhi, hrev]
    rfl
  · rw [exec_alDec_of_printable hlo hhi, hrev]
    exact finish_setRes s _

end Sys2Proof.Machine
end

section
/-! The Bech32 string codec (spec/44_codec.md R185 to R188): the commands that render and parse a string, the bounds of
an accepted string, and the round trip. In each part the facts about the model's functions stand before the theorems
that settle obligations. -/

namespace Sys2Proof.Machine

/-! ## BC_ENCODE (R185) -/

theorem length_renderString (h : List Byte) (vals : List Sym) (c : Chk) :
    (renderString h vals c).length = h.length + 1 + vals.length + 6 := by
  simp only [renderString, List.length_append, List.length_map, List.length_singleton, length_slice6]

@[simp] theorem length_hrpText (s : State) : s.hrpText.length = s.hlen.toNat := Buffer.length_slice ..

@[simp] theorem length_symbols (s : State) : s.symbols.length = s.slen.toNat := Buffer.length_slice ..

/-- Cells outside a written list keep what they hold. -/
theorem Buffer.read_writeList_of_not_mem {w : Nat} (b : Buffer w) {start : Nat} {vs : List (BitVec w)}
    (h : start + vs.length ≤ Config.memCells) {i : Nat} (hi : ¬ (start ≤ i ∧ i < start + vs.length)) :
    Buffer.read (Buffer.writeList b start vs) i = Buffer.read b i :=
  (Buffer.read_writeList b start vs h i).trans (if_neg hi)

/-- The checksum of the folded HRP and the payload. -/
def State.encodedChk (v : Variant) (s : State) : Chk := checksumOf v (s.hrpText.map lower) s.symbols

/-- The string BC_ENCODE writes to TXT. -/
def State.encodedText (v : Variant) (s : State) : List Byte :=
  renderString (s.hrpText.map lower) s.symbols (s.encodedChk v)

/-- What BC_ENCODE writes where the string fits, before it finishes. -/
def State.encoded (v : Variant) (s : State) : State :=
  (((s.setHrp (Buffer.writeList s.mem.hrp 0 (s.hrpText.map lower))).setTxt
    (Buffer.writeList s.mem.txt 0 (s.encodedText v))).setTlen
    (BitVec.ofNat 8 (s.hlen.toNat + 1 + s.slen.toNat + 6))).setChk (s.encodedChk v)

section
variable (v : Variant) {s : State}

theorem length_encodedText (s : State) : (s.encodedText v).length = s.hlen.toNat + 1 + s.slen.toNat + 6 := by
  rw [State.encodedText, length_renderString, List.length_map, length_hrpText, length_symbols]

theorem exec_bcEncode_of_full (h : 255 < s.hlen.toNat + 1 + s.slen.toNat + 6) :
    exec (.bcEncode v) s = .next (s.setStatus 0x82#8) := if_pos h

theorem exec_bcEncode_of_room (h : s.hlen.toNat + 1 + s.slen.toNat + 6 ≤ 255) :
    exec (.bcEncode v) s = .next ((s.encoded v).setStatus 0x00#8) := if_neg (not_lt.mpr h)

theorem foldedHrp_fits (s : State) : 0 + (s.hrpText.map lower).length ≤ Config.memCells := by
  rw [List.length_map, length_hrpText, Nat.zero_add]
  exact s.hlen.isLt.le

theorem encodedText_fits (h : s.hlen.toNat + 1 + s.slen.toNat + 6 ≤ 255) :
    0 + (s.encodedText v).length ≤ Config.memCells := by
  rw [length_encodedText, Nat.zero_add]
  exact h.trans (by decide)

theorem rangeOf_encoded_hrp (s : State) : rangeOf (s.encoded v).mem.hrp 0 s.hlen.toNat = s.hrpText.map lower := by
  have h := rangeOf_writeList s.mem.hrp 0 _ (foldedHrp_fits s)
  rwa [List.length_map, length_hrpText] at h

theorem rangeOf_encoded_txt (h : s.hlen.toNat + 1 + s.slen.toNat + 6 ≤ 255) :
    rangeOf (s.encoded v).mem.txt 0 (s.hlen.toNat + 1 + s.slen.toNat + 6) = s.encodedText v := by
  have hwritten := rangeOf_writeList s.mem.txt 0 _ (encodedText_fits v h)
  rwa [length_encodedText] at hwritten

theorem encoded_tlen (h : s.hlen.toNat + 1 + s.slen.toNat + 6 ≤ 255) :
    (s.encoded v).tlen.toNat = s.hlen.toNat + 1 + s.slen.toNat + 6 :=
  (BitVec.toNat_ofNat ..).trans (Nat.mod_eq_of_lt (Nat.lt_succ_of_le h))

theorem txtText_encoded (h : s.hlen.toNat + 1 + s.slen.toNat + 6 ≤ 255) :
    ((s.encoded v).setStatus 0x00#8).txtText = s.encodedText v := by
  rw [State.txtText_eq, State.setStatus_tlen, encoded_tlen v h]
  exact rangeOf_encoded_txt v h

theorem frame_encoded (h : s.hlen.toNat + 1 + s.slen.toNat + 6 ≤ 255) :
    frame [.tlen, .chk] (eitherCells (cellsOf .hrp 0 s.hlen.toNat)
      (cellsOf .txt 0 (s.hlen.toNat + 1 + s.slen.toNat + 6))) s (s.encoded v) := by
  refine ⟨fun r hr => ?_, fun b i hi => ?_, rfl⟩
  · cases r <;> simp [readReg, State.encoded] at hr ⊢
  · obtain ⟨hhrp, htxt⟩ := not_or.mp hi
    cases b with
    | hrp =>
      refine congrArg (BitVec.setWidth 32) (Buffer.read_writeList_of_not_mem _ (foldedHrp_fits s) ?_)
      rw [List.length_map, length_hrpText]
      exact fun hmem => hhrp ⟨rfl, hmem⟩
    | txt =>
      refine congrArg (BitVec.setWidth 32) (Buffer.read_writeList_of_not_mem _ (encodedText_fits v h) ?_)
      rw [length_encodedText]
      exact fun hmem => htxt ⟨rfl, hmem⟩
    | sym | byt => rfl

end

/-- Settles O43: the string's length decides between CAPACITY and the writes to HRP, TXT, TLEN and CHK. -/
theorem bcEncodeRendersString : Obligations.BcEncodeRendersString := by
  refine ⟨⟨fun _ => decode_eq_ok_iff_eq_encode rfl, fun _ => decode_eq_ok_iff_eq_encode rfl⟩, lower_eq, fun v s => ?_⟩
  rw [← State.hrpText_eq, ← State.symbols_eq]
  exact ⟨exec_bcEncode_of_full v, fun h => ⟨_, exec_bcEncode_of_room v h, rfl, encoded_tlen v h, rfl,
    rangeOf_encoded_hrp v s, rangeOf_encoded_txt v h, (frame_encoded v h).setStatus _⟩⟩

/-! ## Splitting a string at its last separator (R186) -/

theorem lastSeparator_eq_none {x : List Byte} (h : separator ∉ x) : lastSeparator x = none := by
  induction x with
  | nil => rfl
  | cons ch rest ih =>
    obtain ⟨hch, hrest⟩ := not_or.mp (List.mem_cons.not.mp h)
    rw [lastSeparator, ih hrest]
    exact if_neg (Ne.symm hch)

theorem lastSeparator_append_cons (front : List Byte) {data : List Byte} (h : separator ∉ data) :
    lastSeparator (front ++ separator :: data) = some front.length := by
  induction front with
  | nil =>
    rw [List.nil_append, lastSeparator, lastSeparator_eq_none h]
    exact if_pos rfl
  | cons ch front ih => rw [List.cons_append, lastSeparator, ih, List.length_cons]

theorem exists_eq_append_separator {x : List Byte} (h : separator ∈ x) :
    ∃ front data, x = front ++ separator :: data ∧ separator ∉ data := by
  obtain ⟨as, bs, hx, has⟩ := List.eq_append_cons_of_mem (List.mem_reverse.mpr h)
  exact ⟨bs.reverse, as.reverse, by simpa using congrArg List.reverse hx, List.mem_reverse.not.mpr has⟩

/-! ## The data characters as symbols (R181, R186) -/

theorem revAll_cons (ch : Byte) (rest : List Byte) :
    revAll (ch :: rest) = (rev ch).bind fun i => (revAll rest).map (i :: ·) := by
  rw [revAll]
  cases rev ch with
  | none => rfl
  | some i => cases revAll rest <;> rfl

theorem revAll_eq_some_iff {data : List Byte} {vals : List Sym} :
    revAll data = some vals ↔ data.map rev = vals.map some := by
  induction data generalizing vals with
  | nil => cases vals <;> simp [revAll]
  | cons ch rest ih =>
    simp only [revAll_cons, Option.bind_eq_some_iff, Option.map_eq_some_iff, ih]
    constructor
    · rintro ⟨i, hi, is, his, rfl⟩
      rw [List.map_cons, List.map_cons, hi, his]
    · intro h
      cases vals with
      | nil => cases h
      | cons i is =>
        obtain ⟨hi, his⟩ := List.cons.inj h
        exact ⟨i, hi, is, his, rfl⟩

theorem revAll_eq_none {data : List Byte} (h : ∃ ch ∈ data, rev ch = none) : revAll data = none := by
  obtain ⟨ch, hmem, hrev⟩ := h
  refine Option.eq_none_iff_forall_ne_some.mpr fun vals hvals => ?_
  have hnone : none ∈ vals.map some := by
    rw [← revAll_eq_some_iff.mp hvals, ← hrev]
    exact List.mem_map_of_mem hmem
  simp at hnone

theorem length_eq_of_revAll {data : List Byte} {vals : List Sym} (h : revAll data = some vals) :
    vals.length = data.length := by
  simpa using (congrArg List.length (revAll_eq_some_iff.mp h)).symm

/-! ## The checks in their order (R186) -/

/-- The string passes R186's first three checks: its characters, its case and its length. -/
structure Readable (x : List Byte) : Prop where
  printable : ¬ x.any (fun ch => !printable ch) = true
  oneCase : ¬ mixedCase x = true
  fits : ¬ x.length > Config.maxString

/-- R186's other checks, on a string already split at its last separator. -/
def parseParts (v : Variant) (front data : List Byte) : Except StatusCode (List Byte × List Sym) :=
  if front = [] then .error .undersizedHrp
  else if data.length < 6 then .error .shortChecksum
  else (revAll data).elim (.error .invalidCharacter) fun vals =>
    if residueOf (front.map lower) vals ≠ target v then .error .checksumMismatch else .ok (front.map lower, vals)

theorem any_not_printable_iff {x : List Byte} :
    x.any (fun ch => !printable ch) = true ↔ ∃ ch ∈ x, ¬ (33 ≤ ch.toNat ∧ ch.toNat ≤ 126) := by
  simp only [List.any_eq_true, printable, Bool.not_eq_true', decide_eq_false_iff_not]

theorem mixedCase_iff {x : List Byte} : mixedCase x = true ↔
    (∃ ch ∈ x, 0x61 ≤ ch.toNat ∧ ch.toNat ≤ 0x7A) ∧ (∃ ch ∈ x, 0x41 ≤ ch.toNat ∧ ch.toNat ≤ 0x5A) := by
  simp only [mixedCase, Bool.and_eq_true, List.any_eq_true, isLower, isUpper, decide_eq_true_eq]

section
variable (v : Variant) {x : List Byte}

theorem parseString_of_nonPrintable (hp : x.any (fun ch => !printable ch) = true) :
    parseString v x = .error .nonPrintableCharacter := if_pos hp

theorem parseString_of_mixedCase (hp : ¬ x.any (fun ch => !printable ch) = true) (hm : mixedCase x = true) :
    parseString v x = .error .mixedCase := (if_neg hp).trans (if_pos hm)

theorem parseString_of_oversized (hp : ¬ x.any (fun ch => !printable ch) = true) (hm : ¬ mixedCase x = true)
    (hl : x.length > Config.maxString) : parseString v x = .error .oversizedInput :=
  (if_neg hp).trans ((if_neg hm).trans (if_pos hl))

theorem parseString_of_noSeparator (hx : Readable x) (hs : separator ∉ x) :
    parseString v x = .error .noSeparator := by
  rw [parseString, if_neg hx.printable, if_neg hx.oneCase, if_neg hx.fits, lastSeparator_eq_none hs]

theorem parseString_append_cons {front data : List Byte} (hx : Readable (front ++ separator :: data))
    (hd : separator ∉ data) : parseString v (front ++ separator :: data) = parseParts v front data := by
  have hlen : (front ++ separator :: data).length - front.length - 1 = data.length := by simp
  have hdata : (front ++ separator :: data).drop (front.length + 1) = data := by simp
  rw [parseString, if_neg hx.printable, if_neg hx.oneCase, if_neg hx.fits, lastSeparator_append_cons front hd]
  simp only [hlen, hdata, List.take_left, List.length_eq_zero_iff, parseParts, Config.checksumSymbols]
  cases revAll data <;> rfl

theorem readable_of_parseString_ok {v : Variant} {r : List Byte × List Sym} (h : parseString v x = .ok r) :
    Readable x := by
  have hp : ¬ x.any (fun ch => !printable ch) = true := fun hp => by
    cases (parseString_of_nonPrintable v hp).symm.trans h
  have hm : ¬ mixedCase x = true := fun hm => by cases (parseString_of_mixedCase v hp hm).symm.trans h
  exact ⟨hp, hm, fun hl => by cases (parseString_of_oversized v hp hm hl).symm.trans h⟩

variable {front data : List Byte}

theorem parseParts_of_short (hf : front ≠ []) (hl : data.length < 6) :
    parseParts v front data = .error .shortChecksum := (if_neg hf).trans (if_pos hl)

theorem parseParts_of_long (hf : front ≠ []) (hl : 6 ≤ data.length) : parseParts v front data =
    (revAll data).elim (.error .invalidCharacter) fun vals =>
      if residueOf (front.map lower) vals ≠ target v then .error .checksumMismatch else .ok (front.map lower, vals) :=
  (if_neg hf).trans (if_neg (not_lt.mpr hl))

theorem parseParts_eq_ok {v : Variant} {h : List Byte} {vals : List Sym}
    (hok : parseParts v front data = .ok (h, vals)) :
    front ≠ [] ∧ 6 ≤ data.length ∧ h = front.map lower ∧ revAll data = some vals := by
  have hf : front ≠ [] := fun hf => by cases (if_pos hf).symm.trans hok
  have hl : 6 ≤ data.length := not_lt.mp fun hl => by cases (parseParts_of_short v hf hl).symm.trans hok
  rw [parseParts_of_long v hf hl] at hok
  cases hrev : revAll data with
  | none => rw [hrev] at hok; cases hok
  | some is =>
    rw [hrev, Option.elim_some] at hok
    split at hok <;> cases hok
    exact ⟨hf, hl, rfl, rfl⟩

/-- R187 of the parse: what an accepted string's parts add up to. -/
theorem length_of_parseString_ok {v : Variant} {h : List Byte} {vals : List Sym}
    (hok : parseString v x = .ok (h, vals)) :
    1 ≤ h.length ∧ 6 ≤ vals.length ∧ x.length = h.length + 1 + vals.length ∧ x.length ≤ 90 := by
  have hx := readable_of_parseString_ok hok
  have hsep : separator ∈ x := not_not.mp fun hs => by cases (parseString_of_noSeparator v hx hs).symm.trans hok
  obtain ⟨front, data, rfl, hd⟩ := exists_eq_append_separator hsep
  obtain ⟨hf, hl, rfl, hrev⟩ := parseParts_eq_ok ((parseString_append_cons v hx hd).symm.trans hok)
  have hvals := length_eq_of_revAll hrev
  have hpos := List.length_pos_of_ne_nil hf
  have hfits := not_lt.mp hx.fits
  simp only [List.length_append, List.length_cons, List.length_map, Config.maxString] at hfits ⊢
  omega

end

/-! ## BC_DECODE (R186) -/

/-- What BC_DECODE writes for an accepted string, before it finishes. -/
def State.decoded (v : Variant) (h : List Byte) (vals : List Sym) (s : State) : State :=
  ((((s.setHrp (Buffer.writeList s.mem.hrp 0 h)).setHlen (BitVec.ofNat 8 h.length)).setSym
    (Buffer.writeList s.mem.sym 0 vals)).setSlen (BitVec.ofNat 8 (vals.length - 6))).setChk (target v)

@[simp] theorem length_txtText (s : State) : s.txtText.length = s.tlen.toNat := Buffer.length_slice ..

section
variable {v : Variant} {s : State} {h : List Byte} {vals : List Sym}

theorem exec_bcDecode_of_error {c : StatusCode} (herr : parseString v s.txtText = .error c) :
    exec (.bcDecode v) s = .next (s.setStatus c.code) := by
  show execBcDecode v s = _
  rw [execBcDecode, herr]
  exact raise_eq c s

theorem exec_bcDecode_of_ok (hok : parseString v s.txtText = .ok (h, vals)) :
    exec (.bcDecode v) s = .next ((s.decoded v h vals).setStatus 0x00#8) := by
  show execBcDecode v s = _
  rw [execBcDecode, hok]
  exact finish_eq _

theorem decoded_hlen (hok : parseString v s.txtText = .ok (h, vals)) :
    (s.decoded v h vals).hlen.toNat = h.length := by
  obtain ⟨-, -, hsum, hle⟩ := length_of_parseString_ok hok
  exact (BitVec.toNat_ofNat ..).trans (Nat.mod_eq_of_lt (by omega))

theorem decoded_slen (hok : parseString v s.txtText = .ok (h, vals)) :
    (s.decoded v h vals).slen.toNat + 6 = vals.length := by
  obtain ⟨-, hlong, hsum, hle⟩ := length_of_parseString_ok hok
  have hslen : (s.decoded v h vals).slen.toNat = vals.length - 6 :=
    (BitVec.toNat_ofNat ..).trans (Nat.mod_eq_of_lt (by omega))
  omega

theorem parsed_fits (hok : parseString v s.txtText = .ok (h, vals)) :
    0 + h.length ≤ Config.memCells ∧ 0 + vals.length ≤ Config.memCells := by
  obtain ⟨-, -, hsum, hle⟩ := length_of_parseString_ok hok
  simp only [Config.memCells]
  omega

theorem frame_decoded (hok : parseString v s.txtText = .ok (h, vals)) :
    frame [.hlen, .slen, .chk] (eitherCells (cellsOf .hrp 0 h.length) (cellsOf .sym 0 vals.length)) s
      (s.decoded v h vals) := by
  obtain ⟨hfit, vfit⟩ := parsed_fits hok
  refine ⟨fun r hr => ?_, fun b i hi => ?_, rfl⟩
  · cases r <;> simp [readReg, State.decoded] at hr ⊢
  · obtain ⟨hhrp, hsym⟩ := not_or.mp hi
    cases b with
    | hrp =>
      exact congrArg (BitVec.setWidth 32) (Buffer.read_writeList_of_not_mem _ hfit fun hmem => hhrp ⟨rfl, hmem⟩)
    | sym =>
      exact congrArg (BitVec.setWidth 32) (Buffer.read_writeList_of_not_mem _ vfit fun hmem => hsym ⟨rfl, hmem⟩)
    | txt | byt => rfl

/-- R186 where the string is accepted. -/
theorem bcDecode_accepts (hok : parseString v s.txtText = .ok (h, vals)) :
    ∃ t, exec (.bcDecode v) s = .next t ∧ t.status = 0x00#8 ∧ t.chk = target v ∧ t.hlen.toNat = h.length ∧
      t.slen.toNat + 6 = vals.length ∧ rangeOf t.mem.hrp 0 h.length = h ∧ rangeOf t.mem.sym 0 vals.length = vals ∧
      frame [.status, .hlen, .slen, .chk] (eitherCells (cellsOf .hrp 0 h.length) (cellsOf .sym 0 vals.length)) s t := by
  obtain ⟨hfit, vfit⟩ := parsed_fits hok
  exact ⟨_, exec_bcDecode_of_ok hok, rfl, rfl, decoded_hlen hok, decoded_slen hok, rangeOf_writeList _ 0 h hfit,
    rangeOf_writeList _ 0 vals vfit, (frame_decoded hok).setStatus _⟩

end

/-- Settles O44: the checks are asked in turn, and a string with a separator is split at its last one. -/
theorem bcDecodeParsesString : Obligations.BcDecodeParsesString := by
  refine ⟨⟨fun _ => decode_eq_ok_iff_eq_encode rfl, fun _ => decode_eq_ok_iff_eq_encode rfl⟩, lower_eq, fun v s => ?_⟩
  dsimp only
  rw [← State.txtText_eq, ← length_txtText, ← any_not_printable_iff, ← mixedCase_iff]
  refine ⟨fun hp => exec_bcDecode_of_error (parseString_of_nonPrintable v hp),
    fun hp hm => exec_bcDecode_of_error (parseString_of_mixedCase v hp hm),
    fun hp hm hl => exec_bcDecode_of_error (parseString_of_oversized v hp hm hl),
    fun hp hm hl hs => exec_bcDecode_of_error (parseString_of_noSeparator v ⟨hp, hm, not_lt.mpr hl⟩ hs),
    fun front data hp hm hl hsplit hd => ?_⟩
  have hparse : parseString v s.txtText = parseParts v front data := by
    have hx : Readable s.txtText := ⟨hp, hm, not_lt.mpr hl⟩
    rw [hsplit] at hx ⊢
    exact parseString_append_cons v hx hd
  refine ⟨fun hf => exec_bcDecode_of_error (hparse.trans (if_pos hf)),
    fun hf hs => exec_bcDecode_of_error (hparse.trans (parseParts_of_short v hf hs)), fun hf hs hrev => ?_,
    fun vals hf hs hrev => ?_⟩
  · refine exec_bcDecode_of_error (c := .invalidCharacter) (hparse.trans ?_)
    rw [parseParts_of_long v hf hs, revAll_eq_none hrev, Option.elim_none]
  · have hvals := revAll_eq_some_iff.mpr hrev
    rw [parseParts_of_long v hf hs, hvals, Option.elim_some] at hparse
    refine ⟨fun hne => exec_bcDecode_of_error (hparse.trans (if_pos hne)), fun heq => ?_⟩
    have hok := bcDecode_accepts (hparse.trans (if_neg (not_not.mpr heq)))
    rwa [List.length_map, length_eq_of_revAll hvals] at hok

/-! ## The bounds of an accepted string (R187) -/

theorem code_of_parseString_error {v : Variant} {x : List Byte} {c : StatusCode} (h : parseString v x = .error c) :
    c.code ≠ 0x82#8 ∧ c.code ≠ 0x00#8 := by
  have hcodes : ∀ c ∈ raisedBy (.bcDecode v), c.code ≠ 0x82#8 ∧ c.code ≠ 0x00#8 := by
    simp only [raisedBy]
    decide
  exact hcodes c (parseString_error_mem h)

/-- Settles O45: no check raises CAPACITY, and a string is accepted only within MAX_STRING. -/
theorem acceptedStringBounds : Obligations.AcceptedStringBounds := by
  intro v s t hexec
  cases hparse : parseString v s.txtText with
  | error c =>
    obtain ⟨hcap, hok⟩ := code_of_parseString_error hparse
    cases (exec_bcDecode_of_error hparse).symm.trans hexec
    exact ⟨hcap, fun h => absurd h hok⟩
  | ok r =>
    obtain ⟨h, vals⟩ := r
    obtain ⟨hpos, hlong, hsum, hle⟩ := length_of_parseString_ok hparse
    obtain ⟨u, hu, hstatus, -, hhlen, hslen, -⟩ := bcDecode_accepts hparse
    cases hu.symm.trans hexec
    rw [length_txtText] at hsum hle
    refine ⟨by rw [hstatus]; decide, fun _ => ?_⟩
    omega

/-! ## The round trip (R188) -/

/-- A printable character that is no upper-case letter, as R188 asks of the HRP. -/
abbrev PrintableLower (ch : Byte) : Prop :=
  33 ≤ ch.toNat ∧ ch.toNat ≤ 126 ∧ ¬ (0x41 ≤ ch.toNat ∧ ch.toNat ≤ 0x5A)

theorem PrintableLower.lower_eq {ch : Byte} (h : PrintableLower ch) : lower ch = ch := by
  obtain ⟨-, -, hlower⟩ := h
  exact lower_eq_self hlower

theorem map_lower_eq_self {h : List Byte} (hchars : ∀ ch ∈ h, PrintableLower ch) : h.map lower = h :=
  (List.map_congr_left fun ch hch => (hchars ch hch).lower_eq).trans (List.map_id h)

theorem printableLower_alpha : ∀ i : Sym, PrintableLower (alpha i) := by decide

theorem alpha_ne_separator : ∀ i : Sym, alpha i ≠ separator := by decide

theorem rev_alpha (i : Sym) : rev (alpha i) = some i := rev_eq_some_iff.mpr (printableLower_alpha i).lower_eq.symm

theorem renderString_eq (h : List Byte) (vals : List Sym) (c : Chk) :
    renderString h vals c = h ++ separator :: (vals ++ slice6 c).map alpha := by
  simp only [renderString, List.map_append, List.append_assoc, List.cons_append, List.nil_append]

theorem separator_not_mem_map_alpha (is : List Sym) : separator ∉ is.map alpha := by
  rw [List.mem_map]
  rintro ⟨i, -, hi⟩
  exact alpha_ne_separator i hi

theorem revAll_map_alpha (is : List Sym) : revAll (is.map alpha) = some is := by
  rw [revAll_eq_some_iff, List.map_map]
  exact List.map_congr_left fun i _ => rev_alpha i

theorem readable_of_printableLower {x : List Byte} (hchars : ∀ ch ∈ x, PrintableLower ch) (hfits : x.length ≤ 90) :
    Readable x := by
  refine ⟨fun hp => ?_, fun hm => ?_, not_lt.mpr hfits⟩
  · obtain ⟨ch, hmem, hbad⟩ := any_not_printable_iff.mp hp
    obtain ⟨hlo, hhi, -⟩ := hchars ch hmem
    exact hbad ⟨hlo, hhi⟩
  · obtain ⟨-, ch, hmem, hupper⟩ := mixedCase_iff.mp hm
    obtain ⟨-, -, hlower⟩ := hchars ch hmem
    exact hlower hupper

/-- What BC_DECODE makes of a rendered string: its last separator is the one after the HRP, and its data symbols end in
their checksum. -/
theorem parseString_renderString (v : Variant) {h : List Byte} (vals : List Sym) (hne : h ≠ [])
    (hchars : ∀ ch ∈ h, PrintableLower ch) (hfits : h.length + vals.length + 7 ≤ 90) :
    parseString v (renderString h vals (checksumOf v h vals)) = .ok (h, vals ++ slice6 (checksumOf v h vals)) := by
  have hfold : h.map lower = h := map_lower_eq_self hchars
  have hlen := length_renderString h vals (checksumOf v h vals)
  rw [renderString_eq] at hlen ⊢
  have hx : Readable (h ++ separator :: (vals ++ slice6 (checksumOf v h vals)).map alpha) := by
    refine readable_of_printableLower (fun ch hmem => ?_) (by omega)
    obtain hmem | rfl | hmem := by simpa only [List.mem_append, List.mem_cons] using hmem
    · exact hchars ch hmem
    · decide
    · obtain ⟨i, -, rfl⟩ := List.mem_map.mp hmem
      exact printableLower_alpha i
  have hlong : 6 ≤ ((vals ++ slice6 (checksumOf v h vals)).map alpha).length := by simp
  rw [parseString_append_cons v hx (separator_not_mem_map_alpha _), parseParts_of_long v hne hlong, revAll_map_alpha,
    Option.elim_some, hfold]
  exact if_neg (not_not.mpr (residueOf_append_checksum v h vals))

/-- Settles O46: BC_DECODE reads the string BC_ENCODE rendered, and drops the checksum from the symbols. -/
theorem encodedStringDecodesBack : Obligations.EncodedStringDecodesBack := by
  intro v s
  rw [← State.hrpText_eq, ← State.symbols_eq]
  intro h vals hlen hchars hfits
  have hroom : s.hlen.toNat + 1 + s.slen.toNat + 6 ≤ 255 := by omega
  have hne : s.hrpText ≠ [] := by rwa [← List.length_pos_iff, length_hrpText, Nat.pos_iff_ne_zero]
  have hparse := parseString_renderString v s.symbols hne hchars (by rwa [length_hrpText, length_symbols])
  have htext : ((s.encoded v).setStatus 0x00#8).txtText =
      renderString s.hrpText s.symbols (checksumOf v s.hrpText s.symbols) := by
    rw [txtText_encoded v hroom, State.encodedText, State.encodedChk, map_lower_eq_self hchars]
  rw [← htext] at hparse
  obtain ⟨u, hdec, hstatus, -, hhlen, hslen, hhrp, hsym, -⟩ := bcDecode_accepts hparse
  rw [List.length_append, length_slice6, length_symbols] at hslen hsym
  rw [length_hrpText] at hhlen hhrp
  have hulen : u.slen.toNat = s.slen.toNat := Nat.add_right_cancel hslen
  refine ⟨_, u, exec_bcEncode_of_room v hroom, hdec, hstatus, BitVec.eq_of_toNat_eq hhlen, hhlen ▸ hhrp,
    BitVec.eq_of_toNat_eq hulen, ?_⟩
  rw [rangeOf_add] at hsym
  rw [hulen]
  exact List.append_inj_left hsym (by rw [length_rangeOf, length_symbols])

end Sys2Proof.Machine
end

section
/-! The width converter CV_CONVERT (spec/45_convert.md). The two directions are one argument: each lemma is about a
`Direction`, and what it says of the direction it is given holds of that direction's command. In each part the facts
about the model's functions stand before the theorems that settle obligations. -/

namespace Sys2Proof
open Machine

/-! ## The words of CV_CONVERT (R98) -/

/-- The OP byte and the fields of format C, as an encoding groups them and as R98 writes them. -/
theorem append_formatC (c x y : Byte) (p d : BitVec 1) :
    (c ++ (x ++ y ++ 0#6 ++ p ++ d : BitVec 24) : Word) = c ++ x ++ y ++ 0#6 ++ p ++ d :=
  calc (c ++ (x ++ y ++ 0#6 ++ p ++ d : BitVec 24) : Word)
    _ = c ++ (x ++ y ++ 0#6 ++ p) ++ d := BitVec.append_assoc'
    _ = c ++ (x ++ y ++ 0#6) ++ p ++ d := congrArg (· ++ d) BitVec.append_assoc'
    _ = c ++ (x ++ y) ++ 0#6 ++ p ++ d := congrArg (· ++ p ++ d) BitVec.append_assoc'
    _ = c ++ x ++ y ++ 0#6 ++ p ++ d := congrArg (· ++ 0#6 ++ p ++ d) BitVec.append_assoc'

theorem decode_eq_ok_cvConvert_iff {w : Word} {d : Direction} {pad : Bool} {src dst : Nat} :
    decode w = .ok (.cvConvert d pad src dst) ↔ src < 256 ∧ dst < 256 ∧
      w = 0x48#8 ++ BitVec.ofNat 8 dst ++ BitVec.ofNat 8 src ++ 0#6 ++ BitVec.ofBool pad ++ BitVec.ofBool d.bit := by
  have hwf : (Instr.cvConvert d pad src dst).wf = true ↔ src < 256 ∧ dst < 256 := by simp [Instr.wf]
  rw [decode_eq_ok_iff, hwf, and_assoc, eq_comm (b := w), ← append_formatC]
  rfl

/-! ## Elements as a stream of bits (R69, R200) -/

/-- Elements read as one big-endian stream, each from its top bit down. -/
def elementBits {w : Nat} (vs : List (BitVec w)) : List Bool := (vs.map BitVec.toNat).flatMap (bigEndianBits w)

@[simp] theorem length_elementBits {w : Nat} (vs : List (BitVec w)) : (elementBits vs).length = w * vs.length := by
  rw [elementBits, length_flatMap_bigEndianBits, List.length_map, Nat.mul_comm]

theorem getD_elementBits {w : Nat} (hw : 0 < w) (vs : List (BitVec w)) (k : Nat) :
    (elementBits vs).getD k false = (vs.getD (k / w) 0#w).getLsbD (w - 1 - k % w) := by
  have helem : (vs.map BitVec.toNat).getD (k / w) 0 = (vs.getD (k / w) 0#w).toNat := by
    rw [← List.getD_map (f := BitVec.toNat), BitVec.toNat_zero]
  rw [elementBits, getD_flatMap_bigEndianBits hw, helem, BitVec.testBit_toNat]

theorem getD_elementBits_mul_add {w : Nat} (vs : List (BitVec w)) (j : Nat) {b : Nat} (hb : b < w) :
    (elementBits vs).getD (w * j + b) false = (vs.getD j 0#w).getLsbD (w - 1 - b) := by
  have hw : 0 < w := Nat.zero_lt_of_lt hb
  rw [getD_elementBits hw, Nat.mul_add_div hw, Nat.div_eq_of_lt hb, Nat.add_zero, Nat.mul_add_mod, Nat.mod_eq_of_lt hb]

theorem bigEndianBit8_eq (bs : List Byte) (k : Nat) : bigEndianBit8 bs k = (elementBits bs).getD k false :=
  (getD_elementBits (by decide) bs k).symm

theorem bigEndianBit5_eq (vs : List Sym) (k : Nat) : bigEndianBit5 vs k = (elementBits vs).getD k false :=
  (getD_elementBits (by decide) vs k).symm

theorem toNat_lt_of_mem_map {w : Nat} {vs : List (BitVec w)} : ∀ v ∈ vs.map BitVec.toNat, v < 2 ^ w :=
  List.forall_mem_map.mpr fun b _ => b.isLt

/-! ## What the conversion makes of a stream (R200) -/

section
variable {fromW toW : Nat} {data : List (BitVec fromW)}

theorem regroup_elementBits (toW : Nat) (data : List (BitVec fromW)) :
    (regroup fromW toW 0 0 (data.map BitVec.toNat)).out.flatMap (bigEndianBits toW) ++
        bigEndianBits (regroup fromW toW 0 0 (data.map BitVec.toNat)).bits
          (regroup fromW toW 0 0 (data.map BitVec.toNat)).acc =
      elementBits data :=
  regroup_bits toW 0 0 toNat_lt_of_mem_map

/-- The loop emits the whole groups and leaves the rest. -/
theorem regroup_lengths (hto : 0 < toW) (data : List (BitVec fromW)) :
    (regroup fromW toW 0 0 (data.map BitVec.toNat)).out.length = fromW * data.length / toW ∧
      (regroup fromW toW 0 0 (data.map BitVec.toNat)).bits = fromW * data.length % toW := by
  have hlen := congrArg List.length (regroup_elementBits toW data)
  rw [List.length_append, length_flatMap_bigEndianBits, length_bigEndianBits, length_elementBits, Nat.mul_comm,
    Nat.add_comm] at hlen
  have h := (Nat.div_mod_unique hto).mpr ⟨hlen, regroup_left_lt fromW 0 0 _ hto⟩
  exact ⟨h.1.symm, h.2.symm⟩

theorem true_mem_bigEndianBits_iff {w v : Nat} (hv : v < 2 ^ w) : true ∈ bigEndianBits w v ↔ v ≠ 0 := by
  constructor
  · rintro hmem rfl
    simp [bigEndianBits] at hmem
  · intro hne
    obtain ⟨i, hi⟩ := Nat.exists_testBit_of_ne_zero hne
    have hlt : i < w := by
      by_contra hge
      rw [Nat.testBit_lt_two_pow (hv.trans_le (Nat.pow_le_pow_right (by decide) (not_lt.mp hge)))] at hi
      exact Bool.false_ne_true hi
    refine List.mem_map.mpr ⟨w - 1 - i, List.mem_range.mpr (by omega), ?_⟩
    rwa [show w - 1 - (w - 1 - i) = i by omega]

theorem leftoverGroup_ne_zero_iff {r : Regrouped} (h : r.bits < toW) :
    leftoverGroup toW r ≠ 0 ↔ true ∈ bigEndianBits r.bits r.acc := by
  have hlt : leftoverGroup toW r < 2 ^ toW := Nat.mod_lt _ (Nat.two_pow_pos toW)
  rw [← true_mem_bigEndianBits_iff hlt, bigEndianBits_leftoverGroup h]
  simp [List.mem_replicate]

/-- A bit that is 1 in the second part of a list, as a position of the whole list. -/
theorem true_mem_iff_getD_append (xs ys : List Bool) : true ∈ ys ↔
    ∃ k, xs.length ≤ k ∧ k < (xs ++ ys).length ∧ (xs ++ ys).getD k false = true := by
  rw [List.length_append]
  constructor
  · intro hmem
    obtain ⟨i, hi, htrue⟩ := List.mem_iff_getElem.mp hmem
    refine ⟨xs.length + i, Nat.le_add_right .., Nat.add_lt_add_left hi _, ?_⟩
    rw [List.getD_append_right _ _ _ _ (Nat.le_add_right ..), Nat.add_sub_cancel_left, List.getD_eq_getElem _ _ hi,
      htrue]
  · rintro ⟨k, hlo, hlt, htrue⟩
    have hi : k - xs.length < ys.length := by omega
    rw [List.getD_append_right _ _ _ _ hlo, List.getD_eq_getElem _ _ hi] at htrue
    exact htrue ▸ List.getElem_mem hi

/-- Why `n` bits do not convert without pad: past the last whole group they are as many as an element holds, or one of
them is 1 (R200). -/
def LeftoverFails (fromW toW n : Nat) (bit : Nat → Bool) : Prop :=
  fromW ≤ n - toW * (n / toW) ∨ ∃ k, toW * (n / toW) ≤ k ∧ k < n ∧ bit k = true

theorem convertBits_false (fromW toW : Nat) (data : List Nat) :
    convertBits fromW toW false data =
      if fromW ≤ (regroup fromW toW 0 0 data).bits ∨ leftoverGroup toW (regroup fromW toW 0 0 data) ≠ 0 then none
      else some (regroup fromW toW 0 0 data).out := rfl

/-- Only without pad does a conversion fail, and then by its leftover bits. -/
theorem convertBits_eq_none_iff (hto : 0 < toW) {pad : Bool} :
    convertBits fromW toW pad (data.map BitVec.toNat) = none ↔
      pad = false ∧ LeftoverFails fromW toW (fromW * data.length) fun k => (elementBits data).getD k false := by
  cases pad with
  | true =>
    rw [convertBits_true]
    split <;> simp
  | false =>
    obtain ⟨hlen, hbits⟩ := regroup_lengths hto data
    have hsplit := (leftoverGroup_ne_zero_iff (hbits.trans_lt (Nat.mod_lt _ hto))).trans
      (true_mem_iff_getD_append
        ((regroup fromW toW 0 0 (data.map BitVec.toNat)).out.flatMap (bigEndianBits toW)) _)
    rw [regroup_elementBits, length_elementBits, length_flatMap_bigEndianBits, hlen, Nat.mul_comm _ toW] at hsplit
    rw [convertBits_false, LeftoverFails, ← hsplit, ← Nat.mod_eq_sub, ← hbits]
    simp only [ite_eq_left_iff, reduceCtorEq, imp_false, not_not, true_and]

/-- The output's length is a quotient, rounded up under pad. -/
theorem convertedLength_eq (hto : 0 < toW) (fromW : Nat) (pad : Bool) (len : Nat) :
    convertedLength fromW toW pad len =
      if pad then (fromW * len + (toW - 1)) / toW else fromW * len / toW := by
  rw [convertedLength, Nat.mul_comm len]
  cases pad with
  | false => simp
  | true =>
    have hlast : (toW - 1) / toW = 0 ∧ (toW - 1) % toW = toW - 1 :=
      ⟨Nat.div_eq_of_lt (by omega), Nat.mod_eq_of_lt (by omega)⟩
    have hcarry : fromW * len % toW ≠ 0 ↔ toW ≤ fromW * len % toW + (toW - 1) := by omega
    simp only [Nat.add_div hto, hlast, hcarry, true_and, if_true, Nat.add_zero]

/-- A conversion that succeeds emits that many elements, and their bits are the input's, zero-padded. -/
theorem convertBits_eq_some (hto : 0 < toW) {pad : Bool} {out : List Nat}
    (h : convertBits fromW toW pad (data.map BitVec.toNat) = some out) :
    out.length = convertedLength fromW toW pad data.length ∧
      ∀ k, k < toW * out.length →
        (out.flatMap (bigEndianBits toW)).getD k false = (elementBits data).getD k false := by
  rw [convertedLength_eq hto]
  cases pad with
  | true =>
    obtain ⟨out', n, hout, hn, hbits⟩ := convertBits_pad hto (toNat_lt_of_mem_map (vs := data))
    obtain rfl : out = out' := Option.some_injective _ (h.symm.trans hout)
    change _ = elementBits data ++ _ at hbits
    have hlen := congrArg List.length hbits
    rw [length_flatMap_bigEndianBits, List.length_append, length_elementBits, List.length_replicate] at hlen
    refine ⟨(Nat.div_eq_of_lt_le (by omega) (by rw [Nat.succ_mul]; omega)).symm, fun k _ => ?_⟩
    rw [hbits, getD_append_false]
    simp
  | false =>
    rw [convertBits_false] at h
    obtain ⟨-, hout⟩ := Option.ite_none_left_eq_some.mp h
    obtain rfl := Option.some_injective _ hout
    refine ⟨(regroup_lengths hto data).1, fun k hk => ?_⟩
    rw [← regroup_elementBits toW data]
    exact (List.getD_append _ _ _ _ (by rwa [length_flatMap_bigEndianBits, Nat.mul_comm])).symm

/-- Cutting the output to its width loses no bit of it. -/
theorem elementBits_map_ofNat (w : Nat) (out : List Nat) :
    elementBits (out.map (BitVec.ofNat w)) = out.flatMap (bigEndianBits w) := by
  rw [elementBits, List.map_map, List.flatMap_map]
  refine List.flatMap_congr fun v _ => ?_
  rw [Function.comp_apply, BitVec.toNat_ofNat, bigEndianBits_mod_two_pow]

end

/-! ## The two directions -/

/-- The width of the elements read. -/
def Direction.fromBits : Direction → Nat
  | .to5 => 8
  | .to8 => 5

/-- The width of the elements written. -/
def Direction.toBits : Direction → Nat
  | .to5 => 5
  | .to8 => 8

/-- The buffer read. -/
def Direction.source : (d : Direction) → Memory → Buffer d.fromBits
  | .to5, m => m.byt
  | .to8, m => m.sym

/-- The buffer written. -/
def Direction.target : (d : Direction) → Memory → Buffer d.toBits
  | .to5, m => m.sym
  | .to8, m => m.byt

/-- The length register of the buffer read. -/
def Direction.sourceLen : Direction → State → Byte
  | .to5, s => s.blen
  | .to8, s => s.slen

/-- The length register of the buffer written. -/
def Direction.targetLen : Direction → State → Byte
  | .to5, s => s.slen
  | .to8, s => s.blen

/-- The buffer written, by name. -/
def Direction.targetName : Direction → BufName
  | .to5 => .sym
  | .to8 => .byt

/-- The length register of the buffer written, by name. -/
def Direction.targetLenReg : Direction → Reg
  | .to5 => .slen
  | .to8 => .blen

/-- What CV_CONVERT writes before it finishes. -/
def Direction.written (d : Direction) (dst : Nat) (out : List Nat) (len : Byte) (s : State) : State :=
  match d with
  | .to5 => (s.setSym (Buffer.writeList s.mem.sym dst (out.map (BitVec.ofNat 5)))).setSlen len
  | .to8 => (s.setByt (Buffer.writeList s.mem.byt dst (out.map (BitVec.ofNat 8)))).setBlen len

/-- The elements read. -/
def Direction.input (d : Direction) (src : Nat) (s : State) : List (BitVec d.fromBits) :=
  rangeOf (d.source s.mem) src ((d.sourceLen s).toNat - src)

/-- How many elements are written (R200's `outlen`). -/
def Direction.outputLen (d : Direction) (pad : Bool) (src : Nat) (s : State) : Nat :=
  convertedLength d.fromBits d.toBits pad ((d.sourceLen s).toNat - src)

/-- The elements read leave bits that do not convert. -/
def Direction.Leftover (d : Direction) (pad : Bool) (src : Nat) (s : State) : Prop :=
  pad = false ∧ LeftoverFails d.fromBits d.toBits (d.fromBits * ((d.sourceLen s).toNat - src)) fun k =>
    (elementBits (d.input src s)).getD k false

section
variable (d : Direction) {pad : Bool} {src dst : Nat} {s : State}

theorem exec_cvConvert (pad : Bool) (src dst : Nat) (s : State) : exec (.cvConvert d pad src dst) s =
    if (d.sourceLen s).toNat < src then raise .range s
    else if 255 < dst + d.outputLen pad src s then raise .capacity s
    else (convertBits d.fromBits d.toBits pad ((d.input src s).map BitVec.toNat)).elim (raise .bitsConversionFailed s)
      fun out => finish (d.written dst out (BitVec.ofNat 8 (dst + d.outputLen pad src s)) s) := by
  cases d with
  | to5 =>
    show convertTo5 pad src dst s = _
    simp only [convertTo5, Buffer.slice_eq_rangeOf, Direction.input, Direction.source, Direction.sourceLen,
      Direction.fromBits, Direction.toBits]
    cases convertBits 8 5 pad ((rangeOf s.mem.byt src (s.blen.toNat - src)).map BitVec.toNat) <;> rfl
  | to8 =>
    show convertTo8 pad src dst s = _
    simp only [convertTo8, Buffer.slice_eq_rangeOf, Direction.input, Direction.source, Direction.sourceLen,
      Direction.fromBits, Direction.toBits]
    cases convertBits 5 8 pad ((rangeOf s.mem.sym src (s.slen.toNat - src)).map BitVec.toNat) <;> rfl

theorem Direction.toBits_pos : 0 < d.toBits := by cases d <;> decide

theorem Direction.length_input (src : Nat) (s : State) : (d.input src s).length = (d.sourceLen s).toNat - src :=
  length_rangeOf ..

theorem Direction.target_written (dst : Nat) (out : List Nat) (len : Byte) (s : State) :
    d.target (d.written dst out len s).mem =
      Buffer.writeList (d.target s.mem) dst (out.map (BitVec.ofNat d.toBits)) := by
  cases d <;> rfl

theorem Direction.targetLen_written (dst : Nat) (out : List Nat) (len : Byte) (s : State) :
    d.targetLen ((d.written dst out len s).setStatus 0x00#8) = len := by
  cases d <;> rfl

theorem map_ofNat_fits {w : Nat} {out : List Nat} (hfit : dst + out.length ≤ 255) :
    dst + (out.map (BitVec.ofNat w)).length ≤ Config.memCells := by
  rw [List.length_map]
  exact hfit.trans (by decide)

theorem Direction.getLsbD_read_written {out : List Nat} (hfit : dst + out.length ≤ 255) (len : Byte) (s : State)
    {j b : Nat} (hj : j < out.length) (hb : b < d.toBits) :
    (Buffer.read (d.target (d.written dst out len s).mem) (dst + j)).getLsbD (d.toBits - 1 - b) =
      (out.flatMap (bigEndianBits d.toBits)).getD (d.toBits * j + b) false := by
  have hidx : dst ≤ dst + j ∧ dst + j < dst + (out.map (BitVec.ofNat d.toBits)).length := by
    rw [List.length_map]
    omega
  rw [d.target_written, Buffer.read_writeList _ _ _ (map_ofNat_fits hfit), if_pos hidx, Nat.add_sub_cancel_left,
    ← elementBits_map_ofNat, getD_elementBits_mul_add _ _ hb]
  rfl

theorem Direction.frame_written {out : List Nat} (hfit : dst + out.length ≤ 255) (len : Byte) (s : State) :
    frame [d.targetLenReg] (cellsOf d.targetName dst out.length) s (d.written dst out len s) := by
  refine ⟨fun r hr => ?_, fun b i hi => ?_, ?_⟩
  · cases d <;> cases r <;> simp [readReg, Direction.written, Direction.targetLenReg] at hr ⊢
  · have hkept {w : Nat} (buf : Buffer w) (hmem : ¬ (dst ≤ i ∧ i < dst + out.length)) :
        Buffer.read (Buffer.writeList buf dst (out.map (BitVec.ofNat w))) i = Buffer.read buf i :=
      Buffer.read_writeList_of_not_mem buf (map_ofNat_fits hfit) (by rwa [List.length_map])
    cases d with
    | to5 =>
      cases b with
      | sym => exact congrArg (BitVec.setWidth 32) (hkept _ fun hmem => hi ⟨rfl, hmem⟩)
      | txt | hrp | byt => rfl
    | to8 =>
      cases b with
      | byt => exact congrArg (BitVec.setWidth 32) (hkept _ fun hmem => hi ⟨rfl, hmem⟩)
      | txt | hrp | sym => rfl
  · cases d <;> rfl

/-! ## The outcomes of CV_CONVERT (R200) -/

theorem Direction.leftover_iff : d.Leftover pad src s ↔
    convertBits d.fromBits d.toBits pad ((d.input src s).map BitVec.toNat) = none := by
  rw [convertBits_eq_none_iff d.toBits_pos, d.length_input]
  rfl

theorem exec_cvConvert_of_range (h : (d.sourceLen s).toNat < src) :
    exec (.cvConvert d pad src dst) s = .next (s.setStatus 0x81#8) := by
  rw [exec_cvConvert, if_pos h]
  rfl

section
variable (hsrc : src ≤ (d.sourceLen s).toNat)
include hsrc

theorem exec_cvConvert_of_capacity (hfull : 255 < dst + d.outputLen pad src s) :
    exec (.cvConvert d pad src dst) s = .next (s.setStatus 0x82#8) := by
  rw [exec_cvConvert, if_neg (not_lt.mpr hsrc), if_pos hfull]
  rfl

variable (hfit : dst + d.outputLen pad src s ≤ 255)
include hfit

theorem exec_cvConvert_of_leftover (h : d.Leftover pad src s) :
    exec (.cvConvert d pad src dst) s = .next (s.setStatus 0x09#8) := by
  rw [exec_cvConvert, if_neg (not_lt.mpr hsrc), if_neg (not_lt.mpr hfit), d.leftover_iff.mp h]
  rfl

theorem exec_cvConvert_converts (h : ¬ d.Leftover pad src s) :
    ∃ t, exec (.cvConvert d pad src dst) s = .next t ∧ t.status = 0x00#8 ∧
      (d.targetLen t).toNat = dst + d.outputLen pad src s ∧
      (∀ j b, j < d.outputLen pad src s → b < d.toBits →
        (Buffer.read (d.target t.mem) (dst + j)).getLsbD (d.toBits - 1 - b) =
          (elementBits (d.input src s)).getD (d.toBits * j + b) false) ∧
      frame [.status, d.targetLenReg] (cellsOf d.targetName dst (d.outputLen pad src s)) s t := by
  obtain ⟨out, hout⟩ := Option.ne_none_iff_exists'.mp (d.leftover_iff.not.mp h)
  obtain ⟨hlen, hbits⟩ := convertBits_eq_some d.toBits_pos hout
  rw [d.length_input] at hlen
  change out.length = d.outputLen pad src s at hlen
  have hexec : exec (.cvConvert d pad src dst) s =
      .next ((d.written dst out (BitVec.ofNat 8 (dst + d.outputLen pad src s)) s).setStatus 0x00#8) := by
    rw [exec_cvConvert, if_neg (not_lt.mpr hsrc), if_neg (not_lt.mpr hfit), hout]
    rfl
  rw [← hlen] at hfit hexec ⊢
  refine ⟨_, hexec, rfl, ?_, fun j b hj hb => ?_, (d.frame_written hfit _ s).setStatus _⟩
  · rw [d.targetLen_written, BitVec.toNat_ofNat, Nat.mod_eq_of_lt (Nat.lt_succ_of_le hfit)]
  · have hnext : d.toBits * (j + 1) ≤ d.toBits * out.length := Nat.mul_le_mul_left _ hj
    exact (d.getLsbD_read_written hfit _ s hj hb).trans (hbits _ ((Nat.add_lt_add_left hb _).trans_le hnext))

end

/-- The four outcomes, for the output's length, the stream read and the leftover rule in any spelling. -/
theorem exec_cvConvert_outcomes {outlen : Nat} {bits : Nat → Bool} {leftover : Prop}
    (hout : d.outputLen pad src s = outlen) (hbits : ∀ k, bits k = (elementBits (d.input src s)).getD k false)
    (hleft : d.Leftover pad src s ↔ leftover) :
    ((d.sourceLen s).toNat < src → exec (.cvConvert d pad src dst) s = .next (s.setStatus 0x81#8)) ∧
    (src ≤ (d.sourceLen s).toNat → 255 < dst + outlen →
      exec (.cvConvert d pad src dst) s = .next (s.setStatus 0x82#8)) ∧
    (src ≤ (d.sourceLen s).toNat → dst + outlen ≤ 255 → leftover →
      exec (.cvConvert d pad src dst) s = .next (s.setStatus 0x09#8)) ∧
    (src ≤ (d.sourceLen s).toNat → dst + outlen ≤ 255 → ¬ leftover →
      ∃ t, exec (.cvConvert d pad src dst) s = .next t ∧ t.status = 0x00#8 ∧ (d.targetLen t).toNat = dst + outlen ∧
        (∀ j b, j < outlen → b < d.toBits →
          (Buffer.read (d.target t.mem) (dst + j)).getLsbD (d.toBits - 1 - b) = bits (d.toBits * j + b)) ∧
        frame [.status, d.targetLenReg] (cellsOf d.targetName dst outlen) s t) := by
  subst hout
  obtain rfl := funext hbits
  exact ⟨exec_cvConvert_of_range d, exec_cvConvert_of_capacity d,
    fun hsrc hfit hl => exec_cvConvert_of_leftover d hsrc hfit (hleft.mpr hl),
    fun hsrc hfit hl => exec_cvConvert_converts d hsrc hfit (hleft.not.mpr hl)⟩

end

/-- Settles O55: the outcomes of bytes to symbols; fewer than five bits are left over, so only a bit that is 1 fails. -/
theorem cvConvertBytesToSymbols : Obligations.CvConvertBytesToSymbols := by
  refine ⟨fun _ _ _ _ => decode_eq_ok_cvConvert_iff, fun pad src dst s => ?_⟩
  intro len bits outlen leftover
  have hbits : ∀ k, bits k = (elementBits (Direction.to5.input src s)).getD k false := bigEndianBit8_eq _
  have hout : Direction.to5.outputLen pad src s = outlen := convertedLength_eq (by decide) 8 pad len
  refine exec_cvConvert_outcomes .to5 hout hbits (and_congr_right fun hpad => ?_)
  subst hpad
  have hfew : ¬ 8 ≤ 8 * len - 5 * (8 * len / 5) := by omega
  simp only [hbits]
  exact or_iff_right hfew

/-- Settles O56: the outcomes of symbols to bytes. -/
theorem cvConvertSymbolsToBytes : Obligations.CvConvertSymbolsToBytes := by
  refine ⟨fun _ _ _ _ => decode_eq_ok_cvConvert_iff, fun pad src dst s => ?_⟩
  intro len bits outlen leftover
  have hbits : ∀ k, bits k = (elementBits (Direction.to8.input src s)).getD k false := bigEndianBit5_eq _
  have hout : Direction.to8.outputLen pad src s = outlen := convertedLength_eq (by decide) 5 pad len
  refine exec_cvConvert_outcomes .to8 hout hbits (and_congr_right fun hpad => ?_)
  subst hpad
  simp only [hbits]
  exact Iff.rfl

/-! ## Converting back (R202) -/

theorem getD_elementBits_rangeOf {w : Nat} (buf : Buffer w) (start : Nat) {len j b : Nat} (hj : j < len)
    (hb : b < w) :
    (elementBits (rangeOf buf start len)).getD (w * j + b) false =
      (Buffer.read buf (start + j)).getLsbD (w - 1 - b) := by
  rw [getD_elementBits_mul_add _ _ hb]
  simp [rangeOf, hj]

theorem rangeOf_eq_of_getLsbD_eq {w : Nat} {a b : Buffer w} {start len : Nat}
    (h : ∀ j i, j < len → i < w →
      (Buffer.read a (start + j)).getLsbD (w - 1 - i) = (Buffer.read b (start + j)).getLsbD (w - 1 - i)) :
    rangeOf a start len = rangeOf b start len := by
  refine List.map_congr_left fun j hj => BitVec.eq_of_getLsbD_eq fun i hi => ?_
  have hbit := h j (w - 1 - i) (List.mem_range.mp hj) (by omega)
  rwa [show w - 1 - (w - 1 - i) = i by omega] at hbit

theorem getD_elementBits_symbols (sym : Buffer 5) {len k : Nat} (hk : k < 5 * len) :
    (elementBits (rangeOf sym 0 len)).getD k false = streamBit .msbFirst sym k := by
  have hread := getD_elementBits_rangeOf sym 0 (len := len) (j := k / 5) (b := k % 5) (by omega) (by omega)
  rwa [Nat.div_add_mod, Nat.zero_add] at hread

/-- Without pad only the whole bytes among SYM's bits are written. -/
theorem outputLen_to8 (s : State) : Direction.to8.outputLen false 0 s = 5 * s.slen.toNat / 8 :=
  convertedLength_eq (by decide) 5 false s.slen.toNat

/-- Symbols that hold `n` bytes and zeros after them leave over nothing but those zeros, fewer than five. -/
theorem not_leftover_to8 {s : State} {n : Nat} (hlen : 5 * s.slen.toNat / 8 = n) (hpad : 5 * s.slen.toNat < 8 * n + 5)
    (hzero : ∀ k, 8 * n ≤ k → k < 5 * s.slen.toNat → (elementBits (Direction.to8.input 0 s)).getD k false = false) :
    ¬ Direction.to8.Leftover false 0 s := by
  subst hlen
  rintro ⟨-, hmany | ⟨k, hlo, hlt, htrue⟩⟩
  · change 5 ≤ 5 * s.slen.toNat - 8 * (5 * s.slen.toNat / 8) at hmany
    omega
  · exact Bool.false_ne_true ((hzero k hlo hlt).symm.trans htrue)

/-- Bytes that fit come back. -/
theorem cvConvert_to5_to8 {s : State} (hfit : (8 * s.blen.toNat + 4) / 5 ≤ 255) :
    ∃ t u, exec (.cvConvert .to5 true 0 0) s = .next t ∧ exec (.cvConvert .to8 false 0 0) t = .next u ∧
      u.status = 0x00#8 ∧ u.blen = s.blen ∧
      rangeOf u.mem.byt 0 u.blen.toNat = rangeOf s.mem.byt 0 s.blen.toNat := by
  obtain ⟨t, hto5, hslen, hstream⟩ := exec_convertTo5_pad_stream (s := s) (by omega)
  rw [length_bytBits] at hslen
  have hinput (k : Nat) (hk : k < 5 * t.slen.toNat) :
      (elementBits (Direction.to8.input 0 t)).getD k false = s.bytBits.getD k false :=
    (getD_elementBits_symbols t.mem.sym hk).trans (hstream k hk)
  have hwhole : 5 * t.slen.toNat / 8 = s.blen.toNat := by omega
  have hlen : Direction.to8.outputLen false 0 t = s.blen.toNat := (outputLen_to8 t).trans hwhole
  have hleft : ¬ Direction.to8.Leftover false 0 t := by
    refine not_leftover_to8 hwhole (by omega) fun k hlo hk => (hinput k hk).trans (List.getD_eq_default _ _ ?_)
    rw [length_bytBits]
    omega
  obtain ⟨u, hto8, hstatus, hblen, hbits, -⟩ := exec_cvConvert_converts .to8 (dst := 0) (Nat.zero_le _)
    (by rw [hlen]; omega) hleft
  rw [hlen] at hblen hbits
  have hblen : u.blen = s.blen := BitVec.eq_of_toNat_eq (hblen.trans (Nat.zero_add _))
  refine ⟨t, u, hto5, hto8, hstatus, hblen, ?_⟩
  rw [hblen]
  refine rangeOf_eq_of_getLsbD_eq fun j i hj hi => ?_
  have hwithin : 8 * j + i < 5 * t.slen.toNat := by omega
  rw [← getD_elementBits_rangeOf s.mem.byt 0 hj hi]
  exact (hbits j i hj hi).trans (hinput _ hwithin)

/-- Settles O57: the pad of the first conversion is all that the second leaves over; a bit left over that is 1 fails. -/
theorem convertedBytesConvertBack : Obligations.ConvertedBytesConvertBack := by
  refine ⟨fun s => cvConvert_to5_to8, fun s hlast => ?_⟩
  simp only [bigEndianBit5_eq] at hlast
  have hfit : 0 + Direction.to8.outputLen false 0 s ≤ 255 := by
    rw [outputLen_to8]
    omega
  exact exec_cvConvert_of_leftover .to8 (Nat.zero_le _) hfit ⟨rfl, .inr hlast⟩

end Sys2Proof
end

section
/-! Calls of host procedures (spec/46_host_procedures.md): a call against its precondition is refused (R211, R226). -/

namespace Sys2Proof.Machine

/-! ## A call whose procedure has no meaning from its start (R266) -/

/-- With no procedure under way, a call stands where its procedure stands before its first access (R289). -/
theorem step_call {s : State} {p : Procedure} {rest : List HostEvent} (hs : s.host.schedule = .call p :: rest)
    (hr : s.host.running = none) :
    step s = settleProcedure p [] (s.setHost ⟨rest, none, s.host.reads, s.host.outcomes⟩) := by
  rw [step_of_schedule hs, setSchedule_of_not_running rest hr]
  rfl

theorem settleProcedure_of_refuse {p : Procedure} {r : Refusal} (h : p.prog = .refuse r) (s : State) :
    settleProcedure p [] s = .refused r := by
  simp only [settleProcedure, h, Prog.resume]

theorem step_call_of_refuse {s : State} {p : Procedure} {r : Refusal} {rest : List HostEvent} (h : p.prog = .refuse r)
    (hs : s.host.schedule = .call p :: rest) (hr : s.host.running = none) : step s = .refused r :=
  (step_call hs hr).trans (settleProcedure_of_refuse h _)

/-! ## The preconditions (R211, R226) -/

theorem TxRef.inRange_iff {t : TxRef} :
    t.inRange = true ↔ t.blockHeight < 2 ^ 24 ∧ t.txIndex < 2 ^ 15 ∧ t.outIndex < 2 ^ 15 := by
  simp only [TxRef.inRange, Bool.and_eq_true, decide_eq_true_eq, and_assoc]

theorem segwitEncodable_iff {hrp program : List Byte} {version : Nat} :
    segwitEncodable hrp version program = true ↔
      version ≤ 16 ∧ 2 ≤ program.length ∧ program.length ≤ 40 ∧
      (version = 0 → program.length = 20 ∨ program.length = 32) ∧
      hrp.length + 1 + 1 + (8 * program.length + 4) / 5 + 6 ≤ 90 := by
  simp only [segwitEncodable, segwitValid, Bool.and_eq_true, decide_eq_true_eq, and_assoc]
  rfl

theorem prog_txrefEncode_of_not_inRange {t : TxRef} (v : Variant) (h : ¬ t.inRange = true) :
    (Procedure.txrefEncode t v).prog = .refuse .txrefRange := if_pos (Bool.eq_false_of_not_eq_true h)

theorem prog_segwitEncode_of_not_encodable {hrp program : List Byte} {version : Nat}
    (h : ¬ segwitEncodable hrp version program = true) :
    (Procedure.segwitEncode hrp version program).prog = .refuse .segwitPrecondition :=
  if_pos (Bool.eq_false_of_not_eq_true h)

/-- Settles O59: either procedure tests its precondition before its first access, so the call's own step refuses. -/
theorem procedurePreconditionsAreRefused : Obligations.ProcedurePreconditionsAreRefused := by
  refine ⟨fun s t v rest hs hr hrange => ?_, fun s hrp program version rest hs hr hpre => ?_⟩
  · exact step_call_of_refuse (prog_txrefEncode_of_not_inRange v (mt TxRef.inRange_iff.mp hrange)) hs hr
  · exact step_call_of_refuse (prog_segwitEncode_of_not_encodable (mt segwitEncodable_iff.mp hpre)) hs hr

end Sys2Proof.Machine
end

section
/-! Exceptions (spec/60_exceptions.md): an error code is a command's only exception (R250, R252), no command word stops
the machine, and the one fault is the Segwit self-verify's (R266). -/

namespace Sys2Proof.Machine

/-! ## The state a command answers (R14, R250, R252) -/

/-- The state a command answers: the one before with a listed code in STATUS, or one with STATUS at OK and the host side
as it was. -/
theorem EndsWith.next_cases {codes : List StatusCode} {s t : State} {o : Host.Outcome State Fault Refusal}
    (h : EndsWith codes s o) (ho : o = .next t) :
    (∃ c ∈ codes, t = s.setStatus c.code) ∨ t.status = 0x00#8 ∧ t.host = s.host := by
  obtain ⟨c, hc, rfl⟩ | ⟨u, rfl, hhost, -⟩ := h
  · exact .inl ⟨c, hc, raise_next ho⟩
  · rw [finish_next ho]
    exact .inr ⟨rfl, hhost⟩

theorem executeCommand_of_error {w : Word} {e : DecodeError} (h : decode w = .error e) (s : State) :
    executeCommand w s = raise .illegalCommand s := by
  simp only [executeCommand, h, illegalCommand]

/-- A command word, decodable or not, ends as a command does (R91, R122). -/
theorem executeCommand_ends (w : Word) (s : State) : ∃ codes, EndsWith codes s (executeCommand w s) := by
  cases h : decode w with
  | ok i => exact ⟨raisedBy i, executeCommand_of_decode h s ▸ exec_ends i s⟩
  | error e =>
    exact ⟨[.illegalCommand], executeCommand_of_error h s ▸ endsWith_raise (List.mem_singleton_self _)⟩

/-- Settles O7: a command word raises a code or finishes, and neither touches the host side. -/
theorem everyWordExecutesInEveryState : Obligations.EveryWordExecutesInEveryState := by
  intro w s
  obtain ⟨codes, hends⟩ := executeCommand_ends w s
  obtain ⟨t, ht⟩ := hends.exists_next
  obtain ⟨c, -, rfl⟩ | ⟨-, hhost⟩ := hends.next_cases ht
  · exact ⟨_, ht, rfl⟩
  · exact ⟨t, ht, hhost⟩

/-- Settles O17: a command that finishes leaves OK, so one that leaves an error code has raised it. -/
theorem errorChangesOnlyStatus : Obligations.ErrorChangesOnlyStatus := by
  intro w s t ht herr
  obtain ⟨codes, hends⟩ := executeCommand_ends w s
  obtain ⟨c, -, rfl⟩ | ⟨hok, -⟩ := hends.next_cases ht
  · rfl
  · exact absurd hok herr

/-- Settles O18: each command ends with a code of its row or OK, and an undecodable word raises ILLEGAL_COMMAND. -/
theorem statusCodesRaisedByEachCommand : Obligations.StatusCodesRaisedByEachCommand := by
  refine ⟨fun i s t ht => ?_, fun w e s t herr ht => ?_, rfl⟩
  · obtain ⟨c, hc, rfl⟩ | ⟨hok, -⟩ := (exec_ends i s).next_cases ht
    · exact .inr ⟨c, hc, rfl⟩
    · exact .inl hok
  · rw [executeCommand_of_error herr] at ht
    rw [raise_next ht]
    rfl

/-! ## Host programs without an `unreachable` step (R212, R266) -/

/-- Whatever its accesses return, the program reaches no `unreachable` step. -/
def Prog.NeverFaults (p : Prog) : Prop := ∀ answers f, p.resume answers ≠ .fault f

namespace Prog.NeverFaults

theorem done (o : ProcOutcome) : (Prog.done o).NeverFaults
  | [], _ => nofun
  | _ :: _, _ => nofun

theorem refuse (r : Refusal) : (Prog.refuse r).NeverFaults
  | [], _ => nofun
  | _ :: _, _ => nofun

theorem rd {a : PortAddr} {k : Word → Prog} (hk : ∀ v, (k v).NeverFaults) : (Prog.rd a k).NeverFaults
  | [], _ => nofun
  | v :: vs, f => hk v vs f

section
variable {k : Prog} (hk : k.NeverFaults)
include hk

theorem wr {a : PortAddr} {d : Word} : (Prog.wr a d k).NeverFaults
  | [], _ => nofun
  | _ :: vs, f => hk vs f

theorem ite {p : Prop} [Decidable p] {k' : Prog} (hk' : k'.NeverFaults) : (if p then k else k').NeverFaults := by
  split
  · exact hk
  · exact hk'

theorem writeLoc {l : Loc} {d : Word} : (Machine.writeLoc l d k).NeverFaults := by
  cases l with
  | reg r => exact hk.wr
  | cell b i => exact .ite hk.wr (.refuse _)

theorem command {i : Instr} : (Machine.command i k).NeverFaults := .ite hk.wr (.refuse _)

theorem writeCells {b : BufName} {i : Nat} {vs : List Word} : (Machine.writeCells b i vs k).NeverFaults := by
  induction vs generalizing i with
  | nil => exact hk
  | cons v vs ih => exact ih.writeLoc

theorem ldTxt {x : List Byte} : (Machine.ldTxt x k).NeverFaults := hk.wr.writeCells

theorem ldHrp {x : List Byte} : (Machine.ldHrp x k).NeverFaults := hk.wr.writeCells

theorem ldSym {vs : List Word} : (Machine.ldSym vs k).NeverFaults := hk.wr.writeCells

theorem ldByt {bs : List Word} : (Machine.ldByt bs k).NeverFaults := hk.wr.writeCells

theorem appendL {n : Nat} {x : Word} : (Machine.appendL n x k).NeverFaults := hk.command.wr

theorem appendM {n : Nat} {x : Word} : (Machine.appendM n x k).NeverFaults := hk.command.wr

theorem checkStatus {bad : Byte → Prog} (hbad : ∀ c, (bad c).NeverFaults) :
    (Machine.checkStatus bad k).NeverFaults := .rd fun _ => hk.ite (hbad _)

theorem check : (Machine.check k).NeverFaults := hk.checkStatus fun _ => .done _

end

section
variable {k : Word → Prog} (hk : ∀ v, (k v).NeverFaults)
include hk

theorem readLoc {l : Loc} : (Machine.readLoc l k).NeverFaults := by
  cases l with
  | reg r => exact .rd hk
  | cell b i => exact .ite (.rd hk) (.refuse _)

theorem nextL {n : Nat} : (Machine.nextL n k).NeverFaults := (rd hk).command

theorem nextM {n : Nat} : (Machine.nextM n k).NeverFaults := (rd hk).command

end

theorem readCells {b : BufName} {i n : Nat} {k : List Word → Prog} (hk : ∀ vs, (k vs).NeverFaults) :
    (Machine.readCells b i n k).NeverFaults := by
  induction n generalizing i k with
  | zero => exact hk []
  | succ n ih => exact readLoc fun v => ih fun vs => hk (v :: vs)

end Prog.NeverFaults

/-! ## The procedures that never fault -/

theorem lineProg_neverFaults (l : Line) {k : Prog} (hk : k.NeverFaults) : (lineProg l k).NeverFaults := by
  cases l with
  | wr loc v => exact hk.writeLoc
  | rd loc expected => exact .readLoc fun _ => hk
  | cmd i => exact hk.command
  | ldTxt x => exact hk.ldTxt
  | ldHrp x => exact hk.ldHrp
  | ldSym vs => exact hk.ldSym
  | ldByt bs => exact hk.ldByt
  | appendL n x => exact hk.appendL
  | appendM n x => exact hk.appendM
  | nextL n => exact .nextL fun _ => hk
  | nextM n => exact .nextM fun _ => hk
  | check => exact hk.check

theorem linesProg_neverFaults (ls : List Line) : (linesProg ls).NeverFaults := by
  induction ls with
  | nil => exact .done _
  | cons l ls ih => exact lineProg_neverFaults l ih

theorem segwitDecode_neverFaults (hrp x : List Byte) : (segwitDecode hrp x).NeverFaults := by
  unfold segwitDecode segwitDecodeThen
  refine .ldTxt <| .command <| .checkStatus ?_ fun _ => .done _
  refine .rd fun hlen => .readCells fun h => .ite (.done _) ?_
  refine .rd fun slen => .ite (.done _) <| .readLoc fun version => .ite (.done _) ?_
  refine .command <| .rd fun st => .ite (.done _) ?_
  exact .rd fun blen => .readCells fun bytes => .ite (.done _) <| .ite (.done _) <| .done _

theorem txrefEncode_neverFaults (t : TxRef) (v : Variant) : (txrefEncode t v).NeverFaults := by
  have hstring {x : List Byte} {format : List Word → ProcOutcome} : Prog.NeverFaults <| ldHrp x <|
      command (.bcEncode v) <| check <| .rd Reg.tlen.addr fun tlen => readCells .txt 0 tlen.toNat fun text =>
      .done (format text) :=
    .ldHrp <| .command <| .check <| .rd fun _ => .readCells fun _ => .done _
  unfold txrefEncode
  refine .ite (.refuse _) <| .command <| .appendL <| .appendL <| .appendL <| .appendL ?_
  exact .ite (.appendL hstring) hstring

theorem txrefFields_neverFaults (n : Network) (outpoint : Bool) : (txrefFields n outpoint).NeverFaults := by
  unfold txrefFields
  refine .nextL fun version => .ite (.done _) <| .nextL fun height => .nextL fun index => ?_
  exact .ite (.nextL fun outIndex => .ite (.done _) (.done _)) (.done _)

theorem txrefDecode_neverFaults (x : List Byte) (v : Variant) : (txrefDecode x v).NeverFaults := by
  unfold txrefDecode
  dsimp only
  split
  · exact .done _
  · refine .ldTxt <| .command <| .check <| .rd fun slen => .ite (.done _) <| .command <| .nextL fun magic => ?_
    split
    · exact .done _
    · exact .ite (.done _) <| .ite (.done _) <| txrefFields_neverFaults _ _

/-! ## Where a procedure faults -/

/-- A Segwit program has two bytes or more, so its procedure begins with a cell write. -/
theorem segwitEncode_starts_with_wr {hrp program : List Byte} {version : Nat}
    (h : segwitEncodable hrp version program = true) : ∃ a d k, segwitEncode hrp version program = .wr a d k := by
  obtain ⟨-, hlen, -⟩ := segwitEncodable_iff.mp h
  cases program with
  | nil => exact absurd hlen (by decide)
  | cons b bs => exact ⟨_, _, _, if_neg (ne_false_of_eq_true h)⟩

/-- Only a segwit_encode within its precondition has an `unreachable` step to reach (R212). -/
theorem call_of_resume_eq_fault {p : Procedure} {answers : List Word} {f : Fault}
    (h : p.prog.resume answers = .fault f) :
    ∃ hrp version program, p = .segwitEncode hrp version program ∧ segwitEncodable hrp version program = true := by
  cases p with
  | segwitEncode hrp version program =>
    refine ⟨hrp, version, program, rfl, by_contra fun hpre => ?_⟩
    rw [prog_segwitEncode_of_not_encodable hpre] at h
    exact Prog.NeverFaults.refuse _ answers f h
  | segwitDecode hrp x => exact absurd h (segwitDecode_neverFaults hrp x answers f)
  | txrefEncode t v => exact absurd h (txrefEncode_neverFaults t v answers f)
  | txrefDecode x v => exact absurd h (txrefDecode_neverFaults x v answers f)
  | program ls => exact absurd h (linesProg_neverFaults ls answers f)

theorem prog_ne_fault (p : Procedure) (f : Fault) : p.prog ≠ .fault f := by
  intro h
  obtain ⟨hrp, version, program, rfl, hpre⟩ := call_of_resume_eq_fault ((Prog.resume_nil _).trans h)
  obtain ⟨a, d, k, hwr⟩ := segwitEncode_starts_with_wr hpre
  cases hwr.symm.trans h

theorem settleProcedure_fault {p : Procedure} {answers : List Word} {s : State} {f : Fault}
    (h : settleProcedure p answers s = .fault f) : p.prog.resume answers = .fault f := by
  unfold settleProcedure at h
  split at h <;> cases h
  assumption

/-! ## Where a step faults -/

theorem accessPort_ne_fault (acc : Access) (s : State) (f : Fault) : accessPort acc s ≠ .fault f := by
  cases acc with
  | read width a =>
    simp only [accessPort]
    cases accessRefusal width a <;> nofun
  | write width a d =>
    obtain ⟨t, ht⟩ := portWrite_exists_next a d s
    simp only [accessPort, ht]
    cases accessRefusal width a <;> nofun

theorem hostAccess_ne_fault (acc : Access) (s : State) (f : Fault) : hostAccess acc s ≠ .fault f := by
  intro h
  unfold hostAccess at h
  split at h
  · cases acc <;> cases h
  · next hacc => exact accessPort_ne_fault _ _ _ hacc
  · cases h

theorem proceedProcedure_fault {r : ProcRun} {s : State} {f : Fault} (h : proceedProcedure r s = .fault f) :
    ∃ answers, r.call.prog.resume answers = .fault f := by
  unfold proceedProcedure at h
  split at h
  · exact ⟨_, settleProcedure_fault h⟩
  · split at h
    · exact ⟨_, settleProcedure_fault h⟩
    · next hacc => exact absurd hacc (hostAccess_ne_fault _ _ _)
    · cases h

/-- An event that faults goes on with a procedure under way, and that procedure faults. -/
theorem hostEvent_fault {e : HostEvent} {s : State} {f : Fault} (h : hostEvent e s = .fault f) :
    ∃ r answers, s.host.running = some r ∧ r.call.prog.resume answers = .fault f := by
  cases e with
  | reset => cases h
  | access acc =>
    simp only [hostEvent] at h
    split at h
    · cases h
    · split at h
      · cases h
      · next hacc => exact absurd hacc (hostAccess_ne_fault _ _ _)
      · cases h
  | call p =>
    simp only [hostEvent] at h
    split at h
    · cases h
    · have hprog := settleProcedure_fault h
      rw [Prog.resume_nil] at hprog
      exact absurd hprog (prog_ne_fault p f)
  | proceed =>
    simp only [hostEvent] at h
    split at h
    · cases h
    · next r hr =>
      obtain ⟨answers, hfault⟩ := proceedProcedure_fault h
      exact ⟨r, answers, hr, hfault⟩

/-- Settles O11: no access faults and no call does, so the procedure under way has reached its `unreachable` step, and
every procedure but segwit_encode is without one. -/
theorem onlyFaultIsSegwitSelfVerify : Obligations.OnlyFaultIsSegwitSelfVerify := by
  intro s f h
  unfold step at h
  split at h
  · cases h
  · obtain ⟨r, answers, hr, hfault⟩ := hostEvent_fault h
    obtain ⟨hrp, version, program, hcall, hpre⟩ := call_of_resume_eq_fault hfault
    cases f
    exact ⟨rfl, r, hrp, version, program, hr, hcall, hpre⟩

end Sys2Proof.Machine
end

section
/-! Reset and hazards (spec/70_reset_and_hazards.md): what a command overwrites (R284), and host procedures as runs of
single accesses (R285, R289, R290). In each part the facts about the model's functions stand before the theorems that
settle obligations. -/

namespace Sys2Proof.Machine

/-! ## Interleaved procedures (R285) -/

/-- Settles O16: either event tests for a procedure under way before anything else. -/
theorem interleavedAccessIsRefused : Obligations.InterleavedAccessIsRefused := by
  intro s r e rest hs hr he
  have hr : (s.setSchedule rest).host.running = some r := hr
  rw [step_of_schedule hs]
  obtain ⟨acc, rfl⟩ | ⟨p, rfl⟩ := he
  · simp only [hostEvent, hr]
  · simp only [hostEvent, hr]

/-! ## The rows of what each command overwrites (R284) -/

theorem frame.mono {rs rs' : List Reg} {p p' : BufName → Nat → Prop} {s t : State} (h : frame rs p s t)
    (hrs : ∀ r ∈ rs, r ∈ rs') (hp : ∀ b k, p b k → p' b k) : frame rs' p' s t := by
  obtain ⟨hregs, hcells, hhost⟩ := h
  exact ⟨fun r hr => hregs r (mt (hrs r) hr), fun b k hk => hcells b k (mt (hp b k) hk), hhost⟩

theorem status_mem_overwrittenRegs (i : Instr) : .status ∈ overwrittenRegs i := by
  cases i with
  | agAppendL n | agAppendM n =>
    simp only [overwrittenRegs]
    split <;> exact List.mem_cons_self
  | cvConvert d pad src dst => cases d <;> exact List.mem_cons_self
  | _ => exact List.mem_cons_self

/-- A command with the outcome `o` at `s` stays within its row. -/
def OverwritesRow (i : Instr) (s : State) (o : Host.Outcome State Fault Refusal) : Prop :=
  ∀ t, o = .next t → frame (overwrittenRegs i) (overwrittenCells i s t) s t

section
variable {i : Instr} {s t : State}

theorem overwritesRow_next (h : frame (overwrittenRegs i) (overwrittenCells i s t) s t) :
    OverwritesRow i s (.next t) := by
  rintro _ ⟨⟩
  exact h

/-- STATUS stands in every row, so an error, and a command that only completes, stays within it (R252). -/
theorem overwritesRow_setStatus (c : Byte) : OverwritesRow i s (.next (s.setStatus c)) :=
  overwritesRow_next ((frame_setStatus s c).mono (by simpa using status_mem_overwrittenRegs i) fun _ _ => False.elim)

/-- A command that checks `p` first stays within its row if each branch does. -/
theorem overwritesRow_ite {p : Prop} [Decidable p] {a b : Host.Outcome State Fault Refusal}
    (ha : OverwritesRow i s a) (hb : ¬ p → OverwritesRow i s b) : OverwritesRow i s (if p then a else b) := by
  split
  · exact ha
  · next h => exact hb h

/-- A command whose one write before it finishes is to CHK. -/
theorem overwritesRow_setChk (c : Chk) (h : overwrittenRegs i = [.status, .chk]) :
    OverwritesRow i s (finish (s.setChk c)) :=
  overwritesRow_next (h ▸ ((frame_setChk s c).setStatus _).mono (fun _ => id) fun _ _ => False.elim)

/-- A command whose one write before it finishes is to RES. -/
theorem overwritesRow_setRes (x : Word) (h : overwrittenRegs i = [.status, .res]) :
    OverwritesRow i s (finish (s.setRes x)) := by
  obtain ⟨t, hnext, -, -, hframe⟩ := finish_setRes s x
  exact hnext ▸ overwritesRow_next (h ▸ hframe.mono (fun _ => id) fun _ _ => False.elim)

end

/-- What passes the capacity check of PM_EMIT and CK_CREATE (R161, R170). -/
theorem slen_le_of_room {s : State} (h : ¬ s.slen.toNat + Config.checksumSymbols > Config.cap) : s.slen.toNat ≤ 249 :=
  Nat.le_of_add_le_add_right (b := 6) (not_lt.mp h)

theorem softReset_overwritesRow (s : State) : OverwritesRow .softReset s (exec .softReset s) := by
  refine overwritesRow_next ⟨fun r hr => ?_, fun _ _ h => absurd trivial h, rfl⟩
  cases r <;> simp [overwrittenRegs, readReg] at hr ⊢

theorem alDec_overwritesRow (s : State) : OverwritesRow .alDec s (exec .alDec s) := by
  refine overwritesRow_ite (overwritesRow_setStatus _) fun _ =>
    overwritesRow_ite (overwritesRow_setStatus _) fun _ => ?_
  cases rev (s.arg.setWidth 8) with
  | none => exact overwritesRow_setStatus _
  | some i => exact overwritesRow_setRes _ rfl

theorem bcEncode_overwritesRow (v : Variant) (s : State) : OverwritesRow (.bcEncode v) s (exec (.bcEncode v) s) := by
  refine overwritesRow_ite (overwritesRow_setStatus _) fun h => overwritesRow_next ?_
  have hfit : s.hlen.toNat + 1 + s.slen.toNat + 6 ≤ 255 := not_lt.mp h
  have hframe := (frame_encoded v hfit).setStatus 0x00#8
  rwa [← encoded_tlen v hfit] at hframe

theorem bcDecode_overwritesRow (v : Variant) (s : State) : OverwritesRow (.bcDecode v) s (exec (.bcDecode v) s) := by
  cases hparse : parseString v s.txtText with
  | error c =>
    rw [exec_bcDecode_of_error hparse]
    exact overwritesRow_setStatus _
  | ok r =>
    obtain ⟨t, hnext, -, -, hhlen, hslen, -, -, hframe⟩ := bcDecode_accepts hparse
    rw [hnext]
    rw [← hhlen, ← hslen] at hframe
    exact overwritesRow_next hframe

/-- AG_APPEND in either order; with n = 0 only STATUS changes. -/
theorem appendInstr_overwritesRow (o : BitOrder) (n : Nat) (s : State) :
    OverwritesRow (o.appendInstr n) s (exec (o.appendInstr n) s) := by
  obtain hfull | hfit := lt_or_ge 1275 (s.wcur.toNat + n)
  · rw [exec_appendInstr_of_full o hfull]
    exact overwritesRow_setStatus _
  obtain hn | hn := Nat.eq_zero_or_pos n
  · rw [exec_appendInstr_zero o hfit hn]
    exact overwritesRow_setStatus _
  · obtain ⟨t, hnext, -, -, -, -, hframe⟩ := appendInstr_writesField o hfit hn
    have hregs : overwrittenRegs (o.appendInstr n) = [.status, .wcur, .slen] := by
      cases o <;> exact if_neg hn.ne'
    have hcells : overwrittenCells (o.appendInstr n) s t = unitsOf s.wcur.toNat n := by
      cases o <;> exact if_neg hn.ne'
    rw [hnext]
    exact overwritesRow_next (by rwa [hregs, hcells])

/-- EN_NEXT in either order. -/
theorem nextInstr_overwritesRow (o : BitOrder) (n : Nat) (s : State) :
    OverwritesRow (o.nextInstr n) s (exec (o.nextInstr n) s) := by
  rw [exec_nextInstr]
  refine overwritesRow_ite (overwritesRow_setStatus _) fun _ =>
    overwritesRow_next ⟨fun r hr => ?_, fun _ _ _ => rfl, rfl⟩
  have hregs : overwrittenRegs (o.nextInstr n) = [.status, .rcur, .res] := by cases o <;> rfl
  rw [hregs] at hr
  cases r <;> simp [readReg] at hr ⊢

theorem cvConvert_overwritesRow (d : Direction) (pad : Bool) (src dst : Nat) (s : State) :
    OverwritesRow (.cvConvert d pad src dst) s (exec (.cvConvert d pad src dst) s) := by
  obtain hrange | hsrc := lt_or_ge (d.sourceLen s).toNat src
  · rw [exec_cvConvert_of_range d hrange]
    exact overwritesRow_setStatus _
  obtain hfull | hfit := lt_or_ge 255 (dst + d.outputLen pad src s)
  · rw [exec_cvConvert_of_capacity d hsrc hfull]
    exact overwritesRow_setStatus _
  by_cases hleft : d.Leftover pad src s
  · rw [exec_cvConvert_of_leftover d hsrc hfit hleft]
    exact overwritesRow_setStatus _
  · obtain ⟨t, hnext, -, hlen, -, hframe⟩ := exec_cvConvert_converts d hsrc hfit hleft
    have hout : d.outputLen pad src s = (d.targetLen t).toNat - dst := by omega
    rw [hnext]
    rw [hout] at hframe
    cases d <;> exact overwritesRow_next hframe

/-- Every command stays within its row, whatever it ends with. -/
theorem exec_overwritesRow (i : Instr) (s : State) : OverwritesRow i s (exec i s) := by
  cases i with
  | nop => exact overwritesRow_setStatus _
  | softReset => exact softReset_overwritesRow s
  | pmInit => exact overwritesRow_setChk _ rfl
  | pmStep imm5 => exact overwritesRow_setChk _ rfl
  | pmHrp => exact overwritesRow_setChk _ rfl
  | pmSyms start len => exact overwritesRow_ite (overwritesRow_setStatus _) fun _ => overwritesRow_setChk _ rfl
  | pmZeros cnt => exact overwritesRow_setChk _ rfl
  | pmXorm v => exact overwritesRow_setChk _ rfl
  | pmCmpm v => exact overwritesRow_ite (overwritesRow_setStatus _) fun _ => overwritesRow_setStatus _
  | pmEmit =>
    exact overwritesRow_ite (overwritesRow_setStatus _) fun h =>
      overwritesRow_next ((frame_appendChecksum _ (slen_le_of_room h)).setStatus _)
  | ckCreate v =>
    exact overwritesRow_ite (overwritesRow_setStatus _) fun h =>
      overwritesRow_next (((frame_appendChecksum _ (slen_le_of_room h)).setChk _).setStatus _)
  | ckVerify v => exact overwritesRow_ite (overwritesRow_setStatus _) fun _ => overwritesRow_setChk _ rfl
  | alEnc => exact overwritesRow_ite (overwritesRow_setStatus _) fun _ => overwritesRow_setRes _ rfl
  | alDec => exact alDec_overwritesRow s
  | bcEncode v => exact bcEncode_overwritesRow v s
  | bcDecode v => exact bcDecode_overwritesRow v s
  | agClear =>
    obtain ⟨-, hrule⟩ := agClearStartsStream
    obtain ⟨t, hnext, -, -, -, hframe⟩ := hrule s
    exact hnext ▸ overwritesRow_next hframe
  | agAppendL n => exact appendInstr_overwritesRow .lsbFirst n s
  | agAppendM n => exact appendInstr_overwritesRow .msbFirst n s
  | enStart =>
    obtain ⟨-, hrule⟩ := enStartResetsReadCursor
    obtain ⟨t, hnext, -, -, hframe⟩ := hrule s
    exact hnext ▸ overwritesRow_next hframe
  | enNextL n => exact nextInstr_overwritesRow .lsbFirst n s
  | enNextM n => exact nextInstr_overwritesRow .msbFirst n s
  | cvConvert d pad src dst => exact cvConvert_overwritesRow d pad src dst s

/-- Settles O20: an error changes only STATUS, and the frame each command's rule gives is its row. -/
theorem eachCommandOverwritesOnlyItsRow : Obligations.EachCommandOverwritesOnlyItsRow :=
  fun i s => exec_overwritesRow i s

/-! ## The engine does not look at the host side (R19, R20) -/

/-- A command's outcome with the host side of its next state replaced. -/
def underHost (h : HostSide) : Host.Outcome State Fault Refusal → Host.Outcome State Fault Refusal
  | .next t => .next (t.setHost h)
  | .fault f => .fault f
  | .refused r => .refused r

section
variable {h : HostSide} {a b a' b' : Host.Outcome State Fault Refusal}

/-- A command that checks `p` first is under another host what its branches are. -/
theorem ite_eq_underHost {p : Prop} [Decidable p] (ha : a' = underHost h a) (hb : b' = underHost h b) :
    (if p then a' else b') = underHost h (if p then a else b) := by
  split
  · exact ha
  · exact hb

theorem elim_eq_underHost {α : Type} {x : Option α} {f f' : α → Host.Outcome State Fault Refusal}
    (ha : a' = underHost h a) (hf : ∀ y, f' y = underHost h (f y)) : x.elim a' f' = underHost h (x.elim a f) := by
  cases x with
  | none => exact ha
  | some y => exact hf y

end

theorem exec_bcDecode_setHost (v : Variant) (s : State) (h : HostSide) :
    exec (.bcDecode v) (s.setHost h) = underHost h (exec (.bcDecode v) s) := by
  cases hparse : parseString v s.txtText with
  | error c =>
    rw [exec_bcDecode_of_error hparse]
    exact exec_bcDecode_of_error hparse
  | ok r =>
    rw [exec_bcDecode_of_ok hparse]
    exact exec_bcDecode_of_ok hparse

/-- Every command's conditions and values come from the engine's own fields. -/
theorem exec_setHost (i : Instr) (s : State) (h : HostSide) : exec i (s.setHost h) = underHost h (exec i s) := by
  cases i with
  | pmSyms start len => exact ite_eq_underHost rfl rfl
  | pmCmpm v => exact ite_eq_underHost rfl rfl
  | pmEmit => exact ite_eq_underHost rfl rfl
  | ckCreate v => exact ite_eq_underHost rfl rfl
  | ckVerify v => exact ite_eq_underHost rfl rfl
  | alEnc => exact ite_eq_underHost rfl rfl
  | alDec =>
    refine ite_eq_underHost rfl (ite_eq_underHost rfl ?_)
    rw [State.setHost_arg]
    cases rev (s.arg.setWidth 8) <;> rfl
  | bcEncode v => exact ite_eq_underHost rfl rfl
  | bcDecode v => exact exec_bcDecode_setHost v s h
  | agAppendL n => exact ite_eq_underHost rfl (ite_eq_underHost rfl rfl)
  | agAppendM n => exact ite_eq_underHost rfl (ite_eq_underHost rfl rfl)
  | enNextL n => exact ite_eq_underHost rfl rfl
  | enNextM n => exact ite_eq_underHost rfl rfl
  | cvConvert d pad src dst =>
    rw [exec_cvConvert, exec_cvConvert]
    cases d <;> exact ite_eq_underHost rfl (ite_eq_underHost rfl (elim_eq_underHost rfl fun _ => rfl))
  | _ => rfl

theorem executeCommand_setHost (w : Word) (s : State) (h : HostSide) :
    executeCommand w (s.setHost h) = underHost h (executeCommand w s) := by
  unfold executeCommand
  cases decode w with
  | ok i => exact exec_setHost i s h
  | error e => rfl

theorem writeReg_setHost (r : Reg) (d : Word) (s : State) (h : HostSide) :
    writeReg r d (s.setHost h) = underHost h (writeReg r d s) := by
  cases r with
  | cmd => exact executeCommand_setHost d s h
  | _ => rfl

theorem portWrite_setHost (a : PortAddr) (d : Word) (s : State) (h : HostSide) :
    portWrite a d (s.setHost h) = underHost h (portWrite a d s) := by
  unfold portWrite
  cases locate a with
  | none => rfl
  | some l =>
    cases l with
    | reg r => exact writeReg_setHost r d s h
    | cell b i => rfl

/-! ## The accesses of a procedure under way (R71, R289) -/

section
variable {a : PortAddr} (ha : a.toNat % 4 = 0)
include ha

theorem hostAccess_read (s : State) : hostAccess (.read 32 a) s = .next (portRead a s, s.observe (portRead a s)) := by
  have hacc : accessPort (.read 32 a) s = .next (portRead a s, s) := accessPort_read_next.mpr ⟨rfl, ha, rfl, rfl⟩
  rw [hostAccess, hacc]

theorem hostAccess_write {d : Word} {s t : State} (hw : portWrite a d s = .next t) (h : HostSide) :
    hostAccess (.write 32 a d) (s.setHost h) = .next (0#32, t.setHost h) := by
  have hw' : portWrite a d (s.setHost h) = .next (t.setHost h) := by rw [portWrite_setHost, hw, underHost]
  have hacc : accessPort (.write 32 a d) (s.setHost h) = .next (0#32, t.setHost h) :=
    accessPort_write_next.mpr ⟨rfl, ha, rfl, hw'⟩
  rw [hostAccess, hacc]

end

theorem settleProcedure_of_done {p : Procedure} {answers : List Word} {o : ProcOutcome}
    (h : p.prog.resume answers = .done o) (s : State) : settleProcedure p answers s = .next (s.conclude o) := by
  simp only [settleProcedure, h]

theorem settleProcedure_of_access {p : Procedure} {answers : List Word} {acc : Access}
    (h : (p.prog.resume answers).nextAccess = some acc) (s : State) :
    settleProcedure p answers s = .next (s.setRunning (some ⟨p, answers⟩)) := by
  unfold settleProcedure
  cases hq : p.prog.resume answers with
  | rd | wr => rfl
  | done | refuse | fault => simp [hq, Prog.nextAccess] at h

theorem core_run_succ {s t : State} (h : step s = .next t) (k : Nat) :
    Host.Core.run core (k + 1) s = Host.Core.run core k t := by
  have hstep : core.step s = .next t := h
  simp only [Host.Core.run, hstep]

/-- Where a procedure has an access to make, the proceed event scheduled next makes it, and the procedure stands where
it does with one answer more (R290). -/
theorem settleProcedure_then_step {p : Procedure} {answers : List Word} {acc : Access} {s t : State} {v : Word}
    {rest : List HostEvent} {running : Option ProcRun} {reads : List Word} {outcomes : List ProcOutcome}
    (hnext : (p.prog.resume answers).nextAccess = some acc)
    (hacc : hostAccess acc (s.setHost ⟨rest, some ⟨p, answers⟩, reads, outcomes⟩) = .next (v, t)) :
    ∃ s', settleProcedure p answers (s.setHost ⟨.proceed :: rest, running, reads, outcomes⟩) = .next s' ∧
      step s' = settleProcedure p (answers ++ [v]) t := by
  refine ⟨_, settleProcedure_of_access hnext _, ?_⟩
  show proceedProcedure ⟨p, answers⟩ (s.setHost ⟨rest, some ⟨p, answers⟩, reads, outcomes⟩) = _
  simp only [proceedProcedure, hnext, hacc]

/-! ## A procedure's run, one access a step (R285, R289) -/

/-- From where the procedure `p` stands after `answers`, on the engine state `s`, some number of proceed events ends it
with the outcome `o` on the engine state `t`, whatever the host side has observed before. -/
def ProceedsTo (p : Procedure) (answers : List Word) (s : State) (o : ProcOutcome) (t : State) : Prop :=
  ∀ (running : Option ProcRun) (reads : List Word) (outcomes : List ProcOutcome), ∃ (k : Nat) (s' : State),
    settleProcedure p answers (s.setHost ⟨List.replicate k .proceed, running, reads, outcomes⟩) = .next s' ∧
    ∃ reads', Host.Core.run core k s' = .next (t.setHost ⟨[], none, reads', outcomes ++ [o]⟩)

/-- What holds after an access that completes held before it, with one proceed event more. -/
theorem ProceedsTo.of_access {p : Procedure} {answers : List Word} {acc : Access} {s u t : State} {v : Word}
    {o : ProcOutcome} (h : ProceedsTo p (answers ++ [v]) u o t) (hnext : (p.prog.resume answers).nextAccess = some acc)
    (hacc : ∀ running reads outcomes, ∃ reads', ∀ rest, hostAccess acc (s.setHost ⟨rest, running, reads, outcomes⟩) =
      .next (v, u.setHost ⟨rest, running, reads', outcomes⟩)) : ProceedsTo p answers s o t := by
  intro running reads outcomes
  obtain ⟨reads', hacc⟩ := hacc (some ⟨p, answers⟩) reads outcomes
  obtain ⟨k, s', hsettle, reads'', hrun⟩ := h (some ⟨p, answers⟩) reads' outcomes
  obtain ⟨s0, hs0, hstep⟩ := settleProcedure_then_step (running := running) hnext (hacc (List.replicate k .proceed))
  exact ⟨k + 1, s0, hs0, reads'', (core_run_succ (hstep.trans hsettle) k).trans hrun⟩

/-- The program left of a procedure ends its run as the run of that program ends: induction on the program left. -/
theorem proceedsTo_of_run {p : Procedure} {q : Prog} {answers : List Word} {s t : State} {o : ProcOutcome}
    (hq : p.prog.resume answers = q) (hrun : q.run s = .next (o, t)) : ProceedsTo p answers s o t := by
  induction q generalizing answers s with
  | done o' =>
    cases hrun
    exact fun running reads outcomes => ⟨0, _, settleProcedure_of_done hq _, reads, rfl⟩
  | refuse r => cases hrun
  | fault f => cases hrun
  | rd a k ih =>
    simp only [Prog.run] at hrun
    split at hrun
    · next v u hacc =>
      obtain ⟨-, ha, rfl, rfl⟩ := accessPort_read_next.mp hacc
      have hq' : p.prog.resume (answers ++ [portRead a u]) = k (portRead a u) := by
        rw [Prog.resume_append, hq, Prog.resume, Prog.resume_nil]
      refine (ih _ hq' hrun).of_access (acc := .read 32 a) (by rw [hq, Prog.nextAccess]) fun _ reads _ =>
        ⟨reads ++ [portRead a u], fun rest => ?_⟩
      rw [hostAccess_read ha, portRead_setHost]
      rfl
    · cases hrun
    · cases hrun
  | wr a d k ih =>
    simp only [Prog.run] at hrun
    split at hrun
    · next v u hacc =>
      obtain ⟨-, ha, rfl, hw⟩ := accessPort_write_next.mp hacc
      have hq' : p.prog.resume (answers ++ [0#32]) = k := by
        rw [Prog.resume_append, hq, Prog.resume, Prog.resume_nil]
      exact (ih hq' hrun).of_access (acc := .write 32 a d) (by rw [hq, Prog.nextAccess]) fun _ reads _ =>
        ⟨reads, fun rest => hostAccess_write ha hw _⟩
    · cases hrun
    · cases hrun

/-- Settles O60: the call stands before the first access, and from there each proceed event makes one access of the
run. -/
theorem procedureStepsReachItsRun : Obligations.ProcedureStepsReachItsRun := by
  intro p s t o _ hrun
  obtain ⟨k, s', hsettle, reads', hend⟩ := proceedsTo_of_run p.prog.resume_nil hrun none s.host.reads s.host.outcomes
  refine ⟨k, t.setHost ⟨[], none, reads', s.host.outcomes ++ [o]⟩, ?_, rfl, rfl, rfl, rfl⟩
  refine (core_run_succ ?_ k).trans hend
  exact (step_call rfl rfl).trans hsettle

end Sys2Proof.Machine
end
